-- ==== Sys2Proof/Word.lean ====
section
/-! DEFINITION. The widths of the hardware: words, bytes, register and CSR indices (00_scope.md R9). -/

namespace Sys2Proof

/-- XLEN = ILEN = 32: every data value, address and instruction word (R9, R12). -/
abbrev Word := BitVec 32

/-- One byte of ENV memory (20_memory.md R51). -/
abbrev Byte := BitVec 8

/-- A 5-bit register selector, 0 to 31 (R9, 10_state.md R23). -/
abbrev RegIdx := BitVec 5

/-- A 12-bit CSR selector, 0 to 4095 (R9, R23). -/
abbrev CsrIdx := BitVec 12

end Sys2Proof
end

