-- ==== Sys2Proof/Syntax.lean ====
section
/-! DEFINITION. The instructions: one constructor per row of spec/opcode_table.json. Operands are the
fields of the row's format (30_encoding.md R73 to R79); bits the decoder does not check (R98) are no
part of an instruction that executes (log entry 10). An `unsupported…` instruction is its whole word,
because ENV's fault records the word (60_exceptions.md R232). -/

namespace Sys2Proof

/-- An instruction. `imm` of the I and S formats is the 12-bit field; `shamt` is `word[24:20]`; `imm20`
is `word[31:12]`; `offset` is the byte offset of a branch (13 bits) or JAL (21 bits), bit 0 being 0. -/
inductive Instr where
  -- OpImm class (40_opimm.md R112 to R120)
  | addi (rd rs1 : RegIdx) (imm : BitVec 12)
  | slti (rd rs1 : RegIdx) (imm : BitVec 12)
  | sltiu (rd rs1 : RegIdx) (imm : BitVec 12)
  | xori (rd rs1 : RegIdx) (imm : BitVec 12)
  | ori (rd rs1 : RegIdx) (imm : BitVec 12)
  | andi (rd rs1 : RegIdx) (imm : BitVec 12)
  | slli (rd rs1 : RegIdx) (imm : BitVec 12)
  | srli (rd rs1 : RegIdx) (shamt : BitVec 5)
  | srai (rd rs1 : RegIdx) (shamt : BitVec 5)
  -- Op class (41_op.md R128 to R137)
  | add (rd rs1 rs2 : RegIdx)
  | sub (rd rs1 rs2 : RegIdx)
  | sll (rd rs1 rs2 : RegIdx)
  | slt (rd rs1 rs2 : RegIdx)
  | sltu (rd rs1 rs2 : RegIdx)
  | xor (rd rs1 rs2 : RegIdx)
  | srl (rd rs1 rs2 : RegIdx)
  | sra (rd rs1 rs2 : RegIdx)
  | or (rd rs1 rs2 : RegIdx)
  | and (rd rs1 rs2 : RegIdx)
  -- Lui and Auipc classes (42_upper_immediate.md R141, R143)
  | lui (rd : RegIdx) (imm20 : BitVec 20)
  | auipc (rd : RegIdx) (imm20 : BitVec 20)
  -- Jal and Jalr classes (43_jumps.md R146, R148)
  | jal (rd : RegIdx) (offset : BitVec 21)
  | jalr (rd rs1 : RegIdx) (imm : BitVec 12)
  -- Branch class (44_branch.md R152 to R157)
  | beq (rs1 rs2 : RegIdx) (offset : BitVec 13)
  | bne (rs1 rs2 : RegIdx) (offset : BitVec 13)
  | blt (rs1 rs2 : RegIdx) (offset : BitVec 13)
  | bge (rs1 rs2 : RegIdx) (offset : BitVec 13)
  | bltu (rs1 rs2 : RegIdx) (offset : BitVec 13)
  | bgeu (rs1 rs2 : RegIdx) (offset : BitVec 13)
  -- Load and Store classes (45_load_store.md R162, R165); `sw` stores `x[rs2]` at `x[rs1] + imm`
  | lw (rd rs1 : RegIdx) (imm : BitVec 12)
  | sw (rs1 rs2 : RegIdx) (imm : BitVec 12)
  -- System class (46_system_csr.md R171, R172)
  | csrw (csr : CsrIdx) (rs1 : RegIdx)
  | csrr (rd : RegIdx) (csr : CsrIdx)
  -- the words with no execution meaning (R158, R161, R164, R173, R181, R182, R183)
  | unsupportedBranch (word : Word)
  | unsupportedLoad (word : Word)
  | unsupportedStore (word : Word)
  | unsupportedSystem (word : Word)
  | unsupportedMiscMem (word : Word)
  | unsupportedAmo (word : Word)
  | unsupportedUnknown (word : Word)
  deriving DecidableEq, Repr

end Sys2Proof
end

