-- ==== Sys2Proof/WellFormed.lean ====
section
/-! DEFINITION. Which instructions are the meaning of some word: a branch or JAL offset is even
(30_encoding.md R82, R85), and an `unsupported…` instruction carries a word of its own row of
spec/opcode_table.json (44_branch.md R158, 45_load_store.md R161 and R164, 46_system_csr.md R173,
47_unsupported.md R181 to R183). Every other operand is well formed by its width. -/

namespace Sys2Proof

/-- The seven low bits of the twelve opcode classes (R89, R183), as masked words. -/
def opcodeClassCodes : List Word :=
  [0x03#32, 0x0F#32, 0x13#32, 0x17#32, 0x23#32, 0x2F#32, 0x33#32, 0x37#32, 0x63#32, 0x67#32, 0x6F#32, 0x73#32]

/-- The word matches a row: `word & mask = match` (R102). -/
def rowMatches (word mask pattern : Word) : Bool := word &&& mask == pattern

/-- The instruction is one the decoder produces. -/
def Instr.wellFormed : Instr → Bool
  | .addi _ _ _ | .slti _ _ _ | .sltiu _ _ _ | .xori _ _ _ | .ori _ _ _ | .andi _ _ _ => true
  | .slli _ _ _ | .srli _ _ _ | .srai _ _ _ => true
  | .add _ _ _ | .sub _ _ _ | .sll _ _ _ | .slt _ _ _ | .sltu _ _ _ => true
  | .xor _ _ _ | .srl _ _ _ | .sra _ _ _ | .or _ _ _ | .and _ _ _ => true
  | .lui _ _ | .auipc _ _ => true
  | .jal _ offset => !offset.getLsbD 0
  | .jalr _ _ _ => true
  | .beq _ _ offset | .bne _ _ offset | .blt _ _ offset => !offset.getLsbD 0
  | .bge _ _ offset | .bltu _ _ offset | .bgeu _ _ offset => !offset.getLsbD 0
  | .lw _ _ _ | .sw _ _ _ => true
  | .csrw _ _ | .csrr _ _ => true
  | .unsupportedBranch w => rowMatches w 0x607F#32 0x2063#32
  | .unsupportedLoad w => rowMatches w 0x7F#32 0x03#32 && !rowMatches w 0x707F#32 0x2003#32
  | .unsupportedStore w => rowMatches w 0x7F#32 0x23#32 && !rowMatches w 0x707F#32 0x2023#32
  | .unsupportedSystem w =>
      rowMatches w 0x7F#32 0x73#32 && !rowMatches w 0x7FFF#32 0x1073#32 && !rowMatches w 0xFF07F#32 0x2073#32
  | .unsupportedMiscMem w => rowMatches w 0x7F#32 0x0F#32
  | .unsupportedAmo w => rowMatches w 0x7F#32 0x2F#32
  | .unsupportedUnknown w => !opcodeClassCodes.contains (w &&& 0x7F#32)

end Sys2Proof
end

