-- ==== Sys2Proof/Decode.lean ====
section
/-! DEFINITION. Words to instructions and back: the bit fields of the six formats (30_encoding.md R73 to
R79), the opcode classes (R89), the decoder by class and function code, a byte-level decoder, and the
encoder. `Machine/Decoder.lean` holds the spec's own `decode`, from words to descriptors. -/

namespace Sys2Proof

/-! ## Bytes (20_memory.md R52, R53: little-endian) -/

/-- The word whose byte at the lowest address is `b0` (R52). -/
def wordOfBytes (b0 b1 b2 b3 : Byte) : Word := b3 ++ b2 ++ b1 ++ b0

/-- The byte of a word that lies `k` bytes above its address (R53, for `k < 4`). DESIGN CHOICE, log entry 20: 0 for
any other `k`. -/
def byteOf (v : Word) (k : Nat) : Byte := v.extractLsb' (8 * k) 8

/-- The four bytes of a word, the lowest address first. -/
def wordBytes (v : Word) : List Byte := [byteOf v 0, byteOf v 1, byteOf v 2, byteOf v 3]

/-! ## Fields -/

/-- `opc = word[6:0]` (R73). -/
def opcodeField (w : Word) : BitVec 7 := w.extractLsb' 0 7

/-- `rd = word[11:7]` (R73). -/
def rdField (w : Word) : RegIdx := w.extractLsb' 7 5

/-- `funct3 = word[14:12]` (R73). -/
def funct3Field (w : Word) : BitVec 3 := w.extractLsb' 12 3

/-- `rs1 = word[19:15]` (R73). -/
def rs1Field (w : Word) : RegIdx := w.extractLsb' 15 5

/-- `rs2 = word[24:20]` (R73); also the shift amount of SRLI and SRAI (R86). -/
def rs2Field (w : Word) : RegIdx := w.extractLsb' 20 5

/-- `aluSel = word[30]` (R73, R94). -/
def aluSelBit (w : Word) : Bool := w.getLsbD 30

/-- `imm[11:0] = word[31:20]` of the I format (R75); also the CSR index (R87). -/
def immIField (w : Word) : BitVec 12 := w.extractLsb' 20 12

/-- `imm[11:5] | imm[4:0] = word[31:25] | word[11:7]` of the S format (R76, R81). -/
def immSField (w : Word) : BitVec 12 := w.extractLsb' 25 7 ++ w.extractLsb' 7 5

/-- The 13-bit immediate of the B format, `{word[31], word[7], word[30:25], word[11:8], 0}` (R77, R82). -/
def immBField (w : Word) : BitVec 13 :=
  w.extractLsb' 31 1 ++ w.extractLsb' 7 1 ++ w.extractLsb' 25 6 ++ w.extractLsb' 8 4 ++ 0#1

/-- `imm[31:12] = word[31:12]` of the U format (R78, R83). -/
def immUField (w : Word) : BitVec 20 := w.extractLsb' 12 20

/-- The 21-bit immediate of the J format, `{word[31], word[19:12], word[20], word[30:21], 0}` (R79, R85). -/
def immJField (w : Word) : BitVec 21 :=
  w.extractLsb' 31 1 ++ w.extractLsb' 12 8 ++ w.extractLsb' 20 1 ++ w.extractLsb' 21 10 ++ 0#1

/-! ## Decoding -/

/-- The twelve opcode classes and the bucket of every other value (R89). -/
inductive OpcodeClass where
  | load | miscMem | opImm | auipc | store | amo | op | lui | branch | jalr | jal | system | unknown
  deriving DecidableEq, Repr

/-- The class of a seven-bit opcode (R89). -/
def opcodeClass (opc : BitVec 7) : OpcodeClass :=
  if opc = 0x03#7 then .load else if opc = 0x0F#7 then .miscMem else if opc = 0x13#7 then .opImm
  else if opc = 0x17#7 then .auipc else if opc = 0x23#7 then .store else if opc = 0x2F#7 then .amo
  else if opc = 0x33#7 then .op else if opc = 0x37#7 then .lui else if opc = 0x63#7 then .branch
  else if opc = 0x67#7 then .jalr else if opc = 0x6F#7 then .jal else if opc = 0x73#7 then .system
  else .unknown

/-- The OpImm class: every `funct3` is mapped (R93, R94, 40_opimm.md R121). -/
def decodeOpImm (w : Word) : Instr :=
  let f := funct3Field w
  if f = 0#3 then .addi (rdField w) (rs1Field w) (immIField w)
  else if f = 1#3 then .slli (rdField w) (rs1Field w) (immIField w)
  else if f = 2#3 then .slti (rdField w) (rs1Field w) (immIField w)
  else if f = 3#3 then .sltiu (rdField w) (rs1Field w) (immIField w)
  else if f = 4#3 then .xori (rdField w) (rs1Field w) (immIField w)
  else if f = 5#3 then
    if aluSelBit w then .srai (rdField w) (rs1Field w) (rs2Field w)
    else .srli (rdField w) (rs1Field w) (rs2Field w)
  else if f = 6#3 then .ori (rdField w) (rs1Field w) (immIField w)
  else .andi (rdField w) (rs1Field w) (immIField w)

/-- The Op class: every `funct3` is mapped, and of `funct7` only `aluSel` is read (R94, R98, 41_op.md R138). -/
def decodeOp (w : Word) : Instr :=
  let f := funct3Field w
  if f = 0#3 then
    if aluSelBit w then .sub (rdField w) (rs1Field w) (rs2Field w)
    else .add (rdField w) (rs1Field w) (rs2Field w)
  else if f = 1#3 then .sll (rdField w) (rs1Field w) (rs2Field w)
  else if f = 2#3 then .slt (rdField w) (rs1Field w) (rs2Field w)
  else if f = 3#3 then .sltu (rdField w) (rs1Field w) (rs2Field w)
  else if f = 4#3 then .xor (rdField w) (rs1Field w) (rs2Field w)
  else if f = 5#3 then
    if aluSelBit w then .sra (rdField w) (rs1Field w) (rs2Field w)
    else .srl (rdField w) (rs1Field w) (rs2Field w)
  else if f = 6#3 then .or (rdField w) (rs1Field w) (rs2Field w)
  else .and (rdField w) (rs1Field w) (rs2Field w)

/-- The Branch class (R95); `funct3` 010 and 011 are `Unsupported` (44_branch.md R158). -/
def decodeBranch (w : Word) : Instr :=
  let f := funct3Field w
  if f = 0#3 then .beq (rs1Field w) (rs2Field w) (immBField w)
  else if f = 1#3 then .bne (rs1Field w) (rs2Field w) (immBField w)
  else if f = 4#3 then .blt (rs1Field w) (rs2Field w) (immBField w)
  else if f = 5#3 then .bge (rs1Field w) (rs2Field w) (immBField w)
  else if f = 6#3 then .bltu (rs1Field w) (rs2Field w) (immBField w)
  else if f = 7#3 then .bgeu (rs1Field w) (rs2Field w) (immBField w)
  else .unsupportedBranch w

/-- The Load class: only the word size has a meaning (R96, 45_load_store.md R160, R161). -/
def decodeLoad (w : Word) : Instr :=
  if funct3Field w = 2#3 then .lw (rdField w) (rs1Field w) (immIField w) else .unsupportedLoad w

/-- The Store class: only the word size has a meaning (R96, 45_load_store.md R163, R164). -/
def decodeStore (w : Word) : Instr :=
  if funct3Field w = 2#3 then .sw (rs1Field w) (rs2Field w) (immSField w) else .unsupportedStore w

/-- The System class: CSR write with `rd = 0`, CSR read with `rs1 = 0`, nothing else (R97, 46_system_csr.md R170). -/
def decodeSystem (w : Word) : Instr :=
  if funct3Field w = 1#3 ∧ rdField w = 0#5 then .csrw (immIField w) (rs1Field w)
  else if funct3Field w = 2#3 ∧ rs1Field w = 0#5 then .csrr (rdField w) (immIField w)
  else .unsupportedSystem w

/-- The instruction of a word: total, since every word is of some row (R99, R102). -/
def decodeWord (w : Word) : Instr :=
  match opcodeClass (opcodeField w) with
  | .opImm => decodeOpImm w
  | .op => decodeOp w
  | .lui => .lui (rdField w) (immUField w)
  | .auipc => .auipc (rdField w) (immUField w)
  | .jal => .jal (rdField w) (immJField w)
  | .jalr => .jalr (rdField w) (rs1Field w) (immIField w)
  | .branch => decodeBranch w
  | .load => decodeLoad w
  | .store => decodeStore w
  | .system => decodeSystem w
  | .miscMem => .unsupportedMiscMem w
  | .amo => .unsupportedAmo w
  | .unknown => .unsupportedUnknown w

/-- Why bytes are no instruction: fewer than the four bytes every instruction has (R70, log entry 16). -/
inductive DecodeError where
  | truncated
  deriving DecidableEq, Repr

/-- The instruction at the head of a list of bytes, lowest address first, and the bytes after it. -/
def decodeBytes : List Byte → Except DecodeError (Instr × List Byte)
  | b0 :: b1 :: b2 :: b3 :: rest => .ok (decodeWord (wordOfBytes b0 b1 b2 b3), rest)
  | _ => .error .truncated

/-- What the decoder reads from an instruction whose low `nbits` bits are `w`, bits above being 0, laid
out in memory order. An instruction has 32 bits (R70), so a longer row is refused. -/
def decodeTableWord (nbits w : Nat) : Option Instr :=
  if nbits ≤ 32 then
    match decodeBytes (wordBytes (BitVec.ofNat 32 (w % 2 ^ nbits))) with
    | .ok (i, _) => some i
    | .error _ => none
  else none

/-! ## Encoding, from the format tables R74 to R79 and the opcode and function codes R89, R93, R95 to R97 -/

/-- The R format: `funct7 | rs2 | rs1 | funct3 | rd | opc` (R74). -/
def encodeR (funct7 : BitVec 7) (rs2 rs1 : RegIdx) (funct3 : BitVec 3) (rd : RegIdx) (opc : BitVec 7) : Word :=
  funct7 ++ rs2 ++ rs1 ++ funct3 ++ rd ++ opc

/-- The I format: `imm[11:0] | rs1 | funct3 | rd | opc` (R75). -/
def encodeI (imm : BitVec 12) (rs1 : RegIdx) (funct3 : BitVec 3) (rd : RegIdx) (opc : BitVec 7) : Word :=
  imm ++ rs1 ++ funct3 ++ rd ++ opc

/-- The S format: `imm[11:5] | rs2 | rs1 | funct3 | imm[4:0] | opc` (R76). -/
def encodeS (imm : BitVec 12) (rs2 rs1 : RegIdx) (funct3 : BitVec 3) (opc : BitVec 7) : Word :=
  imm.extractLsb' 5 7 ++ rs2 ++ rs1 ++ funct3 ++ imm.extractLsb' 0 5 ++ opc

/-- The B format: `imm[12] | imm[10:5] | rs2 | rs1 | funct3 | imm[4:1] | imm[11] | opc` (R77). -/
def encodeB (imm : BitVec 13) (rs2 rs1 : RegIdx) (funct3 : BitVec 3) (opc : BitVec 7) : Word :=
  imm.extractLsb' 12 1 ++ imm.extractLsb' 5 6 ++ rs2 ++ rs1 ++ funct3
    ++ imm.extractLsb' 1 4 ++ imm.extractLsb' 11 1 ++ opc

/-- The U format: `imm[31:12] | rd | opc` (R78). -/
def encodeU (imm20 : BitVec 20) (rd : RegIdx) (opc : BitVec 7) : Word := imm20 ++ rd ++ opc

/-- The J format: `imm[20] | imm[10:1] | imm[11] | imm[19:12] | rd | opc` (R79). -/
def encodeJ (imm : BitVec 21) (rd : RegIdx) (opc : BitVec 7) : Word :=
  imm.extractLsb' 20 1 ++ imm.extractLsb' 1 10 ++ imm.extractLsb' 11 1 ++ imm.extractLsb' 12 8 ++ rd ++ opc

/-- The canonical word of an instruction (the Encoding line of each instruction's rule). -/
def encode : Instr → Word
  | .addi rd rs1 imm => encodeI imm rs1 0b000#3 rd 0x13#7
  | .slti rd rs1 imm => encodeI imm rs1 0b010#3 rd 0x13#7
  | .sltiu rd rs1 imm => encodeI imm rs1 0b011#3 rd 0x13#7
  | .xori rd rs1 imm => encodeI imm rs1 0b100#3 rd 0x13#7
  | .ori rd rs1 imm => encodeI imm rs1 0b110#3 rd 0x13#7
  | .andi rd rs1 imm => encodeI imm rs1 0b111#3 rd 0x13#7
  | .slli rd rs1 imm => encodeI imm rs1 0b001#3 rd 0x13#7
  | .srli rd rs1 shamt => encodeR 0b0000000#7 shamt rs1 0b101#3 rd 0x13#7
  | .srai rd rs1 shamt => encodeR 0b0100000#7 shamt rs1 0b101#3 rd 0x13#7
  | .add rd rs1 rs2 => encodeR 0b0000000#7 rs2 rs1 0b000#3 rd 0x33#7
  | .sub rd rs1 rs2 => encodeR 0b0100000#7 rs2 rs1 0b000#3 rd 0x33#7
  | .sll rd rs1 rs2 => encodeR 0b0000000#7 rs2 rs1 0b001#3 rd 0x33#7
  | .slt rd rs1 rs2 => encodeR 0b0000000#7 rs2 rs1 0b010#3 rd 0x33#7
  | .sltu rd rs1 rs2 => encodeR 0b0000000#7 rs2 rs1 0b011#3 rd 0x33#7
  | .xor rd rs1 rs2 => encodeR 0b0000000#7 rs2 rs1 0b100#3 rd 0x33#7
  | .srl rd rs1 rs2 => encodeR 0b0000000#7 rs2 rs1 0b101#3 rd 0x33#7
  | .sra rd rs1 rs2 => encodeR 0b0100000#7 rs2 rs1 0b101#3 rd 0x33#7
  | .or rd rs1 rs2 => encodeR 0b0000000#7 rs2 rs1 0b110#3 rd 0x33#7
  | .and rd rs1 rs2 => encodeR 0b0000000#7 rs2 rs1 0b111#3 rd 0x33#7
  | .lui rd imm20 => encodeU imm20 rd 0x37#7
  | .auipc rd imm20 => encodeU imm20 rd 0x17#7
  | .jal rd offset => encodeJ offset rd 0x6F#7
  | .jalr rd rs1 imm => encodeI imm rs1 0b000#3 rd 0x67#7
  | .beq rs1 rs2 offset => encodeB offset rs2 rs1 0b000#3 0x63#7
  | .bne rs1 rs2 offset => encodeB offset rs2 rs1 0b001#3 0x63#7
  | .blt rs1 rs2 offset => encodeB offset rs2 rs1 0b100#3 0x63#7
  | .bge rs1 rs2 offset => encodeB offset rs2 rs1 0b101#3 0x63#7
  | .bltu rs1 rs2 offset => encodeB offset rs2 rs1 0b110#3 0x63#7
  | .bgeu rs1 rs2 offset => encodeB offset rs2 rs1 0b111#3 0x63#7
  | .lw rd rs1 imm => encodeI imm rs1 0b010#3 rd 0x03#7
  | .sw rs1 rs2 imm => encodeS imm rs2 rs1 0b010#3 0x23#7
  | .csrw csr rs1 => encodeI csr rs1 0b001#3 0#5 0x73#7
  | .csrr rd csr => encodeI csr 0#5 0b010#3 rd 0x73#7
  | .unsupportedBranch w | .unsupportedLoad w | .unsupportedStore w | .unsupportedSystem w => w
  | .unsupportedMiscMem w | .unsupportedAmo w | .unsupportedUnknown w => w

/-! ## The opcode table (R102) -/

/-- The mnemonic of an instruction's row in spec/opcode_table.json. -/
def Instr.mnemonic : Instr → String
  | .addi _ _ _ => "ADDI" | .slti _ _ _ => "SLTI" | .sltiu _ _ _ => "SLTIU" | .xori _ _ _ => "XORI"
  | .ori _ _ _ => "ORI" | .andi _ _ _ => "ANDI" | .slli _ _ _ => "SLLI" | .srli _ _ _ => "SRLI"
  | .srai _ _ _ => "SRAI" | .add _ _ _ => "ADD" | .sub _ _ _ => "SUB" | .sll _ _ _ => "SLL"
  | .slt _ _ _ => "SLT" | .sltu _ _ _ => "SLTU" | .xor _ _ _ => "XOR" | .srl _ _ _ => "SRL"
  | .sra _ _ _ => "SRA" | .or _ _ _ => "OR" | .and _ _ _ => "AND" | .lui _ _ => "LUI"
  | .auipc _ _ => "AUIPC" | .jal _ _ => "JAL" | .jalr _ _ _ => "JALR" | .beq _ _ _ => "BEQ"
  | .bne _ _ _ => "BNE" | .blt _ _ _ => "BLT" | .bge _ _ _ => "BGE" | .bltu _ _ _ => "BLTU"
  | .bgeu _ _ _ => "BGEU" | .lw _ _ _ => "LW" | .sw _ _ _ => "SW" | .csrw _ _ => "CSRW"
  | .csrr _ _ => "CSRR" | .unsupportedBranch _ => "UNSUPPORTED.BRANCH" | .unsupportedLoad _ => "UNSUPPORTED.LOAD"
  | .unsupportedStore _ => "UNSUPPORTED.STORE" | .unsupportedSystem _ => "UNSUPPORTED.SYSTEM"
  | .unsupportedMiscMem _ => "UNSUPPORTED.MISCMEM" | .unsupportedAmo _ => "UNSUPPORTED.AMO"
  | .unsupportedUnknown _ => "UNSUPPORTED.UNKNOWN"

/-- A row of the opcode table: its mnemonic, mask and match. -/
structure OpcodeRow where
  mnemonic : String
  mask : Word
  pattern : Word
  deriving DecidableEq, Repr

/-- The rows of spec/opcode_table.json that execute, in its order. -/
def supportedRows : List OpcodeRow :=
  [⟨"ADDI", 0x707F#32, 0x13#32⟩, ⟨"SLTI", 0x707F#32, 0x2013#32⟩, ⟨"SLTIU", 0x707F#32, 0x3013#32⟩,
   ⟨"XORI", 0x707F#32, 0x4013#32⟩, ⟨"ORI", 0x707F#32, 0x6013#32⟩, ⟨"ANDI", 0x707F#32, 0x7013#32⟩,
   ⟨"SLLI", 0x707F#32, 0x1013#32⟩, ⟨"SRLI", 0x4000707F#32, 0x5013#32⟩, ⟨"SRAI", 0x4000707F#32, 0x40005013#32⟩] ++
  [⟨"ADD", 0x4000707F#32, 0x33#32⟩, ⟨"SUB", 0x4000707F#32, 0x40000033#32⟩, ⟨"SLL", 0x707F#32, 0x1033#32⟩,
   ⟨"SLT", 0x707F#32, 0x2033#32⟩, ⟨"SLTU", 0x707F#32, 0x3033#32⟩, ⟨"XOR", 0x707F#32, 0x4033#32⟩,
   ⟨"SRL", 0x4000707F#32, 0x5033#32⟩, ⟨"SRA", 0x4000707F#32, 0x40005033#32⟩, ⟨"OR", 0x707F#32, 0x6033#32⟩,
   ⟨"AND", 0x707F#32, 0x7033#32⟩] ++
  [⟨"LUI", 0x7F#32, 0x37#32⟩, ⟨"AUIPC", 0x7F#32, 0x17#32⟩, ⟨"JAL", 0x7F#32, 0x6F#32⟩, ⟨"JALR", 0x7F#32, 0x67#32⟩,
   ⟨"BEQ", 0x707F#32, 0x63#32⟩, ⟨"BNE", 0x707F#32, 0x1063#32⟩, ⟨"BLT", 0x707F#32, 0x4063#32⟩,
   ⟨"BGE", 0x707F#32, 0x5063#32⟩, ⟨"BLTU", 0x707F#32, 0x6063#32⟩, ⟨"BGEU", 0x707F#32, 0x7063#32⟩] ++
  [⟨"LW", 0x707F#32, 0x2003#32⟩, ⟨"SW", 0x707F#32, 0x2023#32⟩, ⟨"CSRW", 0x7FFF#32, 0x1073#32⟩,
   ⟨"CSRR", 0xFF07F#32, 0x2073#32⟩]

/-- The rows that catch the rest, in order; the last matches every word. -/
def unsupportedRows : List OpcodeRow :=
  [⟨"UNSUPPORTED.BRANCH", 0x607F#32, 0x2063#32⟩, ⟨"UNSUPPORTED.LOAD", 0x7F#32, 0x03#32⟩,
   ⟨"UNSUPPORTED.STORE", 0x7F#32, 0x23#32⟩, ⟨"UNSUPPORTED.SYSTEM", 0x7F#32, 0x73#32⟩,
   ⟨"UNSUPPORTED.MISCMEM", 0x7F#32, 0x0F#32⟩, ⟨"UNSUPPORTED.AMO", 0x7F#32, 0x2F#32⟩,
   ⟨"UNSUPPORTED.UNKNOWN", 0x0#32, 0x0#32⟩]

/-- The mnemonic of the first row with `word & mask = match` (R102). -/
def firstRow (w : Word) : Option String :=
  ((supportedRows ++ unsupportedRows).find? fun r => rowMatches w r.mask r.pattern).map (·.mnemonic)

end Sys2Proof
end

