-- ==== Sys2Proof/Machine/Descriptor.lean ====
section
/-! DEFINITION. The InstructionDescriptor (10_state.md R23 to R29) and the per-opcode builders that fill
it (the builder rules of 40_opimm.md to 47_unsupported.md). Enumerators and Options are abstract (R28). -/

namespace Sys2Proof.Machine

/-- `type`, exactly ten values (R25). -/
inductive ExecType where
  | alu | auipc | j | jr | br | ld | st | csrr | csrw | unsupported
  deriving DecidableEq, Repr

/-- `aluFunc`, exactly eleven values; `none` is the neutral one (R26). -/
inductive AluFunc where
  | add | sub | and | or | xor | slt | sltu | sll | srl | sra | none
  deriving DecidableEq, Repr

/-- `brFunc`, exactly eight values; `neverTaken` is the neutral one (R27). -/
inductive BrFunc where
  | eq | neq | lt | ltu | ge | geu | alwaysTaken | neverTaken
  deriving DecidableEq, Repr

/-- The fields `decode` produces (R23). Absent means "not used by this instruction" and is not 0 (R14). -/
structure Descriptor where
  type : ExecType
  aluFunc : AluFunc
  brFunc : BrFunc
  dst : Option RegIdx
  src1 : Option RegIdx
  src2 : Option RegIdx
  imm : Option Word
  csr : Option CsrIdx
  deriving DecidableEq, Repr

/-- The neutral descriptor every builder starts from (30_encoding.md R90 step 3, R91; 47_unsupported.md R180). -/
def neutral : Descriptor where
  type := .unsupported
  aluFunc := .none
  brFunc := .neverTaken
  dst := none
  src1 := none
  src2 := none
  imm := none
  csr := none

/-- Destination normalisation: `dst = present(0)` becomes absent (R90 step 5, R92). -/
def Descriptor.normalizeDst (d : Descriptor) : Descriptor :=
  if d.dst = some 0#5 then { d with dst := none } else d

/-- The OpImm builder (40_opimm.md R110). -/
def opImmBuilder (f : AluFunc) (rd rs1 : RegIdx) (imm : Word) : Descriptor :=
  { neutral with type := .alu, aluFunc := f, dst := some rd, src1 := some rs1, imm := some imm }

/-- The Op builder (41_op.md R125). -/
def opBuilder (f : AluFunc) (rd rs1 rs2 : RegIdx) : Descriptor :=
  { neutral with type := .alu, aluFunc := f, dst := some rd, src1 := some rs1, src2 := some rs2 }

/-- The Lui builder: Add with register 0 as the source (42_upper_immediate.md R140, conflict C7). -/
def luiBuilder (rd : RegIdx) (imm : Word) : Descriptor :=
  { neutral with type := .alu, aluFunc := .add, dst := some rd, src1 := some 0#5, imm := some imm }

/-- The Auipc builder (R142). -/
def auipcBuilder (rd : RegIdx) (imm : Word) : Descriptor :=
  { neutral with type := .auipc, dst := some rd, imm := some imm }

/-- The Jal builder (43_jumps.md R145). -/
def jalBuilder (rd : RegIdx) (imm : Word) : Descriptor :=
  { neutral with type := .j, brFunc := .alwaysTaken, dst := some rd, imm := some imm }

/-- The Jalr builder (R147). -/
def jalrBuilder (rd rs1 : RegIdx) (imm : Word) : Descriptor :=
  { neutral with type := .jr, brFunc := .alwaysTaken, dst := some rd, src1 := some rs1, imm := some imm }

/-- The Branch builder (44_branch.md R150); with no branch function the word is `Unsupported` (R158). -/
def branchBuilder (f : Option BrFunc) (rs1 rs2 : RegIdx) (imm : Word) : Descriptor :=
  match f with
  | some f => { neutral with type := .br, brFunc := f, src1 := some rs1, src2 := some rs2, imm := some imm }
  | none => { neutral with src1 := some rs1, src2 := some rs2, imm := some imm }

/-- The Load builder (45_load_store.md R160); a width other than the word is `Unsupported` (R161). -/
def loadBuilder (isWord : Bool) (rd rs1 : RegIdx) (imm : Word) : Descriptor :=
  { neutral with
    type := if isWord then .ld else .unsupported
    aluFunc := .add, dst := some rd, src1 := some rs1, imm := some imm }

/-- The Store builder (R163); a width other than the word is `Unsupported` (R164). -/
def storeBuilder (isWord : Bool) (rs1 rs2 : RegIdx) (imm : Word) : Descriptor :=
  { neutral with
    type := if isWord then .st else .unsupported
    aluFunc := .add, src1 := some rs1, src2 := some rs2, imm := some imm }

/-- The System builder (46_system_csr.md R170). -/
def systemBuilder (type : ExecType) (rd rs1 : RegIdx) (csr : CsrIdx) : Descriptor :=
  { neutral with type := type, dst := some rd, src1 := some rs1, csr := some csr }

end Sys2Proof.Machine
end

