-- ==== Sys2Proof/Machine/Decoder.lean ====
section
/-! DEFINITION. CORE's `decode(word)` (30_encoding.md R90), from the raw bits to the descriptor, by shift
and mask (R72). The machine's own decoder is `Sys2Proof.decodeWord`; that the two agree is a claim. -/

namespace Sys2Proof.Machine

/-- `w[hi:lo]` as a word (00_scope.md R11, for `lo ≤ hi ≤ 31`). DESIGN CHOICE, log entry 20: with `hi < lo` it is
the bit `lo`, and a bit above 31 is 0. -/
def bits (w : Word) (hi lo : Nat) : Word := (w >>> lo) &&& ((1#32 <<< (hi - lo + 1)) - 1#32)

/-- `signExtend(v, sbit)` in 32-bit wrapping arithmetic (R84, for `sbit < 31`). DESIGN CHOICE, log entry 20: with
`sbit ≥ 31`, where R84 says that the formula is not defined, the shift gives 0 and the result is `v`. -/
def signExtendAt (v : Word) (sbit : Nat) : Word :=
  v + (0xFFFFFFFF#32 <<< (sbit + 1)) * bits v sbit sbit

/-- The I-immediate (R80). -/
def immI (w : Word) : Word := signExtendAt (bits w 31 20) 11

/-- The S-immediate (R81). -/
def immS (w : Word) : Word := signExtendAt (bits w 31 25 <<< 5 ||| bits w 11 7) 11

/-- The B-immediate (R82). -/
def immB (w : Word) : Word :=
  signExtendAt (bits w 31 31 <<< 12 ||| bits w 7 7 <<< 11 ||| bits w 30 25 <<< 5 ||| bits w 11 8 <<< 1) 12

/-- The U-immediate (R83). -/
def immU (w : Word) : Word := w &&& 0xFFFFF000#32

/-- The J-immediate (R85). -/
def immJ (w : Word) : Word :=
  signExtendAt (bits w 31 31 <<< 20 ||| bits w 19 12 <<< 12 ||| bits w 20 20 <<< 11 ||| bits w 30 21 <<< 1) 20

/-- `funct3` to ALU function in the OpImm and Op classes, with `Sr` and, in the Op class, `Add` resolved
by `aluSel` (R93, R94). -/
def aluFuncOf (isOp : Bool) (funct3 : BitVec 3) (aluSel : Bool) : AluFunc :=
  if funct3 = 0b000#3 then (if isOp && aluSel then .sub else .add)
  else if funct3 = 0b001#3 then .sll
  else if funct3 = 0b010#3 then .slt
  else if funct3 = 0b011#3 then .sltu
  else if funct3 = 0b100#3 then .xor
  else if funct3 = 0b101#3 then (if aluSel then .sra else .srl)
  else if funct3 = 0b110#3 then .or
  else .and

/-- `funct3` to branch function; 010 and 011 select none (R95). -/
def brFuncOf (funct3 : BitVec 3) : Option BrFunc :=
  if funct3 = 0b000#3 then some .eq
  else if funct3 = 0b001#3 then some .neq
  else if funct3 = 0b100#3 then some .lt
  else if funct3 = 0b101#3 then some .ge
  else if funct3 = 0b110#3 then some .ltu
  else if funct3 = 0b111#3 then some .geu
  else none

/-- The `type` of a System word (46_system_csr.md R170, 30_encoding.md R97). -/
def systemType (w : Word) : ExecType :=
  if funct3Field w = 0b001#3 ∧ rdField w = 0#5 then .csrw
  else if funct3Field w = 0b010#3 ∧ rs1Field w = 0#5 then .csrr
  else .unsupported

/-- The immediate of an OpImm word: for the right shift, masked to its low five bits (R86, R110). -/
def opImmImm (w : Word) : Word := if funct3Field w = 0b101#3 then immI w &&& 0x1F#32 else immI w

/-- The builder of each opcode class (R89, R90 step 4); MiscMem, Amo and unknown words stay neutral (R91). -/
def builder (c : OpcodeClass) (w : Word) : Descriptor :=
  match c with
  | .opImm => opImmBuilder (aluFuncOf false (funct3Field w) (aluSelBit w)) (rdField w) (rs1Field w) (opImmImm w)
  | .op => opBuilder (aluFuncOf true (funct3Field w) (aluSelBit w)) (rdField w) (rs1Field w) (rs2Field w)
  | .lui => luiBuilder (rdField w) (immU w)
  | .auipc => auipcBuilder (rdField w) (immU w)
  | .jal => jalBuilder (rdField w) (immJ w)
  | .jalr => jalrBuilder (rdField w) (rs1Field w) (immI w)
  | .branch => branchBuilder (brFuncOf (funct3Field w)) (rs1Field w) (rs2Field w) (immB w)
  | .load => loadBuilder (funct3Field w == 0b010#3) (rdField w) (rs1Field w) (immI w)
  | .store => storeBuilder (funct3Field w == 0b010#3) (rs1Field w) (rs2Field w) (immS w)
  | .system => systemBuilder (systemType w) (rdField w) (rs1Field w) (immIField w)
  | .miscMem => neutral
  | .amo => neutral
  | .unknown => neutral

/-- `decode(word)` (R90). -/
def coreDecode (w : Word) : Descriptor := (builder (opcodeClass (opcodeField w)) w).normalizeDst

end Sys2Proof.Machine
end

