-- ==== Sys2Proof/Config.lean ====
section
/-! DEFINITION. What the spec leaves open: the free value UNSPEC32, and the values `State.reset` gives
to the launch parameters of 00_scope.md R10, each a choice of the model named in the assumption log. -/

namespace Sys2Proof

/-- The places where the spec says a 32-bit value is `UNSPEC32` (00_scope.md R15, 48_executor.md R199,
10_state.md R22 and R42 step 6). The last is the model's own: the immediate of a descriptor that has
none and that `decode` cannot produce (log entry 12). -/
inductive UnspecUse where
  | src1Port        -- `src1Val` when `src1` is absent
  | src2Port        -- `src2Val` when `src2` is absent
  | csrPort         -- `csrVal` unless `type` is Csrr
  | noneResult      -- `aluOp(None)`
  | missingOperand  -- the ALU's second operand when `imm` and `src2` are absent
  | missingImm      -- `imm` in a sum, where a hand-made descriptor has none
  deriving DecidableEq, Repr

/-- FREE VALUE. The `UNSPEC32` ENV's instruction at an address supplies for a use: no body, so no proof
can see what it is. No outcome of the machine depends on it (log entry 9). -/
opaque Config.unspec32 : UnspecUse → Word → Word

/-- `RESET_PC` of `State.reset`. DESIGN CHOICE, unsafe (log entry 5). -/
def Config.resetPc : Word := 0

/-- `REGS_INIT[i]`, `1 ≤ i ≤ 31`, of `State.reset`. DESIGN CHOICE, unsafe (log entry 6). -/
def Config.resetReg : Word := 0

/-- `MEM_BASE` of `State.reset`. DESIGN CHOICE, unsafe (log entry 4). -/
def Config.resetMemBase : Nat := 0

/-- `MEM_SIZE` of `State.reset`. DESIGN CHOICE, unsafe (log entry 4). -/
def Config.resetMemSize : Nat := 2 ^ 32

end Sys2Proof
end

