-- ==== Sys2Proof/Machine/Alu.lean ====
section
/-! DEFINITION. The ALU's operations (48_executor.md R195 to R199). No flag, carry or overflow output (R37). -/

namespace Sys2Proof.Machine

/-- The shift amount `b mod 32 = b[4:0]` (R197). -/
def shiftAmount (b : Word) : Nat := b.toNat % 32

/-- A truth value as the 32-bit word 1 or 0 (R198). -/
def boolWord (t : Bool) : Word := if t then 1#32 else 0#32

/-- `aluOp(f)(a, b)`; `free` is the `UNSPEC32` of `aluOp(None)` (R199). -/
def aluOp (f : AluFunc) (free a b : Word) : Word :=
  match f with
  | .add => a + b
  | .sub => a - b
  | .and => a &&& b
  | .or => a ||| b
  | .xor => a ^^^ b
  | .slt => boolWord (decide (a.toInt < b.toInt))
  | .sltu => boolWord (decide (a.toNat < b.toNat))
  | .sll => a <<< shiftAmount b
  | .srl => a >>> shiftAmount b
  | .sra => a.sshiftRight (shiftAmount b)
  | .none => free

end Sys2Proof.Machine
end

