-- ==== Sys2Proof/Machine/Flags.lean ====
section
/-! DEFINITION. The hardware has no flags (10_state.md R37). What stands in their place is the branch
condition, computed inside one instruction and never stored (48_executor.md R203). -/

namespace Sys2Proof.Machine

/-- `taken`, by `brFunc`, on `src1Val` and `src2Val` themselves (R203). -/
def branchTaken (f : BrFunc) (a b : Word) : Bool :=
  match f with
  | .eq => a == b
  | .neq => !(a == b)
  | .lt => decide (a.toInt < b.toInt)
  | .ltu => decide (a.toNat < b.toNat)
  | .ge => !decide (a.toInt < b.toInt)
  | .geu => !decide (a.toNat < b.toNat)
  | .alwaysTaken => true
  | .neverTaken => false

end Sys2Proof.Machine
end

