-- ==== Sys2Proof/Machine/State.lean ====
section
/-! DEFINITION. The state of the reference environment ENV (10_state.md R32 to R41), its fault kinds
(60_exceptions.md R232), the launch state for every launch parameter (R10, R47, R251) and `State.reset`.
CORE has no state (R20). -/

namespace Sys2Proof.Machine

/-- ENV's fault kinds with the values each records, completely (60_exceptions.md R232). Raising one sets
the fault mark (R233); `step` answers `Outcome.fault` only from a state that already has a mark, with
that mark (log entry 2): the run has ended and the state never changes again. -/
inductive Fault where
  /-- Raised by the cycle's step 1 when `pc[1:0] ≠ 0` (R42, R56). Safe: the spec stops here too. -/
  | fetchMisaligned (pc : Word)
  /-- Raised by the cycle's step 2 when the four bytes at `pc` are not admitted (R42, R51). Safe: as the spec. -/
  | fetchAccess (pc : Word)
  /-- Raised by the seven `unsupported…` meanings, the cycle's step 5 (R42, R234). Safe: as the spec. -/
  | unsupportedInstruction (pc word : Word)
  /-- Raised by LW and SW, the cycle's step 8, when `addr[1:0] ≠ 0` (R42, R55). Safe: as the spec. -/
  | dataMisaligned (pc addr : Word)
  /-- Raised by LW and SW, the cycle's step 8, when the address is not admitted (R42, R51). Safe: as the spec. -/
  | dataAccess (pc addr : Word)
  deriving DecidableEq, Repr

/-- Why the model gives no answer. No meaning of this model refuses. -/
inductive Refusal where
  /-- Raised by `exec` for an instruction without a meaning (none is left). Safe: no next state is claimed. -/
  | notModelled (mnemonic : String)
  deriving DecidableEq, Repr

/-- ENV's state. `mem` and `csrs` list only entries other than 0, keys strictly rising
(`Memory.wf`, `CsrFile.wf`); what is not listed reads 0. -/
structure State where
  /-- `x0` to `x31` (R32). Slot 0 is never read nor written: `x0` is hard-wired (R33). -/
  regs : Vector Word 32
  /-- The address of the current instruction (R35). -/
  pc : Word
  /-- The CSR file, by index (R38). -/
  csrs : List (Nat × Word)
  /-- Memory, by byte address (20_memory.md R51). -/
  mem : List Host.Cell
  /-- `MEM_BASE` (00_scope.md R10), a parameter no step changes (log entry 3). -/
  memBase : Nat
  /-- `MEM_SIZE` (00_scope.md R10), a parameter no step changes (log entry 3). -/
  memSize : Nat
  /-- The fault mark (60_exceptions.md R233): absent while running. -/
  faultMark : Option Fault
  deriving DecidableEq, Repr

/-- The launch parameters of 00_scope.md R10. -/
structure Launch where
  /-- `RESET_PC`. -/
  resetPc : Word
  /-- `REGS_INIT`; entry 0 is 0 whatever stands here. -/
  regsInit : Vector Word 32
  /-- `CSR_INIT`, the cells other than 0. -/
  csrInit : List (Nat × Word)
  /-- `IMAGE`, the bytes other than 0. -/
  image : List Host.Cell
  /-- `MEM_BASE`. -/
  memBase : Nat
  /-- `MEM_SIZE`. -/
  memSize : Nat
  deriving DecidableEq, Repr

/-- The launch state (10_state.md R47, 70_reset_and_hazards.md R251): every value from the parameters,
`x0 = 0`, no fault mark. -/
def State.launch (l : Launch) : State where
  regs := l.regsInit.set 0 0
  pc := l.resetPc
  csrs := l.csrInit
  mem := l.image
  memBase := l.memBase
  memSize := l.memSize
  faultMark := none

/-- The launch parameters the model fixes for `State.reset`; the spec leaves every one open
(R47, R252). DESIGN CHOICE, unsafe: log entries 4 to 8. -/
def Launch.reset : Launch where
  resetPc := Config.resetPc
  regsInit := Vector.replicate 32 Config.resetReg
  csrInit := []
  image := []
  memBase := Config.resetMemBase
  memSize := Config.resetMemSize

/-- The machine right after launch, at the parameters of `Launch.reset`. -/
def State.reset : State := State.launch Launch.reset

end Sys2Proof.Machine
end

