-- ==== Sys2Proof/Machine/Ops.lean ====
section
/-! DEFINITION. The named operations over ENV's state: sparse storage, registers, CSRs, memory, the
program counter, and raising a fault. There is no return from a fault (60_exceptions.md R239). -/

namespace Sys2Proof.Machine

/-! ## Sparse storage: cells of `w` bits by number, 0 where nothing is listed -/

/-- The value at `a`. -/
def Cells.get {w : Nat} : List (Nat × BitVec w) → Nat → BitVec w
  | [], _ => 0#w
  | (k, v) :: rest, a => if k = a then v else Cells.get rest a

/-- The cells with `v` at `a`; keeps the canonical form `Cells.wf`. -/
def Cells.set {w : Nat} : List (Nat × BitVec w) → Nat → BitVec w → List (Nat × BitVec w)
  | [], a, v => if v = 0#w then [] else [(a, v)]
  | (k, u) :: rest, a, v =>
    if a < k then (if v = 0#w then (k, u) :: rest else (a, v) :: (k, u) :: rest)
    else if a = k then (if v = 0#w then rest else (a, v) :: rest)
    else (k, u) :: Cells.set rest a v

/-- The canonical form: numbers strictly rising and below `bound`, no listed 0. -/
abbrev Cells.wf {w : Nat} (bound : Nat) (l : List (Nat × BitVec w)) : Prop :=
  l.Pairwise (fun p q => p.1 < q.1) ∧ ∀ p ∈ l, p.1 < bound ∧ p.2 ≠ 0#w

/-- The canonical form of memory: 32-bit byte addresses (20_memory.md R51). What an unlisted address
reads as is 0x00: `IMAGE` is open (R47); DESIGN CHOICE, unsafe, log entry 8. -/
abbrev Memory.wf (m : List Host.Cell) : Prop := Cells.wf (2 ^ 32) m

/-- The canonical form of the CSR file: 12-bit indices (10_state.md R38). An unlisted CSR reads 0:
`CSR_INIT` is open (R47); DESIGN CHOICE, unsafe, log entry 7. -/
abbrev CsrFile.wf (c : List (Nat × Word)) : Prop := Cells.wf (2 ^ 12) c

/-! ## Registers (10_state.md R32, R33) -/

/-- `x[r]`: register 0 reads 0 always (R33). -/
def State.readReg (s : State) (r : RegIdx) : Word :=
  if r = 0#5 then 0#32 else s.regs[r.toNat]'r.isLt

/-- `x[r] <- v`: a write to register 0 is suppressed (R33). -/
def State.writeReg (s : State) (r : RegIdx) (v : Word) : State :=
  if r = 0#5 then s else { s with regs := s.regs.set r.toNat v r.isLt }

/-! ## CSRs (10_state.md R38): plain storage, every index the same -/

/-- `csr[c]`. -/
def State.readCsr (s : State) (c : CsrIdx) : Word := Cells.get s.csrs c.toNat

/-- `csr[c] <- v`, all 32 bits. -/
def State.writeCsr (s : State) (c : CsrIdx) (v : Word) : State :=
  { s with csrs := Cells.set s.csrs c.toNat v }

/-! ## Memory (20_memory.md R51 to R53) -/

/-- `Admitted(addr, n)` (R51): inside `[MEM_BASE, MEM_BASE + MEM_SIZE)`, computed without wrap-around. -/
def State.admitted (s : State) (addr : Word) (n : Nat) : Bool :=
  decide (s.memBase ≤ addr.toNat) && decide (addr.toNat + n ≤ s.memBase + s.memSize)

/-- `addr[1:0] = 0` (R55, R56). -/
def aligned (addr : Word) : Bool := addr.extractLsb' 0 2 == 0#2

/-- The address `k` bytes above `addr`. DESIGN CHOICE, log entry 11: it wraps modulo 2^32. It passes the top of
the address space only in an access that is not admitted, and no step makes one. -/
def byteAddr (addr : Word) (k : Nat) : Word := addr + BitVec.ofNat 32 k

/-- The byte at an address. -/
def State.readByte (s : State) (addr : Word) : Byte := Cells.get s.mem addr.toNat

/-- Store one byte. -/
def State.writeByte (s : State) (addr : Word) (b : Byte) : State :=
  { s with mem := Cells.set s.mem addr.toNat b }

/-- `MemRead(addr, 4)` (R52): the byte at the lowest address is bits 7:0. -/
def State.memRead (s : State) (addr : Word) : Word :=
  wordOfBytes (s.readByte addr) (s.readByte (byteAddr addr 1)) (s.readByte (byteAddr addr 2))
    (s.readByte (byteAddr addr 3))

/-- `MemWrite(addr, 4, v)` (R53): bits 7:0 go to the lowest address. -/
def State.memWrite (s : State) (addr : Word) (v : Word) : State :=
  (((s.writeByte addr (byteOf v 0)).writeByte (byteAddr addr 1) (byteOf v 1)).writeByte
    (byteAddr addr 2) (byteOf v 2)).writeByte (byteAddr addr 3) (byteOf v 3)

/-! ## The program counter and faults -/

/-- `pc <- t` (R35). -/
def State.setPc (s : State) (t : Word) : State := { s with pc := t }

/-- `raise Fault(kind, values)` (60_exceptions.md R233): the fault mark is set; registers, `pc`, CSR file
and memory keep their values; nothing is saved, vectored or changed in mode. -/
def State.raise (s : State) (f : Fault) : State := { s with faultMark := some f }

end Sys2Proof.Machine
end

