-- ==== Sys2Proof/Machine/Operands.lean ====
section
/-! DEFINITION. The operands of an instruction: the value ports ENV fills (10_state.md R22, R31, R42 step
6) and the ALU's second operand (48_executor.md R194). -/

namespace Sys2Proof.Machine

/-- The value ports of `execute` (R22). -/
structure Ports where
  src1Val : Word
  src2Val : Word
  csrVal : Word
  deriving DecidableEq, Repr

/-- The register a selector names, or `UNSPEC32` when it is absent (R42 step 6). -/
def readSource (s : State) (free : Word) (sel : Option RegIdx) : Word :=
  match sel with
  | some r => s.readReg r
  | none => free

/-- `csrVal`: the addressed CSR for type Csrr only (R42 step 6, conflict C9), else `UNSPEC32`. -/
def readCsrPort (s : State) (free : Word) (type : ExecType) (sel : Option CsrIdx) : Word :=
  match type, sel with
  | .csrr, some c => s.readCsr c
  | _, _ => free

/-- The ports ENV presents for a descriptor (R42 step 6); every read sees the state before the
instruction (R43). -/
def readPorts (u : UnspecUse → Word) (d : Descriptor) (s : State) : Ports where
  src1Val := readSource s (u .src1Port) d.src1
  src2Val := readSource s (u .src2Port) d.src2
  csrVal := readCsrPort s (u .csrPort) d.type d.csr

/-- The ALU's second operand: the immediate when present, else `src2Val` when `src2` is present, else
`UNSPEC32` (R194). -/
def secondOperand (u : UnspecUse → Word) (d : Descriptor) (p : Ports) : Word :=
  match d.imm, d.src2 with
  | some i, _ => i
  | none, some _ => p.src2Val
  | none, none => u .missingOperand

end Sys2Proof.Machine
end

