-- ==== Sys2Proof/Machine/Executor.lean ====
section
/-! DEFINITION. CORE's `execute` (48_executor.md R193 to R207): the ALU stage, the result override, the
branch condition and the next address, for every descriptor and every value of the ports. `u` gives the
`UNSPEC32` values, an argument, so that a claim about `execute` holds for all of them. -/

namespace Sys2Proof.Machine

/-- The outputs of `execute` (10_state.md R24); the decode fields pass through unchanged (R193). -/
structure Executed where
  addr : Option Word
  data : Word
  nextIp : Word
  deriving DecidableEq, Repr

/-- `res` of the ALU stage: 0 when `src1` is absent (R194). -/
def aluResult (u : UnspecUse → Word) (d : Descriptor) (p : Ports) : Word :=
  match d.src1 with
  | some _ => aluOp d.aluFunc (u .noneResult) p.src1Val (secondOperand u d p)
  | none => 0#32

/-- `addr` of the ALU stage: `res` for Ld and St, absent for every other type (R194). DESIGN CHOICE, log entry
19: absent too for a hand-made Ld or St descriptor without `src1`, whose `addr` R194 assigns on no branch and
which `decode` cannot produce (R193). -/
def effectiveAddr (d : Descriptor) (res : Word) : Option Word :=
  match d.src1, d.type with
  | some _, .ld => some res
  | some _, .st => some res
  | _, _ => none

/-- The immediate in a sum; absent only in a descriptor `decode` cannot produce (R193, log entry 12). -/
def immOrFree (u : UnspecUse → Word) (d : Descriptor) : Word := d.imm.getD (u .missingImm)

/-- `data`, the result override by `type` (R201, R202). -/
def resultData (u : UnspecUse → Word) (d : Descriptor) (ip : Word) (p : Ports) (res : Word) : Word :=
  match d.type with
  | .csrr => p.csrVal
  | .csrw => p.src1Val
  | .st => p.src2Val
  | .j => ip + 4#32
  | .jr => ip + 4#32
  | .auipc => ip + immOrFree u d
  | .alu => res
  | .ld => res
  | .br => res
  | .unsupported => res

/-- The address override by `type`; only J, Br and Jr have one (R205). -/
def addressOverride (u : UnspecUse → Word) (d : Descriptor) (ip : Word) (p : Ports) : Option Word :=
  match d.type with
  | .j => some (ip + immOrFree u d)
  | .br => some (ip + immOrFree u d)
  | .jr => some (p.src1Val + immOrFree u d)
  | .alu => none
  | .auipc => none
  | .ld => none
  | .st => none
  | .csrr => none
  | .csrw => none
  | .unsupported => none

/-- `nextIp` (R205): the condition is evaluated for every type (R204). -/
def nextAddress (u : UnspecUse → Word) (d : Descriptor) (ip : Word) (p : Ports) : Word :=
  match branchTaken d.brFunc p.src1Val p.src2Val, addressOverride u d ip p with
  | true, some t => t
  | _, _ => ip + 4#32

/-- `execute(d, ip, src1Val, src2Val, csrVal)` (R193). -/
def execute (u : UnspecUse → Word) (d : Descriptor) (ip : Word) (p : Ports) : Executed where
  addr := effectiveAddr d (aluResult u d p)
  data := resultData u d ip p (aluResult u d p)
  nextIp := nextAddress u d ip p

end Sys2Proof.Machine
end

