-- ==== Sys2Proof/Machine/Cycle.lean ====
section
/-! DEFINITION. ENV's instruction cycle (10_state.md R42): the part every executing instruction shares
(steps 6 to 13, `runDescriptor`), the fault of an `Unsupported` word (step 5), and the whole cycle over
CORE's `decode` (`instructionCycle`), which `step` is claimed to equal. -/

namespace Sys2Proof.Machine

/-- Step 8: the fault of a data access; `addr` is present exactly for Ld and St (R24, R55, R51). -/
def dataFault (e : Executed) (s : State) : Option Fault :=
  match e.addr with
  | some a =>
    if !aligned a then some (.dataMisaligned s.pc a)
    else if !s.admitted a 4 then some (.dataAccess s.pc a)
    else none
  | none => none

/-- Step 9: the word written back, for a load the word read from memory (R44). -/
def writeBackValue (d : Descriptor) (e : Executed) (s : State) : Word :=
  match d.type, e.addr with
  | .ld, some a => s.memRead a
  | _, _ => e.data

/-- Step 10: the store. -/
def storeStep (d : Descriptor) (e : Executed) (s : State) : State :=
  match d.type, e.addr with
  | .st, some a => s.memWrite a e.data
  | _, _ => s

/-- Step 11: the CSR write. -/
def csrStep (d : Descriptor) (e : Executed) (s : State) : State :=
  match d.type, d.csr with
  | .csrw, some c => s.writeCsr c e.data
  | _, _ => s

/-- Step 12: the register write-back. -/
def dstStep (d : Descriptor) (wb : Word) (s : State) : State :=
  match d.dst with
  | some r => s.writeReg r wb
  | none => s

/-- Steps 9 to 13. -/
def retire (d : Descriptor) (e : Executed) (s : State) : State :=
  (dstStep d (writeBackValue d e s) (csrStep d e (storeStep d e s))).setPc e.nextIp

/-- Steps 6 to 13 for a descriptor with an execution meaning; a data fault changes nothing but the
fault mark. -/
def runDescriptor (u : UnspecUse → Word) (d : Descriptor) (s : State) : Host.Outcome State Fault Refusal :=
  match dataFault (execute u d s.pc (readPorts u d s)) s with
  | some f => .next (s.raise f)
  | none => .next (retire d (execute u d s.pc (readPorts u d s)) s)

/-- The meaning of an instruction whose builder gives `d`: normalise the destination (R92), then steps 6
to 13 with the free values of this address. -/
def execBuilt (d : Descriptor) (s : State) : Host.Outcome State Fault Refusal :=
  runDescriptor (fun use => Config.unspec32 use s.pc) d.normalizeDst s

/-- Step 5: an `Unsupported` word is fatal (60_exceptions.md R234): the fault mark is set before any
register is read, nothing else changes and `pc` does not advance. -/
def execUnsupported (word : Word) (s : State) : Host.Outcome State Fault Refusal :=
  .next (s.raise (.unsupportedInstruction s.pc word))

/-- ENV's whole step, as rule R42 writes it, over CORE's `decode`; from a state with a fault mark no step
is possible (R233). -/
def instructionCycle (u : UnspecUse → Word) (s : State) : Host.Outcome State Fault Refusal :=
  match s.faultMark with
  | some f => .fault f
  | none =>
    if !aligned s.pc then .next (s.raise (.fetchMisaligned s.pc))
    else if !s.admitted s.pc 4 then .next (s.raise (.fetchAccess s.pc))
    else if (coreDecode (s.memRead s.pc)).type = .unsupported then
      .next (s.raise (.unsupportedInstruction s.pc (s.memRead s.pc)))
    else runDescriptor u (coreDecode (s.memRead s.pc)) s

end Sys2Proof.Machine
end

