-- ==== Sys2Proof/Machine/Branch.lean ====
section
/-! DEFINITION. The Branch class (44_branch.md R150 to R157): `pc <- pc + imm` when taken, else `pc + 4`; nothing
else changes (R151, R159). -/

namespace Sys2Proof.Machine

/-- BEQ (R152): taken when `x[rs1] = x[rs2]`. -/
def execBeq (rs1 rs2 : RegIdx) (offset : BitVec 13) (s : State) : Host.Outcome State Fault Refusal :=
  execBuilt (branchBuilder (some .eq) rs1 rs2 (offset.signExtend 32)) s

/-- BNE (R153): taken when `x[rs1] ≠ x[rs2]`. -/
def execBne (rs1 rs2 : RegIdx) (offset : BitVec 13) (s : State) : Host.Outcome State Fault Refusal :=
  execBuilt (branchBuilder (some .neq) rs1 rs2 (offset.signExtend 32)) s

/-- BLT (R154): taken when `x[rs1] <s x[rs2]`. -/
def execBlt (rs1 rs2 : RegIdx) (offset : BitVec 13) (s : State) : Host.Outcome State Fault Refusal :=
  execBuilt (branchBuilder (some .lt) rs1 rs2 (offset.signExtend 32)) s

/-- BGE (R155): taken when `not x[rs1] <s x[rs2]`. -/
def execBge (rs1 rs2 : RegIdx) (offset : BitVec 13) (s : State) : Host.Outcome State Fault Refusal :=
  execBuilt (branchBuilder (some .ge) rs1 rs2 (offset.signExtend 32)) s

/-- BLTU (R156): taken when `x[rs1] <u x[rs2]`. -/
def execBltu (rs1 rs2 : RegIdx) (offset : BitVec 13) (s : State) : Host.Outcome State Fault Refusal :=
  execBuilt (branchBuilder (some .ltu) rs1 rs2 (offset.signExtend 32)) s

/-- BGEU (R157): taken when `not x[rs1] <u x[rs2]`. -/
def execBgeu (rs1 rs2 : RegIdx) (offset : BitVec 13) (s : State) : Host.Outcome State Fault Refusal :=
  execBuilt (branchBuilder (some .geu) rs1 rs2 (offset.signExtend 32)) s

end Sys2Proof.Machine
end

