-- ==== Sys2Proof/Machine/Jumps.lean ====
section
/-! DEFINITION. The Jal and Jalr classes, jumps with link (43_jumps.md R145 to R149). No delay slot, no check of
the target; a target that is not a multiple of 4 faults at the next fetch (20_memory.md R56). -/

namespace Sys2Proof.Machine

/-- JAL (R146): `x[rd] <- pc + 4; pc <- pc + imm`. -/
def execJal (rd : RegIdx) (offset : BitVec 21) (s : State) : Host.Outcome State Fault Refusal :=
  execBuilt (jalBuilder rd (offset.signExtend 32)) s

/-- JALR (R148): `t <- x[rs1] + imm; x[rd] <- pc + 4; pc <- t`, bit 0 of the target kept. -/
def execJalr (rd rs1 : RegIdx) (imm : BitVec 12) (s : State) : Host.Outcome State Fault Refusal :=
  execBuilt (jalrBuilder rd rs1 (imm.signExtend 32)) s

end Sys2Proof.Machine
end

