-- ==== Sys2Proof/Machine/LoadStore.lean ====
section
/-! DEFINITION. The Load and Store classes (45_load_store.md R160 to R165): one aligned word at `x[rs1] + imm`; a
misaligned address, then one that is not admitted, faults before anything is read or written (R42 step 8). -/

namespace Sys2Proof.Machine

/-- LW (R162): `x[rd] <- MemRead(x[rs1] + imm, 4)`; with `rd = 0` the access and its faults still happen (R101). -/
def execLw (rd rs1 : RegIdx) (imm : BitVec 12) (s : State) : Host.Outcome State Fault Refusal :=
  execBuilt (loadBuilder true rd rs1 (imm.signExtend 32)) s

/-- SW (R165): `MemWrite(x[rs1] + imm, 4, x[rs2])`. -/
def execSw (rs1 rs2 : RegIdx) (imm : BitVec 12) (s : State) : Host.Outcome State Fault Refusal :=
  execBuilt (storeBuilder true rs1 rs2 (imm.signExtend 32)) s

end Sys2Proof.Machine
end

