-- ==== Sys2Proof/Machine/Op.lean ====
section
/-! DEFINITION. The Op class, register-register arithmetic (41_op.md R125 to R138). RV32M words are these
instructions too (R127). `pc` moves on by 4; with `rd = 0` no register is written (R126). -/

namespace Sys2Proof.Machine

/-- ADD (R128): `x[rd] <- x[rs1] + x[rs2]`. -/
def execAdd (rd rs1 rs2 : RegIdx) (s : State) : Host.Outcome State Fault Refusal :=
  execBuilt (opBuilder .add rd rs1 rs2) s

/-- SUB (R129): `x[rd] <- x[rs1] - x[rs2]`. -/
def execSub (rd rs1 rs2 : RegIdx) (s : State) : Host.Outcome State Fault Refusal :=
  execBuilt (opBuilder .sub rd rs1 rs2) s

/-- SLL (R130): `x[rd] <- x[rs1] << x[rs2][4:0]`. -/
def execSll (rd rs1 rs2 : RegIdx) (s : State) : Host.Outcome State Fault Refusal :=
  execBuilt (opBuilder .sll rd rs1 rs2) s

/-- SLT (R131): `x[rd] <- 1 if x[rs1] <s x[rs2], else 0`. -/
def execSlt (rd rs1 rs2 : RegIdx) (s : State) : Host.Outcome State Fault Refusal :=
  execBuilt (opBuilder .slt rd rs1 rs2) s

/-- SLTU (R132): `x[rd] <- 1 if x[rs1] <u x[rs2], else 0`. -/
def execSltu (rd rs1 rs2 : RegIdx) (s : State) : Host.Outcome State Fault Refusal :=
  execBuilt (opBuilder .sltu rd rs1 rs2) s

/-- XOR (R133): `x[rd] <- x[rs1] ^ x[rs2]`. -/
def execXor (rd rs1 rs2 : RegIdx) (s : State) : Host.Outcome State Fault Refusal :=
  execBuilt (opBuilder .xor rd rs1 rs2) s

/-- SRL (R134): `x[rd] <- x[rs1] >>u x[rs2][4:0]`. -/
def execSrl (rd rs1 rs2 : RegIdx) (s : State) : Host.Outcome State Fault Refusal :=
  execBuilt (opBuilder .srl rd rs1 rs2) s

/-- SRA (R135): `x[rd] <- x[rs1] >>s x[rs2][4:0]`. -/
def execSra (rd rs1 rs2 : RegIdx) (s : State) : Host.Outcome State Fault Refusal :=
  execBuilt (opBuilder .sra rd rs1 rs2) s

/-- OR (R136): `x[rd] <- x[rs1] | x[rs2]`. -/
def execOr (rd rs1 rs2 : RegIdx) (s : State) : Host.Outcome State Fault Refusal :=
  execBuilt (opBuilder .or rd rs1 rs2) s

/-- AND (R137): `x[rd] <- x[rs1] & x[rs2]`. -/
def execAnd (rd rs1 rs2 : RegIdx) (s : State) : Host.Outcome State Fault Refusal :=
  execBuilt (opBuilder .and rd rs1 rs2) s

end Sys2Proof.Machine
end

