-- ==== Sys2Proof/Machine/OpImm.lean ====
section
/-! DEFINITION. The OpImm class, register-immediate arithmetic (40_opimm.md R110 to R121). `pc` moves on by 4; with
`rd = 0` no register is written (R111). -/

namespace Sys2Proof.Machine

/-- ADDI (R112): `x[rd] <- x[rs1] + imm`. -/
def execAddi (rd rs1 : RegIdx) (imm : BitVec 12) (s : State) : Host.Outcome State Fault Refusal :=
  execBuilt (opImmBuilder .add rd rs1 (imm.signExtend 32)) s

/-- SLTI (R113): `x[rd] <- 1` if `x[rs1] <s imm`, else 0. -/
def execSlti (rd rs1 : RegIdx) (imm : BitVec 12) (s : State) : Host.Outcome State Fault Refusal :=
  execBuilt (opImmBuilder .slt rd rs1 (imm.signExtend 32)) s

/-- SLTIU (R114): `x[rd] <- 1` if `x[rs1] <u imm`, else 0; the immediate is sign-extended first. -/
def execSltiu (rd rs1 : RegIdx) (imm : BitVec 12) (s : State) : Host.Outcome State Fault Refusal :=
  execBuilt (opImmBuilder .sltu rd rs1 (imm.signExtend 32)) s

/-- XORI (R115): `x[rd] <- x[rs1] ^ imm`. -/
def execXori (rd rs1 : RegIdx) (imm : BitVec 12) (s : State) : Host.Outcome State Fault Refusal :=
  execBuilt (opImmBuilder .xor rd rs1 (imm.signExtend 32)) s

/-- ORI (R116): `x[rd] <- x[rs1] | imm`. -/
def execOri (rd rs1 : RegIdx) (imm : BitVec 12) (s : State) : Host.Outcome State Fault Refusal :=
  execBuilt (opImmBuilder .or rd rs1 (imm.signExtend 32)) s

/-- ANDI (R117): `x[rd] <- x[rs1] & imm`. -/
def execAndi (rd rs1 : RegIdx) (imm : BitVec 12) (s : State) : Host.Outcome State Fault Refusal :=
  execBuilt (opImmBuilder .and rd rs1 (imm.signExtend 32)) s

/-- SLLI (R118): `x[rd] <- x[rs1] << imm[4:0]`; the immediate is not masked by `decode`. -/
def execSlli (rd rs1 : RegIdx) (imm : BitVec 12) (s : State) : Host.Outcome State Fault Refusal :=
  execBuilt (opImmBuilder .sll rd rs1 (imm.signExtend 32)) s

/-- SRLI (R119): `x[rd] <- x[rs1] >>u shamt`; the immediate is the five-bit amount (R86). -/
def execSrli (rd rs1 : RegIdx) (shamt : BitVec 5) (s : State) : Host.Outcome State Fault Refusal :=
  execBuilt (opImmBuilder .srl rd rs1 (shamt.zeroExtend 32)) s

/-- SRAI (R120): `x[rd] <- x[rs1] >>s shamt`; the immediate is the five-bit amount (R86). -/
def execSrai (rd rs1 : RegIdx) (shamt : BitVec 5) (s : State) : Host.Outcome State Fault Refusal :=
  execBuilt (opImmBuilder .sra rd rs1 (shamt.zeroExtend 32)) s

end Sys2Proof.Machine
end

