-- ==== Sys2Proof/Machine/System.lean ====
section
/-! DEFINITION. The System class (46_system_csr.md R170 to R174): a pure CSR write and a pure CSR read; no index
faults, none is read-only, none has a side effect. -/

namespace Sys2Proof.Machine

/-- CSRW (R171): `csr[c] <- x[rs1]`; no register is written. -/
def execCsrw (csr : CsrIdx) (rs1 : RegIdx) (s : State) : Host.Outcome State Fault Refusal :=
  execBuilt (systemBuilder .csrw 0#5 rs1 csr) s

/-- CSRR (R172): `x[rd] <- csr[c]`; the CSR is not written. -/
def execCsrr (rd : RegIdx) (csr : CsrIdx) (s : State) : Host.Outcome State Fault Refusal :=
  execBuilt (systemBuilder .csrr rd 0#5 csr) s

end Sys2Proof.Machine
end

