-- ==== Sys2Proof/Machine/Unsupported.lean ====
section
/-! DEFINITION. The words `decode` gives type `Unsupported` (30_encoding.md R100). ENV treats each as fatal: the
fault mark records `pc` and the word, and nothing else changes (60_exceptions.md R234). -/

namespace Sys2Proof.Machine

/-- UNSUPPORTED.BRANCH (44_branch.md R158): a Branch word with `funct3` 010 or 011. -/
def execUnsupportedBranch (word : Word) (s : State) : Host.Outcome State Fault Refusal :=
  execUnsupported word s

/-- UNSUPPORTED.LOAD (45_load_store.md R161): a Load word of another width. -/
def execUnsupportedLoad (word : Word) (s : State) : Host.Outcome State Fault Refusal :=
  execUnsupported word s

/-- UNSUPPORTED.STORE (45_load_store.md R164): a Store word of another width. -/
def execUnsupportedStore (word : Word) (s : State) : Host.Outcome State Fault Refusal :=
  execUnsupported word s

/-- UNSUPPORTED.SYSTEM (46_system_csr.md R173): a System word that is neither CSRW nor CSRR. -/
def execUnsupportedSystem (word : Word) (s : State) : Host.Outcome State Fault Refusal :=
  execUnsupported word s

/-- UNSUPPORTED.MISCMEM (47_unsupported.md R181): a MiscMem word; it is no no-operation. -/
def execUnsupportedMiscMem (word : Word) (s : State) : Host.Outcome State Fault Refusal :=
  execUnsupported word s

/-- UNSUPPORTED.AMO (47_unsupported.md R182): an Amo word. -/
def execUnsupportedAmo (word : Word) (s : State) : Host.Outcome State Fault Refusal :=
  execUnsupported word s

/-- UNSUPPORTED.UNKNOWN (47_unsupported.md R183): a word of no opcode class. -/
def execUnsupportedUnknown (word : Word) (s : State) : Host.Outcome State Fault Refusal :=
  execUnsupported word s

end Sys2Proof.Machine
end

