-- ==== Sys2Proof/Machine/Upper.lean ====
section
/-! DEFINITION. The Lui and Auipc classes (42_upper_immediate.md R140 to R143). -/

namespace Sys2Proof.Machine

/-- The U-immediate: the 20-bit field in bits 31:12, zeros below (30_encoding.md R83). -/
def upperImm (imm20 : BitVec 20) : Word := imm20 ++ 0#12

/-- LUI (R141): `x[rd] <- x[0] + imm`, that is the immediate, since `x[0] = 0`. -/
def execLui (rd : RegIdx) (imm20 : BitVec 20) (s : State) : Host.Outcome State Fault Refusal :=
  execBuilt (luiBuilder rd (upperImm imm20)) s

/-- AUIPC (R143): `x[rd] <- pc + imm`, `pc` being the address of the AUIPC itself. -/
def execAuipc (rd : RegIdx) (imm20 : BitVec 20) (s : State) : Host.Outcome State Fault Refusal :=
  execBuilt (auipcBuilder rd (upperImm imm20)) s

end Sys2Proof.Machine
end

