-- ==== Sys2Proof/Machine/Step.lean ====
section
/-! DEFINITION. One step of ENV (10_state.md R42): fetch checks, fetch, decode, and the instruction's
meaning; from a state with a fault mark no step is possible (60_exceptions.md R233). -/

namespace Sys2Proof.Machine

/-- One step. -/
def step (s : State) : Host.Outcome State Fault Refusal :=
  match s.faultMark with
  | some f => .fault f
  | none =>
    if !aligned s.pc then .next (s.raise (.fetchMisaligned s.pc))
    else if !s.admitted s.pc 4 then .next (s.raise (.fetchAccess s.pc))
    else exec (decodeWord (s.memRead s.pc)) s

/-- The state with an instruction's word, its bits above `nbits` being 0, stored at `pc`, where `step`
fetches. It stands for the load of `IMAGE` before a run (log entry 13); a state that can fetch (running,
`pc` aligned and admitted) then runs exactly that instruction. -/
def State.withFetchWord (s : State) (nbits w : Nat) : State :=
  s.memWrite s.pc (BitVec.ofNat 32 (w % 2 ^ nbits))

end Sys2Proof.Machine
end

