-- ==== Sys2Proof/Machine/Assembly.lean ====
section
/-! DEFINITION. Names and notation the hardware never sees: register aliases (10_state.md R34), the
assembler syntax of the instructions (30_encoding.md R103) and the pseudo-instructions with their
expansions (R104). -/

namespace Sys2Proof.Machine

/-- `x0` to `x31`. -/
def regName (r : RegIdx) : String := "x" ++ toString r.toNat

/-- The ABI alias of a register (R34); `x8` is also `fp`. -/
def abiName (r : RegIdx) : String :=
  (["zero", "ra", "sp", "gp", "tp", "t0", "t1", "t2", "s0", "s1", "a0", "a1", "a2", "a3", "a4", "a5"] ++
   ["a6", "a7", "s2", "s3", "s4", "s5", "s6", "s7", "s8", "s9", "s10", "s11", "t3", "t4", "t5", "t6"]).getD r.toNat ""

/-- `op rd, rs1, rs2`, and the same shape with other operands. -/
def asm3 (op a b c : String) : String := op ++ " " ++ a ++ ", " ++ b ++ ", " ++ c

/-- `op a, b`. -/
def asm2 (op a b : String) : String := op ++ " " ++ a ++ ", " ++ b

/-- The assembler line of an instruction, immediates in decimal (R103, log entry 17). Absent where the
syntax has no form: an `Unsupported` word, and an SLLI whose `word[31:25]` is not 0. -/
def assembly : Instr → Option String
  | .addi rd rs1 imm => some (asm3 "addi" (regName rd) (regName rs1) (toString imm.toInt))
  | .slti rd rs1 imm => some (asm3 "slti" (regName rd) (regName rs1) (toString imm.toInt))
  | .sltiu rd rs1 imm => some (asm3 "sltiu" (regName rd) (regName rs1) (toString imm.toInt))
  | .xori rd rs1 imm => some (asm3 "xori" (regName rd) (regName rs1) (toString imm.toInt))
  | .ori rd rs1 imm => some (asm3 "ori" (regName rd) (regName rs1) (toString imm.toInt))
  | .andi rd rs1 imm => some (asm3 "andi" (regName rd) (regName rs1) (toString imm.toInt))
  | .slli rd rs1 imm =>
    if imm.toNat < 32 then some (asm3 "slli" (regName rd) (regName rs1) (toString imm.toNat)) else none
  | .srli rd rs1 shamt => some (asm3 "srli" (regName rd) (regName rs1) (toString shamt.toNat))
  | .srai rd rs1 shamt => some (asm3 "srai" (regName rd) (regName rs1) (toString shamt.toNat))
  | .add rd rs1 rs2 => some (asm3 "add" (regName rd) (regName rs1) (regName rs2))
  | .sub rd rs1 rs2 => some (asm3 "sub" (regName rd) (regName rs1) (regName rs2))
  | .sll rd rs1 rs2 => some (asm3 "sll" (regName rd) (regName rs1) (regName rs2))
  | .slt rd rs1 rs2 => some (asm3 "slt" (regName rd) (regName rs1) (regName rs2))
  | .sltu rd rs1 rs2 => some (asm3 "sltu" (regName rd) (regName rs1) (regName rs2))
  | .xor rd rs1 rs2 => some (asm3 "xor" (regName rd) (regName rs1) (regName rs2))
  | .srl rd rs1 rs2 => some (asm3 "srl" (regName rd) (regName rs1) (regName rs2))
  | .sra rd rs1 rs2 => some (asm3 "sra" (regName rd) (regName rs1) (regName rs2))
  | .or rd rs1 rs2 => some (asm3 "or" (regName rd) (regName rs1) (regName rs2))
  | .and rd rs1 rs2 => some (asm3 "and" (regName rd) (regName rs1) (regName rs2))
  | .lui rd imm20 => some (asm2 "lui" (regName rd) (toString imm20.toNat))
  | .auipc rd imm20 => some (asm2 "auipc" (regName rd) (toString imm20.toNat))
  | .jal rd offset => some (asm2 "jal" (regName rd) (toString offset.toInt))
  | .jalr rd rs1 imm => some (asm3 "jalr" (regName rd) (regName rs1) (toString imm.toInt))
  | .beq rs1 rs2 offset => some (asm3 "beq" (regName rs1) (regName rs2) (toString offset.toInt))
  | .bne rs1 rs2 offset => some (asm3 "bne" (regName rs1) (regName rs2) (toString offset.toInt))
  | .blt rs1 rs2 offset => some (asm3 "blt" (regName rs1) (regName rs2) (toString offset.toInt))
  | .bge rs1 rs2 offset => some (asm3 "bge" (regName rs1) (regName rs2) (toString offset.toInt))
  | .bltu rs1 rs2 offset => some (asm3 "bltu" (regName rs1) (regName rs2) (toString offset.toInt))
  | .bgeu rs1 rs2 offset => some (asm3 "bgeu" (regName rs1) (regName rs2) (toString offset.toInt))
  | .lw rd rs1 imm => some (asm2 "lw" (regName rd) (toString imm.toInt ++ "(" ++ regName rs1 ++ ")"))
  | .sw rs1 rs2 imm => some (asm2 "sw" (regName rs2) (toString imm.toInt ++ "(" ++ regName rs1 ++ ")"))
  | .csrw csr rs1 => some (asm2 "csrw" (toString csr.toNat) (regName rs1))
  | .csrr rd csr => some (asm2 "csrr" (regName rd) (toString csr.toNat))
  | .unsupportedBranch _ | .unsupportedLoad _ | .unsupportedStore _ | .unsupportedSystem _ => none
  | .unsupportedMiscMem _ | .unsupportedAmo _ | .unsupportedUnknown _ => none

/-- The pseudo-instructions that expand into supported instructions (R104). -/
inductive Pseudo where
  | nop
  | mv (rd rs : RegIdx)
  | li (rd : RegIdx) (imm : BitVec 12)
  | liWide (rd : RegIdx) (imm : Word)
  | not (rd rs : RegIdx)
  | neg (rd rs : RegIdx)
  | seqz (rd rs : RegIdx)
  | snez (rd rs : RegIdx)
  | sltz (rd rs : RegIdx)
  | sgtz (rd rs : RegIdx)
  | beqz (rs : RegIdx) (off : BitVec 13)
  | bnez (rs : RegIdx) (off : BitVec 13)
  | blez (rs : RegIdx) (off : BitVec 13)
  | bgez (rs : RegIdx) (off : BitVec 13)
  | bltz (rs : RegIdx) (off : BitVec 13)
  | bgtz (rs : RegIdx) (off : BitVec 13)
  | bgt (rs rt : RegIdx) (off : BitVec 13)
  | ble (rs rt : RegIdx) (off : BitVec 13)
  | bgtu (rs rt : RegIdx) (off : BitVec 13)
  | bleu (rs rt : RegIdx) (off : BitVec 13)
  | j (off : BitVec 21)
  | jalRa (off : BitVec 21)
  | jr (rs : RegIdx)
  | jalrRa (rs : RegIdx)
  | ret
  | call (off : Word)
  | tail (off : Word)
  | csrr (rd : RegIdx) (csr : CsrIdx)
  | csrw (csr : CsrIdx) (rs : RegIdx)
  deriving DecidableEq, Repr

/-- `lo12 = sext_12(imm[11:0])`, as the 12-bit field (R104). -/
def lo12 (imm : Word) : BitVec 12 := imm.extractLsb' 0 12

/-- `hi20 = ((imm - lo12) >> 12) & 0xFFFFF` (R104). -/
def hi20 (imm : Word) : BitVec 20 := ((imm - (lo12 imm).signExtend 32) >>> 12).extractLsb' 0 20

/-- The expansion of a pseudo-instruction (R104). -/
def Pseudo.expand : Pseudo → List Instr
  | .nop => [.addi 0 0 0]
  | .mv rd rs => [.addi rd rs 0]
  | .li rd imm => [.addi rd 0 imm]
  | .liWide rd imm => [.lui rd (hi20 imm), .addi rd rd (lo12 imm)]
  | .not rd rs => [.xori rd rs (-1)]
  | .neg rd rs => [.sub rd 0 rs]
  | .seqz rd rs => [.sltiu rd rs 1]
  | .snez rd rs => [.sltu rd 0 rs]
  | .sltz rd rs => [.slt rd rs 0]
  | .sgtz rd rs => [.slt rd 0 rs]
  | .beqz rs off => [.beq rs 0 off]
  | .bnez rs off => [.bne rs 0 off]
  | .blez rs off => [.bge 0 rs off]
  | .bgez rs off => [.bge rs 0 off]
  | .bltz rs off => [.blt rs 0 off]
  | .bgtz rs off => [.blt 0 rs off]
  | .bgt rs rt off => [.blt rt rs off]
  | .ble rs rt off => [.bge rt rs off]
  | .bgtu rs rt off => [.bltu rt rs off]
  | .bleu rs rt off => [.bgeu rt rs off]
  | .j off => [.jal 0 off]
  | .jalRa off => [.jal 1 off]
  | .jr rs => [.jalr 0 rs 0]
  | .jalrRa rs => [.jalr 1 rs 0]
  | .ret => [.jalr 0 1 0]
  | .call off => [.auipc 1 (hi20 off), .jalr 1 1 (lo12 off)]
  | .tail off => [.auipc 6 (hi20 off), .jalr 0 6 (lo12 off)]
  | .csrr rd csr => [.csrr rd csr]
  | .csrw csr rs => [.csrw csr rs]

end Sys2Proof.Machine
end

