-- ==== Sys2Proof/Machine/Registry.lean ====
section
/-! DEFINITION. The DispatchRegistry (48_executor.md R190 to R192): the lookup-with-default primitive, and
the five constant tables it stands for in CORE. The machine itself dispatches by cases, as R191 has a
model do; that the tables give the same functions is a claim (log entry 14). -/

namespace Sys2Proof.Machine

/-- A mapping from keys to handlers, with at most one default handler (R190). -/
structure Registry (κ η : Type) where
  entries : List (κ × η)
  fallback : Option η

/-- No entry and no default. -/
def Registry.empty {κ η : Type} : Registry κ η where
  entries := []
  fallback := none

/-- `register(key, handler)`: overwrites any prior association of the key (R190). -/
def Registry.register {κ η : Type} [DecidableEq κ] (r : Registry κ η) (key : κ) (handler : η) : Registry κ η :=
  { r with entries := (key, handler) :: r.entries.filter fun e => e.1 ≠ key }

/-- `unregister(key)`: removes the association (R190). DESIGN CHOICE, log entry 18: of a key that has none, it
changes nothing. -/
def Registry.unregister {κ η : Type} [DecidableEq κ] (r : Registry κ η) (key : κ) : Registry κ η :=
  { r with entries := r.entries.filter fun e => e.1 ≠ key }

/-- `setDefault(handler)` (R190). DESIGN CHOICE, log entry 18: a second call replaces the earlier default. R190
says only that at most one may exist. -/
def Registry.setDefault {κ η : Type} (r : Registry κ η) (handler : η) : Registry κ η :=
  { r with fallback := some handler }

/-- The handler `dispatch(key, …)` calls; `none` is the fatal configuration error of R191. -/
def Registry.dispatch {κ η : Type} [DecidableEq κ] (r : Registry κ η) (key : κ) : Option η :=
  match r.entries.find? fun e => e.1 = key with
  | some e => some e.2
  | none => r.fallback

/-- Opcode to builder, with the default builder (R192, 30_encoding.md R89, R91). -/
def builderRegistry : Registry (BitVec 7) (Word → Descriptor) where
  entries :=
    [(0x03#7, builder .load), (0x0F#7, builder .miscMem), (0x13#7, builder .opImm), (0x17#7, builder .auipc),
     (0x23#7, builder .store), (0x2F#7, builder .amo), (0x33#7, builder .op), (0x37#7, builder .lui),
     (0x63#7, builder .branch), (0x67#7, builder .jalr), (0x6F#7, builder .jal), (0x73#7, builder .system)]
  fallback := some fun _ => neutral

/-- `aluFunc` to ALU operation, each taking the `UNSPEC32` of `aluOp(None)` and the two operands (R192, R195 to R199). -/
def aluRegistry : Registry AluFunc (Word → Word → Word → Word) where
  entries :=
    [(.add, fun _ a b => a + b), (.sub, fun _ a b => a - b), (.and, fun _ a b => a &&& b),
     (.or, fun _ a b => a ||| b), (.xor, fun _ a b => a ^^^ b),
     (.slt, fun _ a b => boolWord (decide (a.toInt < b.toInt))),
     (.sltu, fun _ a b => boolWord (decide (a.toNat < b.toNat))),
     (.sll, fun _ a b => a <<< shiftAmount b), (.srl, fun _ a b => a >>> shiftAmount b),
     (.sra, fun _ a b => a.sshiftRight (shiftAmount b)), (.none, fun free _ _ => free)]
  fallback := none

/-- `brFunc` to condition (R192, R203): the negations are registered as negations. -/
def conditionRegistry : Registry BrFunc (Word → Word → Bool) where
  entries :=
    [(.eq, fun a b => a == b), (.neq, fun a b => !(a == b)),
     (.lt, fun a b => decide (a.toInt < b.toInt)), (.ltu, fun a b => decide (a.toNat < b.toNat)),
     (.ge, fun a b => !decide (a.toInt < b.toInt)), (.geu, fun a b => !decide (a.toNat < b.toNat)),
     (.alwaysTaken, fun _ _ => true), (.neverTaken, fun _ _ => false)]
  fallback := none

/-- What a result-override handler sees: `ip`, the ports, the immediate and `res`. -/
structure OverrideInput where
  ip : Word
  ports : Ports
  imm : Word
  res : Word

/-- `type` to result override, the default being `data = res` (R192, R201, R202). -/
def resultRegistry : Registry ExecType (OverrideInput → Word) where
  entries :=
    [(.csrr, fun x => x.ports.csrVal), (.csrw, fun x => x.ports.src1Val), (.st, fun x => x.ports.src2Val),
     (.j, fun x => x.ip + 4#32), (.jr, fun x => x.ip + 4#32), (.auipc, fun x => x.ip + x.imm)]
  fallback := some fun x => x.res

/-- `type` to address override: the only deliberately partial table, with no default (R192, R205). -/
def addressRegistry : Registry ExecType (OverrideInput → Word) where
  entries :=
    [(.j, fun x => x.ip + x.imm), (.br, fun x => x.ip + x.imm), (.jr, fun x => x.ports.src1Val + x.imm)]
  fallback := none

end Sys2Proof.Machine
end

