-- ==== Sys2Proof/Safety.lean ====
section
/-! DEFINITION. What a legal state of ENV is, and what the fault of a step must be: the terms the claims
use. -/

namespace Sys2Proof.Machine

/-- The word of an instruction with no execution meaning (30_encoding.md R100); absent for one that executes. -/
def unsupportedWord : Instr → Option Word
  | .unsupportedBranch w | .unsupportedLoad w | .unsupportedStore w | .unsupportedSystem w => some w
  | .unsupportedMiscMem w | .unsupportedAmo w | .unsupportedUnknown w => some w
  | _ => none

/-- The address an LW or SW forms (45_load_store.md R162, R165); absent for every other instruction. -/
def State.dataAddr (s : State) : Instr → Option Word
  | .lw _ rs1 imm => some (s.readReg rs1 + imm.signExtend 32)
  | .sw rs1 _ imm => some (s.readReg rs1 + imm.signExtend 32)
  | _ => none

/-- The fault a step from the state raises, if any: the first whose condition holds, in the order
`FetchMisaligned`, `FetchAccess`, `UnsupportedInstruction`, `DataMisaligned`, `DataAccess`
(60_exceptions.md R232, R235). -/
def State.dueFault (s : State) : Option Fault :=
  if !aligned s.pc then some (.fetchMisaligned s.pc)
  else if !s.admitted s.pc 4 then some (.fetchAccess s.pc)
  else if (coreDecode (s.memRead s.pc)).type = .unsupported then
    some (.unsupportedInstruction s.pc (s.memRead s.pc))
  else
    match s.dataAddr (decodeWord (s.memRead s.pc)) with
    | some a =>
      if !aligned a then some (.dataMisaligned s.pc a)
      else if !s.admitted a 4 then some (.dataAccess s.pc a)
      else none
    | none => none

/-- The memory parameters are as 00_scope.md R10 has them. -/
abbrev State.legalParams (s : State) : Prop :=
  s.memBase % 4 = 0 ∧ s.memSize % 4 = 0 ∧ s.memBase + s.memSize ≤ 2 ^ 32

/-- Every listed memory byte lies in `[MEM_BASE, MEM_BASE + MEM_SIZE)` (20_memory.md R51). -/
abbrev State.memInRange (s : State) : Prop :=
  ∀ c ∈ s.mem, s.memBase ≤ c.1 ∧ c.1 < s.memBase + s.memSize

/-- The invariant of ENV's states: legal parameters, canonical memory inside the admitted range, a
canonical CSR file, the hard-wired register's slot 0, and a fault mark, if any, that is the fault this very
state's step raises (precise: 60_exceptions.md R233, R236). -/
abbrev State.inv (s : State) : Prop :=
  s.legalParams ∧ Memory.wf s.mem ∧ s.memInRange ∧ CsrFile.wf s.csrs ∧ s.regs[0] = 0#32 ∧
    (s.faultMark = none ∨ s.faultMark = s.dueFault)

/-- The program is parked: `MemRead(pc, 4) = jal x0, 0` (70_reset_and_hazards.md R258). -/
def State.parked (s : State) : Bool := s.memRead s.pc == 0x0000006F#32

/-- Launch parameters that meet 00_scope.md R10, with the image and CSR values in canonical form. -/
abbrev Launch.legal (l : Launch) : Prop :=
  l.memBase % 4 = 0 ∧ l.memSize % 4 = 0 ∧ l.memBase + l.memSize ≤ 2 ^ 32 ∧
    Memory.wf l.image ∧ (∀ c ∈ l.image, l.memBase ≤ c.1 ∧ c.1 < l.memBase + l.memSize) ∧ CsrFile.wf l.csrInit

end Sys2Proof.Machine
end

