-- ==== Sys2Proof/Certificates/Slice0/Obligations.lean ====
section
/-! DEFINITION. The statements for the provers. The rules of ENV carry the spec's mark `[decision: D<n>]`
(its own choice): a statement that rests on one has basis 'derived' and its docstring names the decision. -/

open Sys2Proof Sys2Proof.Machine

namespace Sys2Proof.Claims

/-! ## What the statements are made of -/

/-- Every CSR, every byte of memory, the memory parameters and the fault mark are as before. -/
def storageKept (s t : State) : Prop :=
  (∀ c, t.readCsr c = s.readCsr c) ∧ (∀ a, t.readByte a = s.readByte a) ∧
    t.memBase = s.memBase ∧ t.memSize = s.memSize ∧ t.faultMark = s.faultMark

/-- The instruction completes: `exec i s` is a next state in which `x[rd]` is `v` (nothing is written when
`rd = 0`), `pc` is `next`, and every other register and everything else is as before. -/
def writesReg (i : Instr) (s : State) (rd : RegIdx) (v next : Word) : Prop :=
  ∃ t, exec i s = .next t ∧ t.pc = next ∧ (rd ≠ 0#5 → t.readReg rd = v) ∧
    (∀ r, r ≠ rd ∨ r = 0#5 → t.readReg r = s.readReg r) ∧ storageKept s t

/-- The instruction completes: `exec i s` is a next state in which `pc` is `next` and nothing else differs. -/
def movesPc (i : Instr) (s : State) (next : Word) : Prop :=
  ∃ t, exec i s = .next t ∧ t.pc = next ∧ (∀ r, t.readReg r = s.readReg r) ∧ storageKept s t

/-- The instruction answers the state with the fault mark set and nothing else changed. -/
def faults (i : Instr) (s : State) (f : Fault) : Prop := exec i s = .next { s with faultMark := some f }

/-- `dst` of an instruction with the `rd` field `rd`: absent for 0 (R92). -/
def dstOf (rd : RegIdx) : Option RegIdx := if rd = 0#5 then none else some rd

/-- `x[1:0] = 0`. -/
def multipleOf4 (a : Word) : Prop := a.extractLsb' 0 2 = 0#2

/-- The four bytes at `a` lie in the memory, with no wrap-around (R51). -/
def inMemory (s : State) (a : Word) : Prop :=
  s.memBase ≤ a.toNat ∧ a.toNat + 4 ≤ s.memBase + s.memSize

/-- The sign-extended I-immediate, `sext_12(word[31:20])` (R80). -/
def sextI (w : Word) : Word := (w.extractLsb' 20 12).signExtend 32

/-- `sext_12` of `word[31:25]` and `word[11:7]` joined (R81). -/
def sextS (w : Word) : Word := (w.extractLsb' 25 7 ++ w.extractLsb' 7 5).signExtend 32

/-- `sext_13` of `word[31]`, `word[7]`, `word[30:25]`, `word[11:8]` and a 0, joined (R82). -/
def sextB (w : Word) : Word :=
  (w.extractLsb' 31 1 ++ w.extractLsb' 7 1 ++ w.extractLsb' 25 6 ++ w.extractLsb' 8 4 ++ 0#1).signExtend 32

/-- `sext_21` of `word[31]`, `word[19:12]`, `word[20]`, `word[30:21]` and a 0, joined (R85). -/
def sextJ (w : Word) : Word :=
  (w.extractLsb' 31 1 ++ w.extractLsb' 12 8 ++ w.extractLsb' 20 1 ++ w.extractLsb' 21 10 ++ 0#1).signExtend 32

/-- A rule of the OpImm class whose immediate is `immI` (R112 to R117): the canonical word; for every word
the row selects, the instruction, the descriptor and `execute`; and the effect in ENV. -/
def opImmRule (pattern : Word) (funct3 : BitVec 3) (f : AluFunc) (op : Word → Word → Word)
    (instr : RegIdx → RegIdx → BitVec 12 → Instr) : Prop :=
  (∀ rd rs1 imm, decodeWord (imm ++ rs1 ++ funct3 ++ rd ++ 0b0010011#7) = instr rd rs1 imm) ∧
  (∀ w, w &&& 0x0000707F#32 = pattern →
    decodeWord w = instr (w.extractLsb' 7 5) (w.extractLsb' 15 5) (w.extractLsb' 20 12) ∧
    coreDecode w =
      { type := .alu, aluFunc := f, brFunc := .neverTaken, dst := dstOf (w.extractLsb' 7 5),
        src1 := some (w.extractLsb' 15 5), src2 := none, imm := some (sextI w), csr := none } ∧
    ∀ u ip p, execute u (coreDecode w) ip p = ⟨none, op p.src1Val (sextI w), ip + 4#32⟩) ∧
  (∀ rd rs1 imm s,
    writesReg (instr rd rs1 imm) s rd (op (s.readReg rs1) (imm.signExtend 32)) (s.pc + 4#32))

/-- A right shift of the OpImm class (R119, R120): its immediate is the five-bit amount. -/
def shiftRightImmRule (pattern : Word) (funct7 : BitVec 7) (f : AluFunc) (op : Word → Nat → Word)
    (instr : RegIdx → RegIdx → BitVec 5 → Instr) : Prop :=
  (∀ rd rs1 shamt, decodeWord (funct7 ++ shamt ++ rs1 ++ 0b101#3 ++ rd ++ 0b0010011#7) = instr rd rs1 shamt) ∧
  (∀ w, w &&& 0x4000707F#32 = pattern →
    decodeWord w = instr (w.extractLsb' 7 5) (w.extractLsb' 15 5) (w.extractLsb' 20 5) ∧
    coreDecode w =
      { type := .alu, aluFunc := f, brFunc := .neverTaken, dst := dstOf (w.extractLsb' 7 5),
        src1 := some (w.extractLsb' 15 5), src2 := none, imm := some ((w.extractLsb' 20 5).setWidth 32),
        csr := none } ∧
    ∀ u ip p, execute u (coreDecode w) ip p =
      ⟨none, op p.src1Val (w.extractLsb' 20 5).toNat, ip + 4#32⟩) ∧
  (∀ rd rs1 shamt s, writesReg (instr rd rs1 shamt) s rd (op (s.readReg rs1) shamt.toNat) (s.pc + 4#32))

/-- A rule of the Op class (R128 to R137). -/
def opRule (mask pattern : Word) (funct7 : BitVec 7) (funct3 : BitVec 3) (f : AluFunc)
    (op : Word → Word → Word) (instr : RegIdx → RegIdx → RegIdx → Instr) : Prop :=
  (∀ rd rs1 rs2, decodeWord (funct7 ++ rs2 ++ rs1 ++ funct3 ++ rd ++ 0b0110011#7) = instr rd rs1 rs2) ∧
  (∀ w, w &&& mask = pattern →
    decodeWord w = instr (w.extractLsb' 7 5) (w.extractLsb' 15 5) (w.extractLsb' 20 5) ∧
    coreDecode w =
      { type := .alu, aluFunc := f, brFunc := .neverTaken, dst := dstOf (w.extractLsb' 7 5),
        src1 := some (w.extractLsb' 15 5), src2 := some (w.extractLsb' 20 5), imm := none, csr := none } ∧
    ∀ u ip p, execute u (coreDecode w) ip p = ⟨none, op p.src1Val p.src2Val, ip + 4#32⟩) ∧
  (∀ rd rs1 rs2 s,
    writesReg (instr rd rs1 rs2) s rd (op (s.readReg rs1) (s.readReg rs2)) (s.pc + 4#32))

/-- A rule of the Branch class (R152 to R157); `cond` is the condition on the two source values. -/
def branchRule (pattern : Word) (funct3 : BitVec 3) (f : BrFunc) (cond : Word → Word → Bool)
    (instr : RegIdx → RegIdx → BitVec 13 → Instr) : Prop :=
  (∀ rs1 rs2 (off : BitVec 13), off.getLsbD 0 = false →
    decodeWord (off.extractLsb' 12 1 ++ off.extractLsb' 5 6 ++ rs2 ++ rs1 ++ funct3 ++ off.extractLsb' 1 4
      ++ off.extractLsb' 11 1 ++ 0b1100011#7) = instr rs1 rs2 off) ∧
  (∀ w, w &&& 0x0000707F#32 = pattern →
    (∃ off : BitVec 13, decodeWord w = instr (w.extractLsb' 15 5) (w.extractLsb' 20 5) off ∧
      off.signExtend 32 = sextB w) ∧
    coreDecode w =
      { type := .br, aluFunc := .none, brFunc := f, dst := none, src1 := some (w.extractLsb' 15 5),
        src2 := some (w.extractLsb' 20 5), imm := some (sextB w), csr := none } ∧
    ∀ u ip p, (execute u (coreDecode w) ip p).addr = none ∧
      (execute u (coreDecode w) ip p).nextIp =
        if cond p.src1Val p.src2Val then ip + sextB w else ip + 4#32) ∧
  (∀ rs1 rs2 off s,
    movesPc (instr rs1 rs2 off) s
      (if cond (s.readReg rs1) (s.readReg rs2) then s.pc + off.signExtend 32 else s.pc + 4#32))

/-- The two operands of a comparison as a word, 1 or 0. -/
def oneIf (p : Prop) [Decidable p] : Word := if p then 1#32 else 0#32

/-- The bytes of a word at `a` are the bytes of `v`, the lowest address first. -/
def holdsWord (t : State) (a v : Word) : Prop :=
  t.readByte a = v.extractLsb' 0 8 ∧ t.readByte (a + 1#32) = v.extractLsb' 8 8 ∧
    t.readByte (a + 2#32) = v.extractLsb' 16 8 ∧ t.readByte (a + 3#32) = v.extractLsb' 24 8

/-- `b` is none of the four bytes at `a`. -/
def outsideWord (a b : Word) : Prop := b ≠ a ∧ b ≠ a + 1#32 ∧ b ≠ a + 2#32 ∧ b ≠ a + 3#32

/-- Where `target` is no multiple of 4, the jump or branch completes, `x[rd]` being the link, and the next step
faults at fetch with nothing else changed (R56, R236). -/
def targetFaults (i : Instr) (s : State) (rd : RegIdx) (target : Word) : Prop :=
  ¬ multipleOf4 target → ∃ t, exec i s = .next t ∧ (rd ≠ 0#5 → t.readReg rd = s.pc + 4#32) ∧
    step t = .next { t with faultMark := some (.fetchMisaligned target) }

/-- `t` is the state after the instructions of the list, each by `exec`. -/
def runs : List Instr → State → State → Prop
  | [], s, t => t = s
  | i :: rest, s, t => ∃ m, exec i s = .next m ∧ runs rest m t

end Sys2Proof.Claims

open Sys2Proof.Claims

/-! ## State, launch, memory, registers -/

/-- Log entries 4 to 8 (the model's choice, R47 and R252 leave the values open): what `State.reset` holds,
and that it meets the invariant. -/
def Obligations.ResetStateValues : Prop :=
  State.reset.pc = 0#32 ∧ (∀ r, State.reset.readReg r = 0#32) ∧ (∀ c, State.reset.readCsr c = 0#32) ∧
    (∀ a, State.reset.readByte a = 0#8) ∧ State.reset.memBase = 0 ∧ State.reset.memSize = 2 ^ 32 ∧
    State.reset.faultMark = none ∧ State.reset.inv

/-- R47, R251 (decision D28), for every launch parameter: the launch state, and `x0 = 0`. -/
def Obligations.LaunchStateValues : Prop :=
  ∀ l : Launch, (State.launch l).pc = l.resetPc ∧ (State.launch l).readReg 0#5 = 0#32 ∧
    (∀ (r : RegIdx), r ≠ 0#5 → (State.launch l).readReg r = l.regsInit[r.toNat]'r.isLt) ∧
    (∀ c : CsrIdx, (State.launch l).readCsr c = Cells.get l.csrInit c.toNat) ∧
    (∀ a : Word, (State.launch l).readByte a = Cells.get l.image a.toNat) ∧
    (State.launch l).memBase = l.memBase ∧ (State.launch l).memSize = l.memSize ∧
    (State.launch l).faultMark = none

/-- R10, R253 (decision D28): a launch with legal parameters meets the invariant; where `RESET_PC` is a
multiple of 4 and admitted the first step runs the instruction there, and otherwise it faults at fetch. -/
def Obligations.LegalLaunchBootsOrFaults : Prop :=
  ∀ l : Launch, l.legal → (State.launch l).inv ∧
    (multipleOf4 l.resetPc → inMemory (State.launch l) l.resetPc →
      step (State.launch l) = exec (decodeWord ((State.launch l).memRead l.resetPc)) (State.launch l)) ∧
    (¬ (multipleOf4 l.resetPc ∧ inMemory (State.launch l) l.resetPc) →
      step (State.launch l) = .next ((State.launch l).raise (.fetchMisaligned l.resetPc)) ∨
      step (State.launch l) = .next ((State.launch l).raise (.fetchAccess l.resetPc)))

/-- R32, R33 (decision D18): `x0` reads 0 in every state and a write to it is suppressed; any other register
reads what was written last, and a write changes no other register. -/
def Obligations.RegisterFile : Prop :=
  ∀ (s : State) (r : RegIdx) (v : Word), s.readReg 0#5 = 0#32 ∧ s.writeReg 0#5 v = s ∧
    (r ≠ 0#5 → (s.writeReg r v).readReg r = v) ∧
    (∀ r', r' ≠ r → (s.writeReg r v).readReg r' = s.readReg r')

/-- R38 (decision D24): each of the 4096 CSRs is plain storage of 32 bits, one apart from another. -/
def Obligations.CsrFileIsPlainStorage : Prop :=
  ∀ (s : State) (c : CsrIdx) (v : Word), CsrFile.wf s.csrs →
    (s.writeCsr c v).readCsr c = v ∧ (∀ c', c' ≠ c → (s.writeCsr c v).readCsr c' = s.readCsr c') ∧
      CsrFile.wf (s.writeCsr c v).csrs

/-- R51 (decision D20): which accesses are admitted, and that none crosses the top of the address space. -/
def Obligations.AdmittedAccesses : Prop :=
  ∀ (s : State) (a : Word), s.legalParams →
    (s.admitted a 4 = true ↔ inMemory s a) ∧
    (s.admitted a 4 = true → ∀ k, k < 4 → (byteAddr a k).toNat = a.toNat + k ∧
      s.memBase ≤ (byteAddr a k).toNat ∧ (byteAddr a k).toNat < s.memBase + s.memSize)

/-- R52 (decision D20): `MemRead(a, 4)` is little-endian; as a number, byte `k` counts `256^k`. R52 speaks of an
admitted 4-aligned `a`; at any other the statement, with its byte addresses that wrap, is the model's choice
(log entry 11). -/
def Obligations.MemReadIsLittleEndian : Prop :=
  ∀ (s : State) (a : Word), holdsWord s a (s.memRead a) ∧
    (s.memRead a).toNat = (s.readByte a).toNat + 256 * (s.readByte (a + 1#32)).toNat +
      65536 * (s.readByte (a + 2#32)).toNat + 16777216 * (s.readByte (a + 3#32)).toNat

/-- R53 (decision D20): `MemWrite(a, 4, v)` sets the four bytes and no other, and is read back. R53 speaks of an
admitted 4-aligned `a`; at any other the statement, with its byte addresses that wrap, is the model's choice
(log entry 11). -/
def Obligations.MemWriteIsLittleEndian : Prop :=
  ∀ (s : State) (a v : Word), Memory.wf s.mem →
    holdsWord (s.memWrite a v) a v ∧ (s.memWrite a v).memRead a = v ∧
      (∀ b, outsideWord a b → (s.memWrite a v).readByte b = s.readByte b) ∧ Memory.wf (s.memWrite a v).mem

/-- R57, R60 (decisions D20, D27): two aligned words are the same word or share no byte, so a store leaves
every other aligned word alone. -/
def Obligations.AlignedWordsDoNotOverlap : Prop :=
  ∀ (s : State) (a b v : Word), multipleOf4 a → multipleOf4 b → a ≠ b →
    (s.memWrite a v).memRead b = s.memRead b

/-! ## The step -/

/-- R42 (decision D22): where the word at an aligned, admitted `pc` decodes to `i`, the step is `exec i`. -/
def Obligations.StepRunsDecodedInstruction : Prop :=
  ∀ (s : State) (i : Instr) (rest : List Byte), s.faultMark = none → multipleOf4 s.pc → inMemory s s.pc →
    i.wellFormed = true →
    decodeBytes (s.readByte s.pc :: s.readByte (s.pc + 1#32) :: s.readByte (s.pc + 2#32) ::
      s.readByte (s.pc + 3#32) :: rest) = .ok (i, rest) →
    step s = exec i s

/-- R42 (decision D22), R20, R90, R193: `step`, which runs the meaning of the decoded instruction, is the
instruction cycle that the rule writes over CORE's `decode` and `execute`, whatever word each `UNSPEC32` is. -/
def Obligations.StepIsTheInstructionCycle : Prop :=
  ∀ (u : UnspecUse → Word) (s : State), step s = instructionCycle u s

/-- R42, R51 to R53, R233 (decisions D20, D22, D26): the invariant `State.inv` is kept by every step. -/
def Obligations.EveryStepKeepsTheInvariant : Prop :=
  ∀ s t : State, s.inv → step s = .next t → t.inv

/-- R233, R246 (decision D26): a running state always steps and no instruction refuses; from a state with a
fault mark no step is possible, at once or after any number of steps. -/
def Obligations.RunningStepsAndFaultedIsTerminal : Prop :=
  (∀ (i : Instr) (s : State), ∃ t, exec i s = .next t) ∧
  (∀ s : State, s.faultMark = none → ∃ t, step s = .next t) ∧
  (∀ (s : State) (f : Fault) (k : Nat), s.faultMark = some f → Sys2Proof.core.run (k + 1) s = .fault f)

/-- R56, R51, R232 (decisions D20, D21, D25): the two fetch faults, each changing nothing but the mark. -/
def Obligations.FetchFaults : Prop :=
  ∀ s : State, s.faultMark = none →
    (¬ multipleOf4 s.pc → step s = .next { s with faultMark := some (.fetchMisaligned s.pc) }) ∧
    (multipleOf4 s.pc → ¬ inMemory s s.pc → step s = .next { s with faultMark := some (.fetchAccess s.pc) })

/-- R232, R235, R236 (decisions D21, D22, D25): a step raises exactly the first of the five faults whose
condition holds, and then changes nothing but the mark; if none holds it raises none. -/
def Obligations.StepRaisesTheDueFault : Prop :=
  ∀ s : State, s.faultMark = none → ∃ t, step s = .next t ∧ t.faultMark = s.dueFault ∧
    ∀ f, s.dueFault = some f → t = { s with faultMark := some f }

/-- R31, R42 (decision D22), over every instruction: a register changes only if it is `dst`, a CSR only by
CSRW to it, a byte only by SW to its word, and the memory parameters never. -/
def Obligations.WhatAStepMayChange : Prop :=
  ∀ s t : State, step s = .next t →
    (∀ r, t.readReg r ≠ s.readReg r → (coreDecode (s.memRead s.pc)).dst = some r) ∧
    (∀ c, t.readCsr c ≠ s.readCsr c → ∃ rs1, decodeWord (s.memRead s.pc) = .csrw c rs1) ∧
    (∀ a, t.readByte a ≠ s.readByte a → ∃ rs1 rs2 imm, decodeWord (s.memRead s.pc) = .sw rs1 rs2 imm ∧
      ¬ outsideWord (s.readReg rs1 + imm.signExtend 32) a) ∧
    t.memBase = s.memBase ∧ t.memSize = s.memSize

/-- R258 (decision D30), R45: at `jal x0, 0` every further step changes nothing. -/
def Obligations.SelfJumpIsAFixedPoint : Prop :=
  ∀ (s : State) (k : Nat), s.faultMark = none → multipleOf4 s.pc → inMemory s s.pc →
    s.memRead s.pc = 0x0000006F#32 → Sys2Proof.core.run k s = .next s

/-- R63, R255 (decisions D22, D27): a word stored by SW at the next `pc` is the next instruction run. -/
def Obligations.StoredWordIsFetchedNext : Prop :=
  ∀ (s : State) (rs1 rs2 : RegIdx) (imm : BitVec 12), Memory.wf s.mem → s.faultMark = none →
    s.readReg rs1 + imm.signExtend 32 = s.pc + 4#32 → multipleOf4 (s.pc + 4#32) → inMemory s (s.pc + 4#32) →
    ∃ t, exec (.sw rs1 rs2 imm) s = .next t ∧ step t = exec (decodeWord (s.readReg rs2)) t

/-- R60, R255 (decisions D22, D27): a word stored by SW is loaded by the next LW of its address, and a CSR
written by CSRW is read by the next CSRR. -/
def Obligations.NextInstructionReadsWhatWasWritten : Prop :=
  (∀ (s : State) (rs1 rs2 rd rs1' : RegIdx) (imm imm' : BitVec 12), Memory.wf s.mem →
    multipleOf4 (s.readReg rs1 + imm.signExtend 32) → inMemory s (s.readReg rs1 + imm.signExtend 32) →
    s.readReg rs1' + imm'.signExtend 32 = s.readReg rs1 + imm.signExtend 32 →
    ∃ t, exec (.sw rs1 rs2 imm) s = .next t ∧
      writesReg (.lw rd rs1' imm') t rd (s.readReg rs2) (s.pc + 8#32)) ∧
  (∀ (s : State) (c : CsrIdx) (rs1 rd : RegIdx), CsrFile.wf s.csrs →
    ∃ t, exec (.csrw c rs1) s = .next t ∧ writesReg (.csrr rd c) t rd (s.readReg rs1) (s.pc + 8#32))

/-- R56, R236 (decisions D21, D22): a taken branch or a jump to a target that is no multiple of 4 completes,
its link register written, and the next step faults at the target. -/
def Obligations.BadTargetFaultsAtTheNextFetch : Prop :=
  ∀ (s : State), s.faultMark = none →
    (∀ rd (off : BitVec 21), targetFaults (.jal rd off) s rd (s.pc + off.signExtend 32)) ∧
    (∀ rd rs1 (imm : BitVec 12), targetFaults (.jalr rd rs1 imm) s rd (s.readReg rs1 + imm.signExtend 32)) ∧
    (∀ rs1 rs2 (off : BitVec 13), s.readReg rs1 = s.readReg rs2 →
      targetFaults (.beq rs1 rs2 off) s 0#5 (s.pc + off.signExtend 32)) ∧
    (∀ rs1 rs2 (off : BitVec 13), s.readReg rs1 ≠ s.readReg rs2 →
      targetFaults (.bne rs1 rs2 off) s 0#5 (s.pc + off.signExtend 32)) ∧
    (∀ rs1 rs2 (off : BitVec 13), (s.readReg rs1).toInt < (s.readReg rs2).toInt →
      targetFaults (.blt rs1 rs2 off) s 0#5 (s.pc + off.signExtend 32)) ∧
    (∀ rs1 rs2 (off : BitVec 13), (s.readReg rs2).toInt ≤ (s.readReg rs1).toInt →
      targetFaults (.bge rs1 rs2 off) s 0#5 (s.pc + off.signExtend 32)) ∧
    (∀ rs1 rs2 (off : BitVec 13), (s.readReg rs1).toNat < (s.readReg rs2).toNat →
      targetFaults (.bltu rs1 rs2 off) s 0#5 (s.pc + off.signExtend 32)) ∧
    (∀ rs1 rs2 (off : BitVec 13), (s.readReg rs2).toNat ≤ (s.readReg rs1).toNat →
      targetFaults (.bgeu rs1 rs2 off) s 0#5 (s.pc + off.signExtend 32))

/-! ## Decoding -/

/-- Words of 95_test_vectors.md, one of each family, written out (a sanity statement). -/
def Obligations.SanityWords : Prop :=
  decodeWord 0xFFF30293#32 = .addi 5 6 (-1) ∧ decodeWord 0x407302B3#32 = .sub 5 6 7 ∧
    decodeWord 0x123452B7#32 = .lui 5 0x12345 ∧ decodeWord 0x008000EF#32 = .jal 1 8 ∧
    decodeWord 0xFE731CE3#32 = .bne 6 7 (-8) ∧ decodeWord 0x00832283#32 = .lw 5 6 8 ∧
    decodeWord 0x00732423#32 = .sw 6 7 8 ∧ decodeWord 0x34031073#32 = .csrw 0x340 6 ∧
    decodeWord 0x340022F3#32 = .csrr 5 0x340 ∧ decodeWord 0x00000073#32 = .unsupportedSystem 0x00000073#32

/-- R84: `signExtend(v, sbit)` for `sbit < 31`: the formula; a clear sign bit leaves the value; a set one sets
every bit above, exactly when the value has no bit above its sign bit; on such a value it is `sext`. -/
def Obligations.SignExtensionLaw : Prop :=
  ∀ (v : Word) (sbit : Nat), sbit < 31 →
    (signExtendAt v sbit).toNat =
      (v.toNat + 0xFFFFFFFF * 2 ^ (sbit + 1) % 2 ^ 32 * (v.getLsbD sbit).toNat) % 2 ^ 32 ∧
    (v.getLsbD sbit = false → signExtendAt v sbit = v) ∧
    (v.getLsbD sbit = true →
      (signExtendAt v sbit = v ||| 0xFFFFFFFF#32 <<< (sbit + 1) ↔ v.toNat < 2 ^ (sbit + 1))) ∧
    (v.toNat < 2 ^ (sbit + 1) → signExtendAt v sbit = (v.setWidth (sbit + 1)).signExtend 32) ∧
    signExtendAt 0x800#32 11 = 0xFFFFF800#32

/-- R80, R81, R82, R83, R85: the five immediates and their ranges as signed numbers. -/
def Obligations.Immediates : Prop :=
  ∀ w : Word,
    (immI w = sextI w ∧ -2048 ≤ (immI w).toInt ∧ (immI w).toInt ≤ 2047) ∧
    (immS w = sextS w ∧ -2048 ≤ (immS w).toInt ∧ (immS w).toInt ≤ 2047) ∧
    (immB w = sextB w ∧ -4096 ≤ (immB w).toInt ∧ (immB w).toInt ≤ 4094 ∧ (immB w).toInt % 2 = 0) ∧
    (immU w = w.extractLsb' 12 20 ++ 0x000#12 ∧ immU w = w &&& 0xFFFFF000#32) ∧
    (immJ w = sextJ w ∧ -1048576 ≤ (immJ w).toInt ∧ (immJ w).toInt ≤ 1048574 ∧ (immJ w).toInt % 2 = 0)

/-- R88 (derived by the spec from R80 to R87, R92): the source bits come back from the descriptor. -/
def Obligations.SourceBitsAreRecoverable : Prop :=
  ∀ (w imm : Word), (coreDecode w).imm = some imm →
    ((opcodeClass (opcodeField w) = .opImm ∧ w.extractLsb' 12 3 ≠ 0b101#3 ∨
        opcodeClass (opcodeField w) = .jalr ∨ opcodeClass (opcodeField w) = .load) →
      imm.extractLsb' 0 12 = w.extractLsb' 20 12 ∧ ∀ i, 11 ≤ i → i < 32 → imm.getLsbD i = imm.getLsbD 11) ∧
    (opcodeClass (opcodeField w) = .opImm ∧ w.extractLsb' 12 3 = 0b101#3 →
      imm.extractLsb' 0 5 = w.extractLsb' 20 5 ∧ imm.extractLsb' 5 27 = 0#27) ∧
    (opcodeClass (opcodeField w) = .store →
      imm.extractLsb' 5 7 = w.extractLsb' 25 7 ∧ imm.extractLsb' 0 5 = w.extractLsb' 7 5 ∧
        ∀ i, 11 ≤ i → i < 32 → imm.getLsbD i = imm.getLsbD 11) ∧
    (opcodeClass (opcodeField w) = .branch →
      imm.getLsbD 12 = w.getLsbD 31 ∧ imm.getLsbD 11 = w.getLsbD 7 ∧
        imm.extractLsb' 5 6 = w.extractLsb' 25 6 ∧ imm.extractLsb' 1 4 = w.extractLsb' 8 4 ∧
        imm.getLsbD 0 = false ∧ ∀ i, 12 ≤ i → i < 32 → imm.getLsbD i = imm.getLsbD 12) ∧
    ((opcodeClass (opcodeField w) = .lui ∨ opcodeClass (opcodeField w) = .auipc) →
      imm.extractLsb' 12 20 = w.extractLsb' 12 20 ∧ imm.extractLsb' 0 12 = 0#12) ∧
    (opcodeClass (opcodeField w) = .jal →
      imm.getLsbD 20 = w.getLsbD 31 ∧ imm.extractLsb' 12 8 = w.extractLsb' 12 8 ∧
        imm.getLsbD 11 = w.getLsbD 20 ∧ imm.extractLsb' 1 10 = w.extractLsb' 21 10 ∧
        imm.getLsbD 0 = false ∧ ∀ i, 20 ≤ i → i < 32 → imm.getLsbD i = imm.getLsbD 20)

/-- R92: `dst` is never register 0, `rd = 0` being absent; sources are not normalised. Which fields a class fills
is its builder's rule: decision D9 for Auipc (R142), D10 for Load and Store words of another width (R160, R163),
D13 for Unsupported System words (R170), D4 for Branch words with `funct3` 010 and 011 (R158). -/
def Obligations.DestinationIsNormalised : Prop :=
  ∀ w : Word, (coreDecode w).dst ≠ some 0#5 ∧
    (opcodeClass (opcodeField w) ∈
        [OpcodeClass.opImm, .op, .lui, .auipc, .jal, .jalr, .load, .system] →
      (coreDecode w).dst = dstOf (w.extractLsb' 7 5)) ∧
    (opcodeClass (opcodeField w) ∈ [OpcodeClass.branch, .store, .miscMem, .amo, .unknown] →
      (coreDecode w).dst = none) ∧
    (opcodeClass (opcodeField w) ∈ [OpcodeClass.opImm, .op, .jalr, .branch, .load, .store, .system] →
      (coreDecode w).src1 = some (w.extractLsb' 15 5)) ∧
    (opcodeClass (opcodeField w) ∈ [OpcodeClass.op, .branch, .store] →
      (coreDecode w).src2 = some (w.extractLsb' 20 5))

/-- R100 (derived by the spec from R89 to R97): the words of type `Unsupported`, completely. -/
def Obligations.UnsupportedWordsCompletely : Prop :=
  ∀ w : Word, (coreDecode w).type = .unsupported ↔
    (w.extractLsb' 0 7 ∉ [0x03#7, 0x13#7, 0x17#7, 0x23#7, 0x33#7, 0x37#7, 0x63#7, 0x67#7, 0x6F#7, 0x73#7] ∨
     (w.extractLsb' 0 7 = 0x03#7 ∧ w.extractLsb' 12 3 ≠ 0b010#3) ∨
     (w.extractLsb' 0 7 = 0x23#7 ∧ w.extractLsb' 12 3 ≠ 0b010#3) ∨
     (w.extractLsb' 0 7 = 0x63#7 ∧ (w.extractLsb' 12 3 = 0b010#3 ∨ w.extractLsb' 12 3 = 0b011#3)) ∨
     (w.extractLsb' 0 7 = 0x73#7 ∧
       ¬ (w.extractLsb' 12 3 = 0b001#3 ∧ w.extractLsb' 7 5 = 0#5) ∧
       ¬ (w.extractLsb' 12 3 = 0b010#3 ∧ w.extractLsb' 15 5 = 0#5)))

/-- R102 (derived by the spec from R89 to R100): a word is of the first row of the opcode table that matches
it, and the rows that execute are disjoint. -/
def Obligations.OpcodeTableSelectsTheInstruction : Prop :=
  (∀ w : Word, firstRow w = some (decodeWord w).mnemonic) ∧
  (∀ (w : Word) (r r' : OpcodeRow), r ∈ supportedRows → r' ∈ supportedRows →
    w &&& r.mask = r.pattern → w &&& r'.mask = r'.pattern → r = r')

/-- R98, R127, R118 to R120 (decision D15): the bits the decoder does not check, and the base instructions
that the RV32M words of the Op class run as. -/
def Obligations.UncheckedBitsAreIgnored : Prop :=
  (∀ w w' : Word, opcodeClass (opcodeField w) = .op → w &&& 0x41FFFFFF#32 = w' &&& 0x41FFFFFF#32 →
    decodeWord w = decodeWord w' ∧ coreDecode w = coreDecode w') ∧
  (∀ w w' : Word, opcodeClass (opcodeField w) = .op → w.extractLsb' 12 3 ∉ [0b000#3, 0b101#3] →
    w &&& 0x01FFFFFF#32 = w' &&& 0x01FFFFFF#32 → decodeWord w = decodeWord w' ∧ coreDecode w = coreDecode w') ∧
  (∀ w w' : Word, opcodeClass (opcodeField w) = .opImm → w.extractLsb' 12 3 = 0b101#3 →
    w &&& 0x41FFFFFF#32 = w' &&& 0x41FFFFFF#32 → decodeWord w = decodeWord w' ∧ coreDecode w = coreDecode w') ∧
  (∀ w w' : Word, opcodeClass (opcodeField w) = .jalr → w &&& 0xFFFF8FFF#32 = w' &&& 0xFFFF8FFF#32 →
    decodeWord w = decodeWord w' ∧ coreDecode w = coreDecode w') ∧
  (∀ rd rs1 rs2 : RegIdx,
    decodeWord (0b0000001#7 ++ rs2 ++ rs1 ++ 0b000#3 ++ rd ++ 0b0110011#7) = .add rd rs1 rs2 ∧
    decodeWord (0b0000001#7 ++ rs2 ++ rs1 ++ 0b001#3 ++ rd ++ 0b0110011#7) = .sll rd rs1 rs2 ∧
    decodeWord (0b0000001#7 ++ rs2 ++ rs1 ++ 0b010#3 ++ rd ++ 0b0110011#7) = .slt rd rs1 rs2 ∧
    decodeWord (0b0000001#7 ++ rs2 ++ rs1 ++ 0b011#3 ++ rd ++ 0b0110011#7) = .sltu rd rs1 rs2 ∧
    decodeWord (0b0000001#7 ++ rs2 ++ rs1 ++ 0b100#3 ++ rd ++ 0b0110011#7) = .xor rd rs1 rs2 ∧
    decodeWord (0b0000001#7 ++ rs2 ++ rs1 ++ 0b101#3 ++ rd ++ 0b0110011#7) = .srl rd rs1 rs2 ∧
    decodeWord (0b0000001#7 ++ rs2 ++ rs1 ++ 0b110#3 ++ rd ++ 0b0110011#7) = .or rd rs1 rs2 ∧
    decodeWord (0b0000001#7 ++ rs2 ++ rs1 ++ 0b111#3 ++ rd ++ 0b0110011#7) = .and rd rs1 rs2)

/-- Log entry 10 (the model's syntax): every word decodes to a well-formed instruction, and the canonical
word of that instruction has the same descriptor, so `encode` drops only bits CORE does not read. -/
def Obligations.CanonicalWordHasTheSameDescriptor : Prop :=
  ∀ w : Word, (decodeWord w).wellFormed = true ∧ coreDecode (encode (decodeWord w)) = coreDecode w

/-- R70 to R89: for every well-formed instruction, decoding its encoded bytes gives it and the bytes after it;
so does the decoder on the word numbered as the opcode table numbers it. -/
def Obligations.DecodeOfEncodedBytes : Prop :=
  ∀ (i : Instr) (rest : List Byte), i.wellFormed = true →
    decodeBytes (wordBytes (encode i) ++ rest) = .ok (i, rest) ∧ decodeTableWord 32 (encode i).toNat = some i

/-! ## CORE's `execute` -/

/-- R195. -/
def Obligations.AluAddSub : Prop :=
  (∀ free a b : Word, (aluOp .add free a b).toNat = (a.toNat + b.toNat) % 2 ^ 32 ∧
    (aluOp .sub free a b).toNat = (a.toNat + (2 ^ 32 - b.toNat)) % 2 ^ 32) ∧
  ∀ free : Word, aluOp .add free 0x7FFFFFFF#32 1#32 = 0x80000000#32 ∧
    aluOp .add free 0xFFFFFFFF#32 1#32 = 0#32 ∧ aluOp .sub free 0#32 1#32 = 0xFFFFFFFF#32 ∧
    aluOp .sub free 0x80000000#32 1#32 = 0x7FFFFFFF#32 ∧ aluOp .add free 5#32 0xFFFFFFFF#32 = 4#32

/-- R196. -/
def Obligations.AluBitwise : Prop :=
  ∀ (free a b : Word),
    (∀ i, (aluOp .and free a b).getLsbD i = (a.getLsbD i && b.getLsbD i) ∧
      (aluOp .or free a b).getLsbD i = (a.getLsbD i || b.getLsbD i) ∧
      (aluOp .xor free a b).getLsbD i = (a.getLsbD i ^^ b.getLsbD i)) ∧
    aluOp .xor free a 0xFFFFFFFF#32 = ~~~a ∧
    aluOp .and free 0xFF00FF00#32 0x0F0F0F0F#32 = 0x0F000F00#32 ∧
    aluOp .or free 0xFF00FF00#32 0x0F0F0F0F#32 = 0xFF0FFF0F#32 ∧
    aluOp .xor free 0xFF00FF00#32 0x0F0F0F0F#32 = 0xF00FF00F#32

/-- R197 (the amount being `b[4:0]`: decision D16). -/
def Obligations.AluShifts : Prop :=
  ∀ (free a b : Word),
    (aluOp .sll free a b).toNat = a.toNat * 2 ^ (b.extractLsb' 0 5).toNat % 2 ^ 32 ∧
    (aluOp .srl free a b).toNat = a.toNat / 2 ^ (b.extractLsb' 0 5).toNat ∧
    (aluOp .sra free a b).toInt = a.toInt / 2 ^ (b.extractLsb' 0 5).toNat ∧
    (∀ i, i < 32 → (aluOp .sra free a b).getLsbD i =
      if i + (b.extractLsb' 0 5).toNat < 32 then a.getLsbD (i + (b.extractLsb' 0 5).toNat) else a.getLsbD 31)

/-- R198. -/
def Obligations.AluComparisons : Prop :=
  (∀ free a b : Word, aluOp .slt free a b = oneIf (a.toInt < b.toInt) ∧
    aluOp .sltu free a b = oneIf (a.toNat < b.toNat) ∧
    (aluOp .sltu free 0#32 b = 1#32 ↔ b ≠ 0#32) ∧ (aluOp .sltu free a 1#32 = 1#32 ↔ a = 0#32)) ∧
  ∀ free : Word, aluOp .slt free 0x80000000#32 0x7FFFFFFF#32 = 1#32 ∧
    aluOp .slt free 0x7FFFFFFF#32 0x80000000#32 = 0#32 ∧ aluOp .slt free 0xFFFFFFFF#32 1#32 = 1#32 ∧
    aluOp .sltu free 0xFFFFFFFF#32 1#32 = 0#32 ∧ aluOp .slt free 1#32 0xFFFFFFFF#32 = 0#32 ∧
    aluOp .sltu free 1#32 0xFFFFFFFF#32 = 1#32 ∧ aluOp .slt free 5#32 5#32 = 0#32 ∧
    aluOp .sltu free 5#32 5#32 = 0#32

/-- R201: `data` by `type`, for every descriptor that has the immediate its type needs; `res` (`aluResult`) is
0 without `src1`, and the operation on the immediate, when present, or else on `src2Val`. -/
def Obligations.ResultOverride : Prop :=
  ∀ (u : UnspecUse → Word) (d : Descriptor) (ip : Word) (p : Ports),
    (d.type = .csrr → (execute u d ip p).data = p.csrVal) ∧
    (d.type = .csrw → (execute u d ip p).data = p.src1Val) ∧
    (d.type = .st → (execute u d ip p).data = p.src2Val) ∧
    (d.type = .j ∨ d.type = .jr → (execute u d ip p).data = ip + 4#32) ∧
    (∀ imm, d.type = .auipc → d.imm = some imm → (execute u d ip p).data = ip + imm) ∧
    (d.type = .alu ∨ d.type = .ld ∨ d.type = .br ∨ d.type = .unsupported →
      (execute u d ip p).data = aluResult u d p ∧
      (d.src1 = none → (execute u d ip p).data = 0#32) ∧
      (∀ r imm, d.src1 = some r → d.imm = some imm →
        (execute u d ip p).data = aluOp d.aluFunc (u .noneResult) p.src1Val imm) ∧
      (∀ r r', d.src1 = some r → d.imm = none → d.src2 = some r' →
        (execute u d ip p).data = aluOp d.aluFunc (u .noneResult) p.src1Val p.src2Val))

/-- R203: the branch condition, on `src1Val` and `src2Val` themselves; the comparing functions occur only with
both selectors present. -/
def Obligations.BranchConditions : Prop :=
  (∀ a b : Word, (branchTaken .eq a b = true ↔ a = b) ∧ (branchTaken .neq a b = true ↔ ¬ a = b) ∧
    (branchTaken .lt a b = true ↔ a.toInt < b.toInt) ∧ (branchTaken .ltu a b = true ↔ a.toNat < b.toNat) ∧
    (branchTaken .ge a b = true ↔ ¬ a.toInt < b.toInt) ∧
    (branchTaken .geu a b = true ↔ ¬ a.toNat < b.toNat) ∧
    branchTaken .alwaysTaken a b = true ∧ branchTaken .neverTaken a b = false) ∧
  (∀ (u : UnspecUse → Word) (d : Descriptor) (ip imm : Word) (p : Ports), d.type = .br → d.imm = some imm →
    (execute u d ip p).nextIp = if branchTaken d.brFunc p.src1Val p.src2Val then ip + imm else ip + 4#32) ∧
  ∀ w : Word, (coreDecode w).brFunc ≠ .alwaysTaken → (coreDecode w).brFunc ≠ .neverTaken →
    (coreDecode w).src1.isSome = true ∧ (coreDecode w).src2.isSome = true

/-- R204, R205: the condition is evaluated for every type, and only J, Br and Jr have an override; the three
hand-made descriptors of R204 among them; what `decode` produces for each type. -/
def Obligations.NextAddressStage : Prop :=
  (∀ (u : UnspecUse → Word) (d : Descriptor) (ip : Word) (p : Ports),
    (d.type ≠ .j → d.type ≠ .br → d.type ≠ .jr → (execute u d ip p).nextIp = ip + 4#32) ∧
    (branchTaken d.brFunc p.src1Val p.src2Val = false → (execute u d ip p).nextIp = ip + 4#32) ∧
    (execute u { d with type := .alu, brFunc := .alwaysTaken } ip p).nextIp = ip + 4#32 ∧
    (execute u { d with type := .j, brFunc := .neverTaken } ip p).nextIp = ip + 4#32 ∧
    ∀ imm, d.imm = some imm →
      (d.type = .j ∨ d.type = .br → (execute u d ip p).nextIp =
        if branchTaken d.brFunc p.src1Val p.src2Val then ip + imm else ip + 4#32) ∧
      (d.type = .jr → (execute u d ip p).nextIp =
        if branchTaken d.brFunc p.src1Val p.src2Val then p.src1Val + imm else ip + 4#32) ∧
      (execute u { d with type := .j, brFunc := .eq } ip p).nextIp =
        if p.src1Val = p.src2Val then ip + imm else ip + 4#32) ∧
  (∀ w : Word,
    ((coreDecode w).type ∉ [ExecType.j, .jr, .br] → (coreDecode w).brFunc = .neverTaken) ∧
    ((coreDecode w).type ∈ [ExecType.j, .jr] → (coreDecode w).brFunc = .alwaysTaken) ∧
    ((coreDecode w).type ∈ [ExecType.j, .jr, .br] → (coreDecode w).imm.isSome = true) ∧
    ((coreDecode w).type = .jr → (coreDecode w).src1.isSome = true))

/-- R206, R24: for every word, `nextIp` is one of three sums, and its vectors. -/
def Obligations.NextIpIsOneOfThree : Prop :=
  (∀ (u : UnspecUse → Word) (w ip : Word) (p : Ports),
    (execute u (coreDecode w) ip p).nextIp = ip + 4#32 ∨
    ∃ imm, (coreDecode w).imm = some imm ∧
      ((execute u (coreDecode w) ip p).nextIp = ip + imm ∨
        ((coreDecode w).type = .jr ∧ (execute u (coreDecode w) ip p).nextIp = p.src1Val + imm))) ∧
  (∀ (u : UnspecUse → Word) (w : Word) (p : Ports),
    (coreDecode w).type ∉ [ExecType.j, .jr, .br] →
    (execute u (coreDecode w) 0xFFFFFFFC#32 p).nextIp = 0#32) ∧
  (∀ (u : UnspecUse → Word) (d : Descriptor) (p : Ports), d.type = .br →
    branchTaken d.brFunc p.src1Val p.src2Val = true → d.imm = some 0xFFFFFFF8#32 →
    (execute u d 0x00000004#32 p).nextIp = 0xFFFFFFFC#32) ∧
  (∀ (u : UnspecUse → Word) (d : Descriptor) (ip : Word) (p : Ports), d.type = .jr → d.brFunc = .alwaysTaken →
    p.src1Val = 0xFFFFFFFF#32 → d.imm = some 2#32 → (execute u d ip p).nextIp = 1#32)

/-- R24 (decision D13): for every word, `addr` is present exactly for Ld and St, and is then the sum of
`src1Val` and the immediate. -/
def Obligations.AddrIsPresentForLoadsAndStores : Prop :=
  ∀ (u : UnspecUse → Word) (w ip : Word) (p : Ports),
    ((execute u (coreDecode w) ip p).addr.isSome = true ↔
      (coreDecode w).type = .ld ∨ (coreDecode w).type = .st) ∧
    ∀ a, (execute u (coreDecode w) ip p).addr = some a → ∃ imm, (coreDecode w).imm = some imm ∧ a = p.src1Val + imm

/-- R22, R199, R207 (decisions D11, D14): whatever words stand for `UNSPEC32` and on the ports whose selector
is absent, `addr` and `nextIp` are the same, and so is `data` but for types Br and Unsupported. -/
def Obligations.NoConsumedOutputDependsOnUnspec : Prop :=
  ∀ (u u' : UnspecUse → Word) (w ip : Word) (p p' : Ports),
    ((coreDecode w).src1.isSome = true → p.src1Val = p'.src1Val) →
    ((coreDecode w).src2.isSome = true → p.src2Val = p'.src2Val) →
    ((coreDecode w).type = .csrr → p.csrVal = p'.csrVal) →
    (execute u (coreDecode w) ip p).addr = (execute u' (coreDecode w) ip p').addr ∧
    (execute u (coreDecode w) ip p).nextIp = (execute u' (coreDecode w) ip p').nextIp ∧
    ((coreDecode w).type ≠ .br → (coreDecode w).type ≠ .unsupported →
      (execute u (coreDecode w) ip p).data = (execute u' (coreDecode w) ip p').data)

/-- R190: the contract of the lookup-with-default primitive. What a clause says of a `setDefault`
over an earlier default (it replaces it) or of `unregister` of an absent key (nothing changes) is the model's
choice, log entry 18. -/
def Obligations.RegistryContract : Prop :=
  ∀ (κ η : Type) [DecidableEq κ] (r : Registry κ η) (k k' : κ) (h h' : η),
    (r.register k h).dispatch k = some h ∧
    (k' ≠ k → (r.register k h).dispatch k' = r.dispatch k') ∧
    (r.unregister k).dispatch k = r.fallback ∧
    (k' ≠ k → (r.unregister k).dispatch k' = r.dispatch k') ∧
    (r.unregister k).setDefault h = (r.setDefault h).unregister k ∧
    ((r.unregister k).setDefault h).dispatch k = some h ∧
    (((r.register k h').setDefault h).dispatch k = some h') ∧
    ((r.setDefault h').setDefault h = r.setDefault h)

/-- R191, R192 (decision D14): the five tables are total (the address table but for its "no entry"), and
dispatching through them is the function the model writes by cases. -/
def Obligations.RegistriesAreTheCaseFunctions : Prop :=
  (∀ w : Word, ∃ b, builderRegistry.dispatch (opcodeField w) = some b ∧ coreDecode w = (b w).normalizeDst) ∧
  (∀ f : AluFunc, ∃ h, aluRegistry.dispatch f = some h ∧ ∀ free a b, h free a b = aluOp f free a b) ∧
  (∀ f : BrFunc, ∃ h, conditionRegistry.dispatch f = some h ∧ ∀ a b, h a b = branchTaken f a b) ∧
  (∀ d : Descriptor, ∃ h, resultRegistry.dispatch d.type = some h ∧
    ∀ u ip p res, h ⟨ip, p, immOrFree u d, res⟩ = resultData u d ip p res) ∧
  (∀ (d : Descriptor) u ip p res,
    (addressRegistry.dispatch d.type).map (fun h => h ⟨ip, p, immOrFree u d, res⟩) = addressOverride u d ip p)

/-! ## The instructions -/

/-- R112 ADDI, R115 XORI, R116 ORI, R117 ANDI. -/
def Obligations.OpImmArithmeticLogic : Prop :=
  opImmRule 0x00000013#32 0b000#3 .add (fun a b => a + b) .addi ∧
  opImmRule 0x00004013#32 0b100#3 .xor (fun a b => a ^^^ b) .xori ∧
  opImmRule 0x00006013#32 0b110#3 .or (fun a b => a ||| b) .ori ∧
  opImmRule 0x00007013#32 0b111#3 .and (fun a b => a &&& b) .andi

/-- R113 SLTI, R114 SLTIU. -/
def Obligations.OpImmComparisons : Prop :=
  opImmRule 0x00002013#32 0b010#3 .slt (fun a b => oneIf (a.toInt < b.toInt)) .slti ∧
  opImmRule 0x00003013#32 0b011#3 .sltu (fun a b => oneIf (a.toNat < b.toNat)) .sltiu

/-- R118 SLLI (its amount is `imm[4:0]`, its immediate not masked), R119 SRLI, R120 SRAI. -/
def Obligations.OpImmShifts : Prop :=
  opImmRule 0x00001013#32 0b001#3 .sll (fun a b => a <<< (b.extractLsb' 0 5).toNat) .slli ∧
  shiftRightImmRule 0x00005013#32 0b0000000#7 .srl (fun a n => a >>> n) .srli ∧
  shiftRightImmRule 0x40005013#32 0b0100000#7 .sra (fun a n => a.sshiftRight n) .srai ∧
  (∀ (a : Word) (n : Nat), n < 32 → (a.sshiftRight n).toInt = a.toInt / 2 ^ n)

/-- R128 ADD, R129 SUB, R133 XOR, R136 OR, R137 AND. -/
def Obligations.OpArithmeticLogic : Prop :=
  opRule 0x4000707F#32 0x00000033#32 0b0000000#7 0b000#3 .add (fun a b => a + b) .add ∧
  opRule 0x4000707F#32 0x40000033#32 0b0100000#7 0b000#3 .sub (fun a b => a - b) .sub ∧
  opRule 0x0000707F#32 0x00004033#32 0b0000000#7 0b100#3 .xor (fun a b => a ^^^ b) .xor ∧
  opRule 0x0000707F#32 0x00006033#32 0b0000000#7 0b110#3 .or (fun a b => a ||| b) .or ∧
  opRule 0x0000707F#32 0x00007033#32 0b0000000#7 0b111#3 .and (fun a b => a &&& b) .and

/-- R131 SLT, R132 SLTU. -/
def Obligations.OpComparisons : Prop :=
  opRule 0x0000707F#32 0x00002033#32 0b0000000#7 0b010#3 .slt (fun a b => oneIf (a.toInt < b.toInt)) .slt ∧
  opRule 0x0000707F#32 0x00003033#32 0b0000000#7 0b011#3 .sltu (fun a b => oneIf (a.toNat < b.toNat)) .sltu

/-- R130 SLL, R134 SRL, R135 SRA: only the low five bits of the second operand count. -/
def Obligations.OpShifts : Prop :=
  opRule 0x0000707F#32 0x00001033#32 0b0000000#7 0b001#3 .sll
    (fun a b => a <<< (b.extractLsb' 0 5).toNat) .sll ∧
  opRule 0x4000707F#32 0x00005033#32 0b0000000#7 0b101#3 .srl
    (fun a b => a >>> (b.extractLsb' 0 5).toNat) .srl ∧
  opRule 0x4000707F#32 0x40005033#32 0b0100000#7 0b101#3 .sra
    (fun a b => a.sshiftRight (b.extractLsb' 0 5).toNat) .sra

/-- R140, R141 LUI, R143 AUIPC (its builder R142: decision D9). CORE's LUI output is `src1Val + imm`. -/
def Obligations.UpperImmediates : Prop :=
  (∀ rd (imm20 : BitVec 20), decodeWord (imm20 ++ rd ++ 0b0110111#7) = .lui rd imm20 ∧
    decodeWord (imm20 ++ rd ++ 0b0010111#7) = .auipc rd imm20) ∧
  (∀ w : Word, w &&& 0x0000007F#32 = 0x00000037#32 →
    decodeWord w = .lui (w.extractLsb' 7 5) (w.extractLsb' 12 20) ∧
    coreDecode w =
      { type := .alu, aluFunc := .add, brFunc := .neverTaken, dst := dstOf (w.extractLsb' 7 5),
        src1 := some 0#5, src2 := none, imm := some (w &&& 0xFFFFF000#32), csr := none } ∧
    ∀ u ip p, execute u (coreDecode w) ip p = ⟨none, p.src1Val + (w &&& 0xFFFFF000#32), ip + 4#32⟩) ∧
  (∀ w : Word, w &&& 0x0000007F#32 = 0x00000017#32 →
    decodeWord w = .auipc (w.extractLsb' 7 5) (w.extractLsb' 12 20) ∧
    coreDecode w =
      { type := .auipc, aluFunc := .none, brFunc := .neverTaken, dst := dstOf (w.extractLsb' 7 5),
        src1 := none, src2 := none, imm := some (w &&& 0xFFFFF000#32), csr := none } ∧
    ∀ u ip p, execute u (coreDecode w) ip p = ⟨none, ip + (w &&& 0xFFFFF000#32), ip + 4#32⟩) ∧
  (∀ rd (imm20 : BitVec 20) s, writesReg (.lui rd imm20) s rd (imm20 ++ 0x000#12) (s.pc + 4#32) ∧
    writesReg (.auipc rd imm20) s rd (s.pc + (imm20 ++ 0x000#12)) (s.pc + 4#32))

/-- R145, R146 JAL, R147, R148 JALR: bit 0 of the JALR target is kept; with `rd = rs1` the old value is the
base (R43); a target that is no multiple of 4 faults at the next fetch. -/
def Obligations.Jumps : Prop :=
  (∀ rd (off : BitVec 21), off.getLsbD 0 = false →
    decodeWord (off.extractLsb' 20 1 ++ off.extractLsb' 1 10 ++ off.extractLsb' 11 1 ++ off.extractLsb' 12 8
      ++ rd ++ 0b1101111#7) = .jal rd off) ∧
  (∀ rd rs1 (imm : BitVec 12), decodeWord (imm ++ rs1 ++ 0b000#3 ++ rd ++ 0b1100111#7) = .jalr rd rs1 imm) ∧
  (∀ w : Word, w &&& 0x0000007F#32 = 0x0000006F#32 →
    (∃ off : BitVec 21, decodeWord w = .jal (w.extractLsb' 7 5) off ∧ off.signExtend 32 = sextJ w) ∧
    coreDecode w =
      { type := .j, aluFunc := .none, brFunc := .alwaysTaken, dst := dstOf (w.extractLsb' 7 5),
        src1 := none, src2 := none, imm := some (sextJ w), csr := none } ∧
    ∀ u ip p, execute u (coreDecode w) ip p = ⟨none, ip + 4#32, ip + sextJ w⟩) ∧
  (∀ w : Word, w &&& 0x0000007F#32 = 0x00000067#32 →
    decodeWord w = .jalr (w.extractLsb' 7 5) (w.extractLsb' 15 5) (w.extractLsb' 20 12) ∧
    coreDecode w =
      { type := .jr, aluFunc := .none, brFunc := .alwaysTaken, dst := dstOf (w.extractLsb' 7 5),
        src1 := some (w.extractLsb' 15 5), src2 := none, imm := some (sextI w), csr := none } ∧
    ∀ u ip p, execute u (coreDecode w) ip p = ⟨none, ip + 4#32, p.src1Val + sextI w⟩) ∧
  (∀ rd (off : BitVec 21) s, writesReg (.jal rd off) s rd (s.pc + 4#32) (s.pc + off.signExtend 32)) ∧
  (∀ rd rs1 (imm : BitVec 12) s,
    writesReg (.jalr rd rs1 imm) s rd (s.pc + 4#32) (s.readReg rs1 + imm.signExtend 32)) ∧
  (∀ rd rs1 (off : BitVec 21) (imm : BitVec 12) (s : State), s.faultMark = none →
    targetFaults (.jal rd off) s rd (s.pc + off.signExtend 32) ∧
    targetFaults (.jalr rd rs1 imm) s rd (s.readReg rs1 + imm.signExtend 32))

/-- R152 BEQ, R153 BNE, R154 BLT, R155 BGE, R156 BLTU, R157 BGEU. -/
def Obligations.Branches : Prop :=
  branchRule 0x00000063#32 0b000#3 .eq (fun a b => decide (a = b)) .beq ∧
  branchRule 0x00001063#32 0b001#3 .neq (fun a b => decide (a ≠ b)) .bne ∧
  branchRule 0x00004063#32 0b100#3 .lt (fun a b => decide (a.toInt < b.toInt)) .blt ∧
  branchRule 0x00005063#32 0b101#3 .ge (fun a b => decide (b.toInt ≤ a.toInt)) .bge ∧
  branchRule 0x00006063#32 0b110#3 .ltu (fun a b => decide (a.toNat < b.toNat)) .bltu ∧
  branchRule 0x00007063#32 0b111#3 .geu (fun a b => decide (b.toNat ≤ a.toNat)) .bgeu

/-- R162 LW: it completes on an aligned word in memory, also with `rd = 0` or `rd = rs1`; otherwise the
fault the rule names, and nothing else changed. -/
def Obligations.LoadWord : Prop :=
  (∀ rd rs1 (imm : BitVec 12), decodeWord (imm ++ rs1 ++ 0b010#3 ++ rd ++ 0b0000011#7) = .lw rd rs1 imm) ∧
  (∀ w : Word, w &&& 0x0000707F#32 = 0x00002003#32 →
    decodeWord w = .lw (w.extractLsb' 7 5) (w.extractLsb' 15 5) (w.extractLsb' 20 12) ∧
    coreDecode w =
      { type := .ld, aluFunc := .add, brFunc := .neverTaken, dst := dstOf (w.extractLsb' 7 5),
        src1 := some (w.extractLsb' 15 5), src2 := none, imm := some (sextI w), csr := none } ∧
    ∀ u ip p, execute u (coreDecode w) ip p =
      ⟨some (p.src1Val + sextI w), p.src1Val + sextI w, ip + 4#32⟩) ∧
  (∀ rd rs1 (imm : BitVec 12) s,
    (multipleOf4 (s.readReg rs1 + imm.signExtend 32) → inMemory s (s.readReg rs1 + imm.signExtend 32) →
      writesReg (.lw rd rs1 imm) s rd (s.memRead (s.readReg rs1 + imm.signExtend 32)) (s.pc + 4#32)) ∧
    (¬ multipleOf4 (s.readReg rs1 + imm.signExtend 32) →
      faults (.lw rd rs1 imm) s (.dataMisaligned s.pc (s.readReg rs1 + imm.signExtend 32))) ∧
    (multipleOf4 (s.readReg rs1 + imm.signExtend 32) → ¬ inMemory s (s.readReg rs1 + imm.signExtend 32) →
      faults (.lw rd rs1 imm) s (.dataAccess s.pc (s.readReg rs1 + imm.signExtend 32))))

/-- R165 SW: the four bytes at `x[rs1] + imm` become those of `x[rs2]` (in a memory in canonical form, an
invariant of the model), every other byte and all else but `pc` is kept; or the fault the rule names. -/
def Obligations.StoreWord : Prop :=
  (∀ rs1 rs2 (imm : BitVec 12),
    decodeWord (imm.extractLsb' 5 7 ++ rs2 ++ rs1 ++ 0b010#3 ++ imm.extractLsb' 0 5 ++ 0b0100011#7) =
      .sw rs1 rs2 imm) ∧
  (∀ w : Word, w &&& 0x0000707F#32 = 0x00002023#32 →
    decodeWord w = .sw (w.extractLsb' 15 5) (w.extractLsb' 20 5) (w.extractLsb' 25 7 ++ w.extractLsb' 7 5) ∧
    coreDecode w =
      { type := .st, aluFunc := .add, brFunc := .neverTaken, dst := none, src1 := some (w.extractLsb' 15 5),
        src2 := some (w.extractLsb' 20 5), imm := some (sextS w), csr := none } ∧
    ∀ u ip p, execute u (coreDecode w) ip p = ⟨some (p.src1Val + sextS w), p.src2Val, ip + 4#32⟩) ∧
  (∀ rs1 rs2 (imm : BitVec 12) s,
    (multipleOf4 (s.readReg rs1 + imm.signExtend 32) → inMemory s (s.readReg rs1 + imm.signExtend 32) →
      ∃ t, exec (.sw rs1 rs2 imm) s = .next t ∧ t.pc = s.pc + 4#32 ∧
        (Memory.wf s.mem → holdsWord t (s.readReg rs1 + imm.signExtend 32) (s.readReg rs2)) ∧
        (∀ b, outsideWord (s.readReg rs1 + imm.signExtend 32) b → t.readByte b = s.readByte b) ∧
        (∀ r, t.readReg r = s.readReg r) ∧ (∀ c, t.readCsr c = s.readCsr c) ∧
        t.memBase = s.memBase ∧ t.memSize = s.memSize ∧ t.faultMark = s.faultMark) ∧
    (¬ multipleOf4 (s.readReg rs1 + imm.signExtend 32) →
      faults (.sw rs1 rs2 imm) s (.dataMisaligned s.pc (s.readReg rs1 + imm.signExtend 32))) ∧
    (multipleOf4 (s.readReg rs1 + imm.signExtend 32) → ¬ inMemory s (s.readReg rs1 + imm.signExtend 32) →
      faults (.sw rs1 rs2 imm) s (.dataAccess s.pc (s.readReg rs1 + imm.signExtend 32))))

/-- R171 CSRW (the value is read back in a CSR file in canonical form, an invariant of the model), R172 CSRR. -/
def Obligations.CsrWriteAndRead : Prop :=
  (∀ (c : CsrIdx) rs1, decodeWord (c ++ rs1 ++ 0b001#3 ++ 0b00000#5 ++ 0b1110011#7) = .csrw c rs1) ∧
  (∀ rd (c : CsrIdx), decodeWord (c ++ 0b00000#5 ++ 0b010#3 ++ rd ++ 0b1110011#7) = .csrr rd c) ∧
  (∀ w : Word, w &&& 0x00007FFF#32 = 0x00001073#32 →
    decodeWord w = .csrw (w.extractLsb' 20 12) (w.extractLsb' 15 5) ∧
    coreDecode w =
      { type := .csrw, aluFunc := .none, brFunc := .neverTaken, dst := none, src1 := some (w.extractLsb' 15 5),
        src2 := none, imm := none, csr := some (w.extractLsb' 20 12) } ∧
    ∀ u ip p, execute u (coreDecode w) ip p = ⟨none, p.src1Val, ip + 4#32⟩) ∧
  (∀ w : Word, w &&& 0x000FF07F#32 = 0x00002073#32 →
    decodeWord w = .csrr (w.extractLsb' 7 5) (w.extractLsb' 20 12) ∧
    coreDecode w =
      { type := .csrr, aluFunc := .none, brFunc := .neverTaken, dst := dstOf (w.extractLsb' 7 5),
        src1 := some 0#5, src2 := none, imm := none, csr := some (w.extractLsb' 20 12) } ∧
    ∀ u ip p, execute u (coreDecode w) ip p = ⟨none, p.csrVal, ip + 4#32⟩) ∧
  (∀ (c : CsrIdx) rs1 s, ∃ t, exec (.csrw c rs1) s = .next t ∧ t.pc = s.pc + 4#32 ∧
    (CsrFile.wf s.csrs → t.readCsr c = s.readReg rs1) ∧ (∀ c', c' ≠ c → t.readCsr c' = s.readCsr c') ∧
    (∀ r, t.readReg r = s.readReg r) ∧ (∀ a, t.readByte a = s.readByte a) ∧
    t.memBase = s.memBase ∧ t.memSize = s.memSize ∧ t.faultMark = s.faultMark) ∧
  (∀ rd (c : CsrIdx) s, writesReg (.csrr rd c) s rd (s.readCsr c) (s.pc + 4#32))

/-- R161 Load, R164 Store and R173 System words with no meaning, and the reserved Branch words of R158
(decision D4): the descriptor, CORE's outputs, and in ENV the fault with nothing else changed. -/
def Obligations.UnsupportedFormsOfAClass : Prop :=
  (∀ w : Word, w &&& 0x0000007F#32 = 0x00000003#32 → w.extractLsb' 12 3 ≠ 0b010#3 →
    decodeWord w = .unsupportedLoad w ∧
    coreDecode w =
      { type := .unsupported, aluFunc := .add, brFunc := .neverTaken, dst := dstOf (w.extractLsb' 7 5),
        src1 := some (w.extractLsb' 15 5), src2 := none, imm := some (sextI w), csr := none } ∧
    ∀ u ip p, execute u (coreDecode w) ip p = ⟨none, p.src1Val + sextI w, ip + 4#32⟩) ∧
  (∀ w : Word, w &&& 0x0000007F#32 = 0x00000023#32 → w.extractLsb' 12 3 ≠ 0b010#3 →
    decodeWord w = .unsupportedStore w ∧
    coreDecode w =
      { type := .unsupported, aluFunc := .add, brFunc := .neverTaken, dst := none,
        src1 := some (w.extractLsb' 15 5), src2 := some (w.extractLsb' 20 5), imm := some (sextS w), csr := none } ∧
    ∀ u ip p, execute u (coreDecode w) ip p = ⟨none, p.src1Val + sextS w, ip + 4#32⟩) ∧
  (∀ w : Word, w &&& 0x0000007F#32 = 0x00000073#32 →
    ¬ (w.extractLsb' 12 3 = 0b001#3 ∧ w.extractLsb' 7 5 = 0#5) →
    ¬ (w.extractLsb' 12 3 = 0b010#3 ∧ w.extractLsb' 15 5 = 0#5) →
    decodeWord w = .unsupportedSystem w ∧
    coreDecode w =
      { type := .unsupported, aluFunc := .none, brFunc := .neverTaken, dst := dstOf (w.extractLsb' 7 5),
        src1 := some (w.extractLsb' 15 5), src2 := none, imm := none, csr := some (w.extractLsb' 20 12) } ∧
    ∀ u ip p, execute u (coreDecode w) ip p = ⟨none, u .noneResult, ip + 4#32⟩) ∧
  (∀ w : Word, w &&& 0x0000607F#32 = 0x00002063#32 →
    decodeWord w = .unsupportedBranch w ∧
    coreDecode w =
      { type := .unsupported, aluFunc := .none, brFunc := .neverTaken, dst := none,
        src1 := some (w.extractLsb' 15 5), src2 := some (w.extractLsb' 20 5), imm := some (sextB w), csr := none } ∧
    ∀ u ip p, execute u (coreDecode w) ip p = ⟨none, u .noneResult, ip + 4#32⟩) ∧
  (∀ (w : Word) (s : State), faults (.unsupportedLoad w) s (.unsupportedInstruction s.pc w) ∧
    faults (.unsupportedStore w) s (.unsupportedInstruction s.pc w) ∧
    faults (.unsupportedSystem w) s (.unsupportedInstruction s.pc w) ∧
    faults (.unsupportedBranch w) s (.unsupportedInstruction s.pc w))

/-- R180, R181 MiscMem, R182 Amo, R183 unknown opcodes: the neutral descriptor, CORE's outputs, and in ENV
the fault with nothing else changed. -/
def Obligations.UnsupportedClasses : Prop :=
  (∀ w : Word, w &&& 0x0000007F#32 = 0x0000000F#32 → decodeWord w = .unsupportedMiscMem w) ∧
  (∀ w : Word, w &&& 0x0000007F#32 = 0x0000002F#32 → decodeWord w = .unsupportedAmo w) ∧
  (∀ w : Word, w.extractLsb' 0 7 ∉ [0x03#7, 0x0F#7, 0x13#7, 0x17#7, 0x23#7, 0x2F#7, 0x33#7, 0x37#7, 0x63#7,
      0x67#7, 0x6F#7, 0x73#7] → decodeWord w = .unsupportedUnknown w) ∧
  (∀ w : Word, w.extractLsb' 0 7 ∉ [0x03#7, 0x13#7, 0x17#7, 0x23#7, 0x33#7, 0x37#7, 0x63#7, 0x67#7, 0x6F#7,
      0x73#7] →
    coreDecode w =
      { type := .unsupported, aluFunc := .none, brFunc := .neverTaken, dst := none, src1 := none,
        src2 := none, imm := none, csr := none } ∧
    ∀ u ip p, execute u (coreDecode w) ip p = ⟨none, 0x00000000#32, ip + 4#32⟩) ∧
  (∀ (w : Word) (s : State), faults (.unsupportedMiscMem w) s (.unsupportedInstruction s.pc w) ∧
    faults (.unsupportedAmo w) s (.unsupportedInstruction s.pc w) ∧
    faults (.unsupportedUnknown w) s (.unsupportedInstruction s.pc w))

/-- R104 (decision D29): the two-instruction pseudo-instructions do what they are for: `li` leaves any 32-bit
value in `rd`; `call` jumps by any offset and links to the address after it in `x1`; `tail` jumps and leaves
`x1` alone. -/
def Obligations.LongPseudoInstructions : Prop :=
  (∀ (s : State) (rd : RegIdx) (imm : Word), rd ≠ 0#5 → ∃ t, runs (Pseudo.liWide rd imm).expand s t ∧
    t.readReg rd = imm ∧ t.pc = s.pc + 8#32 ∧ (∀ r, r ≠ rd → t.readReg r = s.readReg r) ∧ storageKept s t) ∧
  (∀ (s : State) (off : Word), ∃ t, runs (Pseudo.call off).expand s t ∧ t.pc = s.pc + off ∧
    t.readReg 1#5 = s.pc + 8#32 ∧ (∀ r, r ≠ 1#5 → t.readReg r = s.readReg r) ∧ storageKept s t) ∧
  (∀ (s : State) (off : Word), ∃ t, runs (Pseudo.tail off).expand s t ∧ t.pc = s.pc + off ∧
    (∀ r, r ≠ 6#5 → t.readReg r = s.readReg r) ∧ storageKept s t)
end

