-- ==== Sys2Proof/Laws/Cells.lean ====
section
/-! SUPPORT. The laws of sparse storage: read after write, other cells kept, the canonical form kept. -/

namespace Sys2Proof.Machine

variable {w : Nat} {bound : Nat} {l : List (Nat × BitVec w)} {a b : Nat} {v : BitVec w}

theorem Cells.wf_tail {p : Nat × BitVec w} (h : Cells.wf bound (p :: l)) : Cells.wf bound l :=
  ⟨h.1.of_cons, fun q hq => h.2 q (List.mem_cons_of_mem _ hq)⟩

theorem Cells.head_lt {p : Nat × BitVec w} (h : Cells.wf bound (p :: l)) : ∀ q ∈ l, p.1 < q.1 :=
  (List.pairwise_cons.mp h.1).1

/-- A number below every listed one reads 0. -/
theorem Cells.get_eq_zero_of_lt (h : ∀ p ∈ l, a < p.1) : Cells.get l a = 0#w := by
  induction l with
  | nil => rfl
  | cons p rest ih =>
    obtain ⟨k, u⟩ := p
    have hk : a < k := h (k, u) (by simp)
    simp only [Cells.get]
    rw [if_neg (by omega)]
    exact ih fun q hq => h q (List.mem_cons_of_mem _ hq)

theorem Cells.get_set_self (h : Cells.wf bound l) : Cells.get (Cells.set l a v) a = v := by
  induction l with
  | nil => simp only [Cells.set]; split <;> simp_all [Cells.get]
  | cons p rest ih =>
    obtain ⟨k, u⟩ := p
    have hlt := Cells.head_lt h
    have ih := ih (Cells.wf_tail h)
    simp only [Cells.set]
    split
    · next hak =>
      split
      · next hv =>
        rw [hv, Cells.get_eq_zero_of_lt]
        intro q hq
        rcases List.mem_cons.mp hq with rfl | hq
        · exact hak
        · exact lt_trans hak (hlt q hq)
      · simp [Cells.get]
    · split
      · next hak =>
        subst hak
        split
        · next hv => rw [hv, Cells.get_eq_zero_of_lt hlt]
        · simp [Cells.get]
      · next hne =>
        simp only [Cells.get]
        rw [if_neg (fun e => hne e.symm), ih]

theorem Cells.get_set_other (h : b ≠ a) : Cells.get (Cells.set l a v) b = Cells.get l b := by
  have hab : a ≠ b := fun e => h e.symm
  induction l with
  | nil => simp only [Cells.set]; split <;> simp [Cells.get, hab]
  | cons p rest ih =>
    obtain ⟨k, u⟩ := p
    simp only [Cells.set]
    split
    · split <;> simp [Cells.get, hab]
    · split
      · next hak => subst hak; split <;> simp [Cells.get, hab]
      · simp only [Cells.get, ih]

/-- A cell after a write is an old cell or the written one. -/
theorem Cells.mem_set {p : Nat × BitVec w} (h : p ∈ Cells.set l a v) : p ∈ l ∨ (p = (a, v) ∧ v ≠ 0#w) := by
  induction l with
  | nil => simp only [Cells.set] at h; split at h <;> simp_all
  | cons q rest ih =>
    obtain ⟨k, u⟩ := q
    simp only [Cells.set] at h
    split at h
    · split at h
      · exact .inl h
      · rcases List.mem_cons.mp h with rfl | h
        · exact .inr ⟨rfl, ‹_›⟩
        · exact .inl h
    · split at h
      · split at h
        · exact .inl (List.mem_cons_of_mem _ h)
        · rcases List.mem_cons.mp h with rfl | h
          · exact .inr ⟨rfl, ‹_›⟩
          · exact .inl (List.mem_cons_of_mem _ h)
      · rcases List.mem_cons.mp h with rfl | h
        · exact .inl (by simp)
        · exact (ih h).imp (List.mem_cons_of_mem _) id

theorem Cells.set_wf (h : Cells.wf bound l) (ha : a < bound) : Cells.wf bound (Cells.set l a v) := by
  refine ⟨?_, fun p hp => ?_⟩
  · induction l with
    | nil => simp only [Cells.set]; split <;> simp
    | cons q rest ih =>
      obtain ⟨k, u⟩ := q
      have hlt := Cells.head_lt h
      have ih := ih (Cells.wf_tail h)
      simp only [Cells.set]
      split
      · next hak =>
        split
        · exact h.1
        · refine List.pairwise_cons.mpr ⟨fun q hq => ?_, h.1⟩
          rcases List.mem_cons.mp hq with rfl | hq
          · exact hak
          · exact lt_trans hak (hlt q hq)
      · next hna =>
        split
        · next hak =>
          subst hak
          split
          · exact h.1.of_cons
          · exact List.pairwise_cons.mpr ⟨hlt, h.1.of_cons⟩
        · next hne =>
          refine List.pairwise_cons.mpr ⟨fun q hq => ?_, ih⟩
          rcases Cells.mem_set hq with hq | ⟨rfl, _⟩
          · exact hlt q hq
          · simp only; omega
  · rcases Cells.mem_set hp with hp | ⟨rfl, hv⟩
    · exact h.2 p hp
    · exact ⟨ha, hv⟩

end Sys2Proof.Machine
end

