-- ==== Sys2Proof/Laws/State.lean ====
section
/-! SUPPORT. One lemma per field per update of State. -/

namespace Sys2Proof.Machine

variable (s : State) (t : Word) (f : Fault) (r : RegIdx) (v : Word) (c : CsrIdx) (a : Word) (b : Byte)

@[simp] theorem State.setPc_regs : (s.setPc t).regs = s.regs := rfl
@[simp] theorem State.setPc_pc : (s.setPc t).pc = t := rfl
@[simp] theorem State.setPc_csrs : (s.setPc t).csrs = s.csrs := rfl
@[simp] theorem State.setPc_mem : (s.setPc t).mem = s.mem := rfl
@[simp] theorem State.setPc_memBase : (s.setPc t).memBase = s.memBase := rfl
@[simp] theorem State.setPc_memSize : (s.setPc t).memSize = s.memSize := rfl
@[simp] theorem State.setPc_faultMark : (s.setPc t).faultMark = s.faultMark := rfl

@[simp] theorem State.raise_regs : (s.raise f).regs = s.regs := rfl
@[simp] theorem State.raise_pc : (s.raise f).pc = s.pc := rfl
@[simp] theorem State.raise_csrs : (s.raise f).csrs = s.csrs := rfl
@[simp] theorem State.raise_mem : (s.raise f).mem = s.mem := rfl
@[simp] theorem State.raise_memBase : (s.raise f).memBase = s.memBase := rfl
@[simp] theorem State.raise_memSize : (s.raise f).memSize = s.memSize := rfl
@[simp] theorem State.raise_faultMark : (s.raise f).faultMark = some f := rfl

@[simp] theorem State.writeReg_pc : (s.writeReg r v).pc = s.pc := by unfold State.writeReg; split <;> rfl
@[simp] theorem State.writeReg_csrs : (s.writeReg r v).csrs = s.csrs := by unfold State.writeReg; split <;> rfl
@[simp] theorem State.writeReg_mem : (s.writeReg r v).mem = s.mem := by unfold State.writeReg; split <;> rfl
@[simp] theorem State.writeReg_memBase : (s.writeReg r v).memBase = s.memBase := by
  unfold State.writeReg; split <;> rfl
@[simp] theorem State.writeReg_memSize : (s.writeReg r v).memSize = s.memSize := by
  unfold State.writeReg; split <;> rfl
@[simp] theorem State.writeReg_faultMark : (s.writeReg r v).faultMark = s.faultMark := by
  unfold State.writeReg; split <;> rfl

@[simp] theorem State.writeCsr_regs : (s.writeCsr c v).regs = s.regs := rfl
@[simp] theorem State.writeCsr_pc : (s.writeCsr c v).pc = s.pc := rfl
@[simp] theorem State.writeCsr_csrs : (s.writeCsr c v).csrs = Cells.set s.csrs c.toNat v := rfl
@[simp] theorem State.writeCsr_mem : (s.writeCsr c v).mem = s.mem := rfl
@[simp] theorem State.writeCsr_memBase : (s.writeCsr c v).memBase = s.memBase := rfl
@[simp] theorem State.writeCsr_memSize : (s.writeCsr c v).memSize = s.memSize := rfl
@[simp] theorem State.writeCsr_faultMark : (s.writeCsr c v).faultMark = s.faultMark := rfl

@[simp] theorem State.writeByte_regs : (s.writeByte a b).regs = s.regs := rfl
@[simp] theorem State.writeByte_pc : (s.writeByte a b).pc = s.pc := rfl
@[simp] theorem State.writeByte_csrs : (s.writeByte a b).csrs = s.csrs := rfl
@[simp] theorem State.writeByte_mem : (s.writeByte a b).mem = Cells.set s.mem a.toNat b := rfl
@[simp] theorem State.writeByte_memBase : (s.writeByte a b).memBase = s.memBase := rfl
@[simp] theorem State.writeByte_memSize : (s.writeByte a b).memSize = s.memSize := rfl
@[simp] theorem State.writeByte_faultMark : (s.writeByte a b).faultMark = s.faultMark := rfl

@[simp] theorem State.memWrite_regs : (s.memWrite a v).regs = s.regs := rfl
@[simp] theorem State.memWrite_pc : (s.memWrite a v).pc = s.pc := rfl
@[simp] theorem State.memWrite_csrs : (s.memWrite a v).csrs = s.csrs := rfl
@[simp] theorem State.memWrite_memBase : (s.memWrite a v).memBase = s.memBase := rfl
@[simp] theorem State.memWrite_memSize : (s.memWrite a v).memSize = s.memSize := rfl
@[simp] theorem State.memWrite_faultMark : (s.memWrite a v).faultMark = s.faultMark := rfl

end Sys2Proof.Machine
end

