-- ==== Sys2Proof/Laws/Ops.lean ====
section
/-! SUPPORT. What each operation of Machine/Ops.lean does: reads after writes, frames, and the canonical
forms kept. -/

namespace Sys2Proof.Machine

variable {s : State} {r r' : RegIdx} {c c' : CsrIdx} {a a' t v : Word} {b : Byte} {f : Fault} {n : Nat}

/-! ## Registers -/

@[simp] theorem State.readReg_zero (s : State) : s.readReg 0#5 = 0#32 := rfl

theorem State.readReg_congr {s s' : State} (h : s'.regs = s.regs) (r : RegIdx) : s'.readReg r = s.readReg r := by
  unfold State.readReg; simp only [h]

@[simp] theorem State.readReg_setPc : (s.setPc t).readReg r = s.readReg r := rfl
@[simp] theorem State.readReg_raise : (s.raise f).readReg r = s.readReg r := rfl
@[simp] theorem State.readReg_writeCsr : (s.writeCsr c v).readReg r = s.readReg r := rfl
@[simp] theorem State.readReg_memWrite : (s.memWrite a v).readReg r = s.readReg r := rfl

@[simp] theorem State.writeReg_zero : s.writeReg 0#5 v = s := by simp [State.writeReg]

theorem State.readReg_writeReg_self (h : r ≠ 0#5) : (s.writeReg r v).readReg r = v := by
  unfold State.readReg State.writeReg
  simp [h]

theorem State.readReg_writeReg_other (h : r' ≠ r) : (s.writeReg r v).readReg r' = s.readReg r' := by
  have hn : r.toNat ≠ r'.toNat := fun e => h (BitVec.eq_of_toNat_eq e.symm)
  unfold State.readReg State.writeReg
  split
  · rfl
  · split
    · rfl
    · simp [hn]

/-- Writing never touches slot 0 of the register file. -/
theorem State.writeReg_slotZero : (s.writeReg r v).regs[0] = s.regs[0] := by
  unfold State.writeReg
  split
  · rfl
  · next h =>
    have hn : r.toNat ≠ 0 := fun e => h (BitVec.eq_of_toNat_eq (by simpa using e))
    simp [hn]

/-! ## CSRs -/

@[simp] theorem State.readCsr_setPc : (s.setPc t).readCsr c = s.readCsr c := rfl
@[simp] theorem State.readCsr_raise : (s.raise f).readCsr c = s.readCsr c := rfl
@[simp] theorem State.readCsr_memWrite : (s.memWrite a v).readCsr c = s.readCsr c := rfl
@[simp] theorem State.readCsr_writeReg : (s.writeReg r v).readCsr c = s.readCsr c := by
  simp [State.readCsr]

theorem State.readCsr_writeCsr_self (h : CsrFile.wf s.csrs) : (s.writeCsr c v).readCsr c = v :=
  Cells.get_set_self h

theorem State.readCsr_writeCsr_other (h : c' ≠ c) : (s.writeCsr c v).readCsr c' = s.readCsr c' :=
  Cells.get_set_other fun e => h (BitVec.eq_of_toNat_eq e)

theorem State.writeCsr_wf (h : CsrFile.wf s.csrs) : CsrFile.wf (s.writeCsr c v).csrs :=
  Cells.set_wf h c.isLt

/-! ## Memory -/

@[simp] theorem State.readByte_setPc : (s.setPc t).readByte a = s.readByte a := rfl
@[simp] theorem State.readByte_raise : (s.raise f).readByte a = s.readByte a := rfl
@[simp] theorem State.readByte_writeCsr : (s.writeCsr c v).readByte a = s.readByte a := rfl
@[simp] theorem State.readByte_writeReg : (s.writeReg r v).readByte a = s.readByte a := by
  simp [State.readByte]

@[simp] theorem State.memRead_setPc : (s.setPc t).memRead a = s.memRead a := rfl
@[simp] theorem State.memRead_raise : (s.raise f).memRead a = s.memRead a := rfl
@[simp] theorem State.memRead_writeCsr : (s.writeCsr c v).memRead a = s.memRead a := rfl
@[simp] theorem State.memRead_writeReg : (s.writeReg r v).memRead a = s.memRead a := by
  simp [State.memRead]

theorem State.readByte_writeByte_self (h : Memory.wf s.mem) : (s.writeByte a b).readByte a = b :=
  Cells.get_set_self h

theorem State.readByte_writeByte_other (h : a' ≠ a) : (s.writeByte a b).readByte a' = s.readByte a' :=
  Cells.get_set_other fun e => h (BitVec.eq_of_toNat_eq e)

theorem State.writeByte_wf (h : Memory.wf s.mem) : Memory.wf (s.writeByte a b).mem :=
  Cells.set_wf h a.isLt

/-- Every memory operation keeps the canonical form. -/
theorem State.memWrite_wf (h : Memory.wf s.mem) : Memory.wf (s.memWrite a v).mem :=
  State.writeByte_wf (State.writeByte_wf (State.writeByte_wf (State.writeByte_wf h)))

/-- The four byte addresses of a word differ. -/
theorem byteAddr_ne {j k : Nat} (hj : j < 4) (hk : k < 4) (h : j ≠ k) : byteAddr a j ≠ byteAddr a k := by
  intro e
  have e := congrArg BitVec.toNat e
  simp only [byteAddr, BitVec.toNat_add, BitVec.toNat_ofNat] at e
  have := a.isLt
  omega

@[simp] theorem byteAddr_zero : byteAddr a 0 = a := by simp [byteAddr]

/-- A byte outside the stored word is unchanged (20_memory.md R53). -/
theorem State.readByte_memWrite_other (h : ∀ k < 4, a' ≠ byteAddr a k) :
    (s.memWrite a v).readByte a' = s.readByte a' := by
  have h0 : a' ≠ a := by simpa using h 0 (by omega)
  simp only [State.memWrite]
  rw [State.readByte_writeByte_other (h 3 (by omega)), State.readByte_writeByte_other (h 2 (by omega)),
    State.readByte_writeByte_other (h 1 (by omega)), State.readByte_writeByte_other h0]

/-- Byte `k` of the stored word lies `k` above its address (20_memory.md R53). -/
theorem State.readByte_memWrite_self (hw : Memory.wf s.mem) {k : Nat} (hk : k < 4) :
    (s.memWrite a v).readByte (byteAddr a k) = byteOf v k := by
  have w0 : Memory.wf (s.writeByte a (byteOf v 0)).mem := State.writeByte_wf hw
  have w1 := State.writeByte_wf (a := byteAddr a 1) (b := byteOf v 1) w0
  have w2 := State.writeByte_wf (a := byteAddr a 2) (b := byteOf v 2) w1
  have ne : ∀ j, j < 4 → k ≠ j → byteAddr a k ≠ byteAddr a j := fun j hj h => byteAddr_ne hk hj h
  have n0 : k ≠ 0 → byteAddr a k ≠ a := by simpa using ne 0 (by omega)
  simp only [State.memWrite]
  rcases (show k = 0 ∨ k = 1 ∨ k = 2 ∨ k = 3 by omega) with rfl | rfl | rfl | rfl
  · rw [State.readByte_writeByte_other (ne 3 (by omega) (by omega)),
      State.readByte_writeByte_other (ne 2 (by omega) (by omega)),
      State.readByte_writeByte_other (ne 1 (by omega) (by omega)), byteAddr_zero,
      State.readByte_writeByte_self hw]
  · rw [State.readByte_writeByte_other (ne 3 (by omega) (by omega)),
      State.readByte_writeByte_other (ne 2 (by omega) (by omega)), State.readByte_writeByte_self w0]
  · rw [State.readByte_writeByte_other (ne 3 (by omega) (by omega)), State.readByte_writeByte_self w1]
  · rw [State.readByte_writeByte_self w2]

/-- The bytes of a word, put together again, are the word. -/
theorem wordOfBytes_byteOf (v : Word) :
    wordOfBytes (byteOf v 0) (byteOf v 1) (byteOf v 2) (byteOf v 3) = v := by
  apply BitVec.eq_of_getLsbD_eq
  intro i hi
  simp only [wordOfBytes, byteOf, BitVec.getLsbD_append, BitVec.getLsbD_extractLsb']
  rcases (show i < 8 ∨ (8 ≤ i ∧ i < 16) ∨ (16 ≤ i ∧ i < 24) ∨ 24 ≤ i by omega) with h | h | h | h
  · simp [h]
  · rw [if_neg (by omega), if_pos (by omega)]
    simp only [show i - 8 < 8 by omega, decide_true, Bool.true_and]
    congr 1; omega
  · rw [if_neg (by omega), if_neg (by omega), if_pos (by omega)]
    simp only [show i - 8 - 8 < 8 by omega, decide_true, Bool.true_and]
    congr 1; omega
  · rw [if_neg (by omega), if_neg (by omega), if_neg (by omega)]
    simp only [show i - 8 - 8 - 8 < 8 by omega, decide_true, Bool.true_and]
    congr 1; omega

theorem State.memRead_memWrite_self (hw : Memory.wf s.mem) : (s.memWrite a v).memRead a = v := by
  have h0 := State.readByte_memWrite_self (a := a) (v := v) hw (k := 0) (by omega)
  rw [byteAddr_zero] at h0
  unfold State.memRead
  rw [h0, State.readByte_memWrite_self hw (by omega), State.readByte_memWrite_self hw (by omega),
    State.readByte_memWrite_self hw (by omega), wordOfBytes_byteOf]

/-! ## Admitted accesses -/

theorem State.admitted_iff :
    s.admitted a n = true ↔ s.memBase ≤ a.toNat ∧ a.toNat + n ≤ s.memBase + s.memSize := by
  simp [State.admitted]

@[simp] theorem State.admitted_setPc : (s.setPc t).admitted a n = s.admitted a n := rfl
@[simp] theorem State.admitted_raise : (s.raise f).admitted a n = s.admitted a n := rfl
@[simp] theorem State.admitted_writeCsr : (s.writeCsr c v).admitted a n = s.admitted a n := rfl
@[simp] theorem State.admitted_memWrite : (s.memWrite a' v).admitted a n = s.admitted a n := rfl
@[simp] theorem State.admitted_writeReg : (s.writeReg r v).admitted a n = s.admitted a n := by
  simp [State.admitted]

/-- A byte address inside an admitted word does not wrap. -/
theorem State.byteAddr_toNat (hp : s.memBase + s.memSize ≤ 2 ^ 32) (ha : s.admitted a 4 = true) {k : Nat}
    (hk : k < 4) : (byteAddr a k).toNat = a.toNat + k := by
  have := (State.admitted_iff.mp ha).2
  simp only [byteAddr, BitVec.toNat_add, BitVec.toNat_ofNat]
  omega

/-- A word write lists no byte but the four of its word. -/
theorem State.mem_memWrite {p : Host.Cell} (h : p ∈ (s.memWrite a v).mem) :
    p ∈ s.mem ∨ ∃ k < 4, p.1 = (byteAddr a k).toNat := by
  simp only [State.memWrite, State.writeByte_mem] at h
  rcases Cells.mem_set h with h | ⟨rfl, _⟩
  · rcases Cells.mem_set h with h | ⟨rfl, _⟩
    · rcases Cells.mem_set h with h | ⟨rfl, _⟩
      · rcases Cells.mem_set h with h | ⟨rfl, _⟩
        · exact .inl h
        · exact .inr ⟨0, by omega, by simp⟩
      · exact .inr ⟨1, by omega, rfl⟩
    · exact .inr ⟨2, by omega, rfl⟩
  · exact .inr ⟨3, by omega, rfl⟩

end Sys2Proof.Machine
end

