-- ==== Sys2Proof/Laws/Exec.lean ====
section
/-! SUPPORT. What the shared cycle does, said once: the effect of each builder's descriptor, and the
cases a run descriptor can end in. Proofs about an instruction cite these instead of unfolding. -/

namespace Sys2Proof.Machine

variable (s : State) (rd rs1 rs2 : RegIdx) (imm : Word) (csr : CsrIdx) (f : AluFunc) (g : BrFunc)

theorem normalizeDst_type (d : Descriptor) : d.normalizeDst.type = d.type := by
  unfold Descriptor.normalizeDst; split <;> rfl

/-- Normalising the destination changes nothing the cycle does but suppress a write to `x0`. -/
theorem runDescriptor_normalize (u : UnspecUse → Word) (d : Descriptor) :
    runDescriptor u d.normalizeDst s = runDescriptor u d s := by
  unfold Descriptor.normalizeDst
  split
  · next h =>
    unfold runDescriptor
    have e : execute u { d with dst := none } s.pc (readPorts u { d with dst := none } s) =
        execute u d s.pc (readPorts u d s) := rfl
    rw [e]
    have hr : ∀ e, retire { d with dst := none } e s = retire d e s := by
      intro e
      simp only [retire, dstStep, h, State.writeReg_zero]
      rfl
    rw [hr]
  · rfl

theorem execBuilt_eq (d : Descriptor) :
    execBuilt d s = runDescriptor (fun use => Config.unspec32 use s.pc) d s :=
  runDescriptor_normalize s _ d

/-! ## Steps 6 to 13 for each builder's descriptor, whatever words stand for `UNSPEC32` -/

theorem run_opImm (u : UnspecUse → Word) :
    runDescriptor u (opImmBuilder f rd rs1 imm) s =
      .next ((s.writeReg rd (aluOp f (u .noneResult) (s.readReg rs1) imm)).setPc (s.pc + 4#32)) := rfl

theorem run_op (u : UnspecUse → Word) :
    runDescriptor u (opBuilder f rd rs1 rs2) s =
      .next ((s.writeReg rd (aluOp f (u .noneResult) (s.readReg rs1) (s.readReg rs2))).setPc (s.pc + 4#32)) := rfl

theorem run_lui (u : UnspecUse → Word) :
    runDescriptor u (luiBuilder rd imm) s = .next ((s.writeReg rd imm).setPc (s.pc + 4#32)) := by
  have : execute u (luiBuilder rd imm) s.pc (readPorts u (luiBuilder rd imm) s) =
      { addr := none, data := 0#32 + imm, nextIp := s.pc + 4#32 } := rfl
  rw [BitVec.zero_add] at this
  unfold runDescriptor
  rw [this]; rfl

theorem run_auipc (u : UnspecUse → Word) :
    runDescriptor u (auipcBuilder rd imm) s = .next ((s.writeReg rd (s.pc + imm)).setPc (s.pc + 4#32)) := rfl

theorem run_jal (u : UnspecUse → Word) :
    runDescriptor u (jalBuilder rd imm) s = .next ((s.writeReg rd (s.pc + 4#32)).setPc (s.pc + imm)) := rfl

theorem run_jalr (u : UnspecUse → Word) :
    runDescriptor u (jalrBuilder rd rs1 imm) s =
      .next ((s.writeReg rd (s.pc + 4#32)).setPc (s.readReg rs1 + imm)) := rfl

theorem run_branch (u : UnspecUse → Word) :
    runDescriptor u (branchBuilder (some g) rs1 rs2 imm) s =
      .next (s.setPc (if branchTaken g (s.readReg rs1) (s.readReg rs2) then s.pc + imm else s.pc + 4#32)) := by
  have : runDescriptor u (branchBuilder (some g) rs1 rs2 imm) s =
      .next (s.setPc (match branchTaken g (s.readReg rs1) (s.readReg rs2), some (s.pc + imm) with
        | true, some t => t
        | _, _ => s.pc + 4#32)) := rfl
  rw [this]
  cases branchTaken g (s.readReg rs1) (s.readReg rs2) <;> rfl

theorem run_csrw (u : UnspecUse → Word) :
    runDescriptor u (systemBuilder .csrw 0#5 rs1 csr) s =
      .next ((s.writeCsr csr (s.readReg rs1)).setPc (s.pc + 4#32)) := rfl

theorem run_csrr (u : UnspecUse → Word) :
    runDescriptor u (systemBuilder .csrr rd rs1 csr) s =
      .next ((s.writeReg rd (s.readCsr csr)).setPc (s.pc + 4#32)) := rfl

/-- The outcome of a data access at `a`: a misaligned address, then one not admitted, raises; else `t`. -/
def accessOutcome (s : State) (a : Word) (t : State) : State :=
  if !aligned a then s.raise (.dataMisaligned s.pc a)
  else if !s.admitted a 4 then s.raise (.dataAccess s.pc a)
  else t

theorem runDescriptor_access (u : UnspecUse → Word) (d : Descriptor) {a : Word}
    (h : (execute u d s.pc (readPorts u d s)).addr = some a) :
    runDescriptor u d s =
      .next (accessOutcome s a (retire d (execute u d s.pc (readPorts u d s)) s)) := by
  unfold runDescriptor accessOutcome dataFault
  rw [h]
  dsimp only
  cases aligned a <;> cases s.admitted a 4 <;> rfl

theorem run_load (u : UnspecUse → Word) :
    runDescriptor u (loadBuilder true rd rs1 imm) s =
      .next (accessOutcome s (s.readReg rs1 + imm)
        ((s.writeReg rd (s.memRead (s.readReg rs1 + imm))).setPc (s.pc + 4#32))) := by
  rw [runDescriptor_access (a := s.readReg rs1 + imm) s _ _ rfl]; rfl

theorem run_store (u : UnspecUse → Word) :
    runDescriptor u (storeBuilder true rs1 rs2 imm) s =
      .next (accessOutcome s (s.readReg rs1 + imm)
        ((s.memWrite (s.readReg rs1 + imm) (s.readReg rs2)).setPc (s.pc + 4#32))) := by
  rw [runDescriptor_access (a := s.readReg rs1 + imm) s _ _ rfl]; rfl

/-! ## The same for `execBuilt`, which every meaning calls -/

theorem execBuilt_opImm :
    execBuilt (opImmBuilder f rd rs1 imm) s =
      .next ((s.writeReg rd (aluOp f (Config.unspec32 .noneResult s.pc) (s.readReg rs1) imm)).setPc (s.pc + 4#32)) := by
  rw [execBuilt_eq, run_opImm]

theorem execBuilt_op :
    execBuilt (opBuilder f rd rs1 rs2) s =
      .next ((s.writeReg rd (aluOp f (Config.unspec32 .noneResult s.pc) (s.readReg rs1) (s.readReg rs2))).setPc
        (s.pc + 4#32)) := by
  rw [execBuilt_eq, run_op]

theorem execBuilt_lui :
    execBuilt (luiBuilder rd imm) s = .next ((s.writeReg rd imm).setPc (s.pc + 4#32)) := by
  rw [execBuilt_eq, run_lui]

theorem execBuilt_auipc :
    execBuilt (auipcBuilder rd imm) s = .next ((s.writeReg rd (s.pc + imm)).setPc (s.pc + 4#32)) := by
  rw [execBuilt_eq, run_auipc]

theorem execBuilt_jal :
    execBuilt (jalBuilder rd imm) s = .next ((s.writeReg rd (s.pc + 4#32)).setPc (s.pc + imm)) := by
  rw [execBuilt_eq, run_jal]

theorem execBuilt_jalr :
    execBuilt (jalrBuilder rd rs1 imm) s =
      .next ((s.writeReg rd (s.pc + 4#32)).setPc (s.readReg rs1 + imm)) := by
  rw [execBuilt_eq, run_jalr]

theorem execBuilt_branch :
    execBuilt (branchBuilder (some g) rs1 rs2 imm) s =
      .next (s.setPc (if branchTaken g (s.readReg rs1) (s.readReg rs2) then s.pc + imm else s.pc + 4#32)) := by
  rw [execBuilt_eq, run_branch]

theorem execBuilt_load :
    execBuilt (loadBuilder true rd rs1 imm) s =
      .next (accessOutcome s (s.readReg rs1 + imm)
        ((s.writeReg rd (s.memRead (s.readReg rs1 + imm))).setPc (s.pc + 4#32))) := by
  rw [execBuilt_eq, run_load]

theorem execBuilt_store :
    execBuilt (storeBuilder true rs1 rs2 imm) s =
      .next (accessOutcome s (s.readReg rs1 + imm)
        ((s.memWrite (s.readReg rs1 + imm) (s.readReg rs2)).setPc (s.pc + 4#32))) := by
  rw [execBuilt_eq, run_store]

theorem execBuilt_csrw :
    execBuilt (systemBuilder .csrw 0#5 rs1 csr) s =
      .next ((s.writeCsr csr (s.readReg rs1)).setPc (s.pc + 4#32)) := by
  rw [execBuilt_eq, run_csrw]

theorem execBuilt_csrr :
    execBuilt (systemBuilder .csrr rd 0#5 csr) s =
      .next ((s.writeReg rd (s.readCsr csr)).setPc (s.pc + 4#32)) := by
  rw [execBuilt_eq, run_csrr]

/-- What a run descriptor can end in: its data fault and nothing else, or steps 9 to 13. -/
theorem runDescriptor_cases (u : UnspecUse → Word) (d : Descriptor) :
    (∃ f, dataFault (execute u d s.pc (readPorts u d s)) s = some f ∧ runDescriptor u d s = .next (s.raise f)) ∨
    (dataFault (execute u d s.pc (readPorts u d s)) s = none ∧
      runDescriptor u d s = .next (retire d (execute u d s.pc (readPorts u d s)) s)) := by
  unfold runDescriptor
  split
  · next f h => exact .inl ⟨f, h, rfl⟩
  · next h => exact .inr ⟨h, rfl⟩

end Sys2Proof.Machine
end

