-- ==== Sys2Proof/Laws/Fields.lean ====
section
/-! SUPPORT. Reading a field of an encoded word gives the operand it was built from, and a masked
comparison of the opcode table is a comparison of fields. -/

namespace Sys2Proof

variable (w : Word) (imm : BitVec 12) (immb : BitVec 13) (immj : BitVec 21) (imm20 : BitVec 20)
variable (funct7 : BitVec 7) (rd rs1 rs2 : RegIdx) (funct3 : BitVec 3) (opc : BitVec 7)

/-! ## The R format -/

@[simp] theorem opcodeField_encodeR : opcodeField (encodeR funct7 rs2 rs1 funct3 rd opc) = opc := by
  apply BitVec.eq_of_getLsbD_eq
  intro i hi
  simp only [opcodeField, encodeR, BitVec.getLsbD_extractLsb', BitVec.getLsbD_append]
  interval_cases i <;> rfl

@[simp] theorem rdField_encodeR : rdField (encodeR funct7 rs2 rs1 funct3 rd opc) = rd := by
  apply BitVec.eq_of_getLsbD_eq
  intro i hi
  simp only [rdField, encodeR, BitVec.getLsbD_extractLsb', BitVec.getLsbD_append]
  interval_cases i <;> rfl

@[simp] theorem funct3Field_encodeR : funct3Field (encodeR funct7 rs2 rs1 funct3 rd opc) = funct3 := by
  apply BitVec.eq_of_getLsbD_eq
  intro i hi
  simp only [funct3Field, encodeR, BitVec.getLsbD_extractLsb', BitVec.getLsbD_append]
  interval_cases i <;> rfl

@[simp] theorem rs1Field_encodeR : rs1Field (encodeR funct7 rs2 rs1 funct3 rd opc) = rs1 := by
  apply BitVec.eq_of_getLsbD_eq
  intro i hi
  simp only [rs1Field, encodeR, BitVec.getLsbD_extractLsb', BitVec.getLsbD_append]
  interval_cases i <;> rfl

@[simp] theorem rs2Field_encodeR : rs2Field (encodeR funct7 rs2 rs1 funct3 rd opc) = rs2 := by
  apply BitVec.eq_of_getLsbD_eq
  intro i hi
  simp only [rs2Field, encodeR, BitVec.getLsbD_extractLsb', BitVec.getLsbD_append]
  interval_cases i <;> rfl

@[simp] theorem aluSelBit_encodeR : aluSelBit (encodeR funct7 rs2 rs1 funct3 rd opc) = funct7.getLsbD 5 := by
  have h : ∀ i, i = 30 → (encodeR funct7 rs2 rs1 funct3 rd opc).getLsbD i = funct7.getLsbD (i - 25) := by
    intro i hi
    simp only [encodeR, BitVec.getLsbD_append]
    subst hi
    rfl
  exact h 30 rfl

/-! ## The I format -/

@[simp] theorem opcodeField_encodeI : opcodeField (encodeI imm rs1 funct3 rd opc) = opc := by
  apply BitVec.eq_of_getLsbD_eq
  intro i hi
  simp only [opcodeField, encodeI, BitVec.getLsbD_extractLsb', BitVec.getLsbD_append]
  interval_cases i <;> rfl

@[simp] theorem rdField_encodeI : rdField (encodeI imm rs1 funct3 rd opc) = rd := by
  apply BitVec.eq_of_getLsbD_eq
  intro i hi
  simp only [rdField, encodeI, BitVec.getLsbD_extractLsb', BitVec.getLsbD_append]
  interval_cases i <;> rfl

@[simp] theorem funct3Field_encodeI : funct3Field (encodeI imm rs1 funct3 rd opc) = funct3 := by
  apply BitVec.eq_of_getLsbD_eq
  intro i hi
  simp only [funct3Field, encodeI, BitVec.getLsbD_extractLsb', BitVec.getLsbD_append]
  interval_cases i <;> rfl

@[simp] theorem rs1Field_encodeI : rs1Field (encodeI imm rs1 funct3 rd opc) = rs1 := by
  apply BitVec.eq_of_getLsbD_eq
  intro i hi
  simp only [rs1Field, encodeI, BitVec.getLsbD_extractLsb', BitVec.getLsbD_append]
  interval_cases i <;> rfl

@[simp] theorem immIField_encodeI : immIField (encodeI imm rs1 funct3 rd opc) = imm := by
  apply BitVec.eq_of_getLsbD_eq
  intro i hi
  simp only [immIField, encodeI, BitVec.getLsbD_extractLsb', BitVec.getLsbD_append]
  interval_cases i <;> rfl

/-! ## The S format -/

@[simp] theorem opcodeField_encodeS : opcodeField (encodeS imm rs2 rs1 funct3 opc) = opc := by
  apply BitVec.eq_of_getLsbD_eq
  intro i hi
  simp only [opcodeField, encodeS, BitVec.getLsbD_extractLsb', BitVec.getLsbD_append]
  interval_cases i <;> rfl

@[simp] theorem funct3Field_encodeS : funct3Field (encodeS imm rs2 rs1 funct3 opc) = funct3 := by
  apply BitVec.eq_of_getLsbD_eq
  intro i hi
  simp only [funct3Field, encodeS, BitVec.getLsbD_extractLsb', BitVec.getLsbD_append]
  interval_cases i <;> rfl

@[simp] theorem rs1Field_encodeS : rs1Field (encodeS imm rs2 rs1 funct3 opc) = rs1 := by
  apply BitVec.eq_of_getLsbD_eq
  intro i hi
  simp only [rs1Field, encodeS, BitVec.getLsbD_extractLsb', BitVec.getLsbD_append]
  interval_cases i <;> rfl

@[simp] theorem rs2Field_encodeS : rs2Field (encodeS imm rs2 rs1 funct3 opc) = rs2 := by
  apply BitVec.eq_of_getLsbD_eq
  intro i hi
  simp only [rs2Field, encodeS, BitVec.getLsbD_extractLsb', BitVec.getLsbD_append]
  interval_cases i <;> rfl

@[simp] theorem immSField_encodeS : immSField (encodeS imm rs2 rs1 funct3 opc) = imm := by
  apply BitVec.eq_of_getLsbD_eq
  intro i hi
  simp only [immSField, encodeS, BitVec.getLsbD_extractLsb', BitVec.getLsbD_append]
  interval_cases i <;> rfl

/-! ## The B format -/

@[simp] theorem opcodeField_encodeB : opcodeField (encodeB immb rs2 rs1 funct3 opc) = opc := by
  apply BitVec.eq_of_getLsbD_eq
  intro i hi
  simp only [opcodeField, encodeB, BitVec.getLsbD_extractLsb', BitVec.getLsbD_append]
  interval_cases i <;> rfl

@[simp] theorem funct3Field_encodeB : funct3Field (encodeB immb rs2 rs1 funct3 opc) = funct3 := by
  apply BitVec.eq_of_getLsbD_eq
  intro i hi
  simp only [funct3Field, encodeB, BitVec.getLsbD_extractLsb', BitVec.getLsbD_append]
  interval_cases i <;> rfl

@[simp] theorem rs1Field_encodeB : rs1Field (encodeB immb rs2 rs1 funct3 opc) = rs1 := by
  apply BitVec.eq_of_getLsbD_eq
  intro i hi
  simp only [rs1Field, encodeB, BitVec.getLsbD_extractLsb', BitVec.getLsbD_append]
  interval_cases i <;> rfl

@[simp] theorem rs2Field_encodeB : rs2Field (encodeB immb rs2 rs1 funct3 opc) = rs2 := by
  apply BitVec.eq_of_getLsbD_eq
  intro i hi
  simp only [rs2Field, encodeB, BitVec.getLsbD_extractLsb', BitVec.getLsbD_append]
  interval_cases i <;> rfl

theorem immBField_encodeB (h : immb.getLsbD 0 = false) :
    immBField (encodeB immb rs2 rs1 funct3 opc) = immb := by
  apply BitVec.eq_of_getLsbD_eq
  intro i hi
  simp only [immBField, encodeB, BitVec.getLsbD_extractLsb', BitVec.getLsbD_append]
  interval_cases i
  · rw [h]; rfl
  all_goals rfl

/-! ## The U and J formats -/

@[simp] theorem opcodeField_encodeU : opcodeField (encodeU imm20 rd opc) = opc := by
  apply BitVec.eq_of_getLsbD_eq
  intro i hi
  simp only [opcodeField, encodeU, BitVec.getLsbD_extractLsb', BitVec.getLsbD_append]
  interval_cases i <;> rfl

@[simp] theorem rdField_encodeU : rdField (encodeU imm20 rd opc) = rd := by
  apply BitVec.eq_of_getLsbD_eq
  intro i hi
  simp only [rdField, encodeU, BitVec.getLsbD_extractLsb', BitVec.getLsbD_append]
  interval_cases i <;> rfl

@[simp] theorem immUField_encodeU : immUField (encodeU imm20 rd opc) = imm20 := by
  apply BitVec.eq_of_getLsbD_eq
  intro i hi
  simp only [immUField, encodeU, BitVec.getLsbD_extractLsb', BitVec.getLsbD_append]
  interval_cases i <;> rfl

@[simp] theorem opcodeField_encodeJ : opcodeField (encodeJ immj rd opc) = opc := by
  apply BitVec.eq_of_getLsbD_eq
  intro i hi
  simp only [opcodeField, encodeJ, BitVec.getLsbD_extractLsb', BitVec.getLsbD_append]
  interval_cases i <;> rfl

@[simp] theorem rdField_encodeJ : rdField (encodeJ immj rd opc) = rd := by
  apply BitVec.eq_of_getLsbD_eq
  intro i hi
  simp only [rdField, encodeJ, BitVec.getLsbD_extractLsb', BitVec.getLsbD_append]
  interval_cases i <;> rfl

theorem immJField_encodeJ (h : immj.getLsbD 0 = false) : immJField (encodeJ immj rd opc) = immj := by
  apply BitVec.eq_of_getLsbD_eq
  intro i hi
  simp only [immJField, encodeJ, BitVec.getLsbD_extractLsb', BitVec.getLsbD_append]
  interval_cases i
  · rw [h]; rfl
  all_goals rfl

/-! ## Rows of the opcode table as fields -/

/-- A masked comparison, bit by bit. -/
theorem rowMatches_iff (mask pattern : Word) :
    rowMatches w mask pattern = true ↔
      ∀ i < 32, (w.getLsbD i && mask.getLsbD i) = pattern.getLsbD i := by
  simp only [rowMatches, beq_iff_eq]
  constructor
  · rintro rfl i _; simp
  · intro h
    apply BitVec.eq_of_getLsbD_eq
    intro i hi
    rw [BitVec.getLsbD_and]
    exact h i hi

/-- A field equals a value exactly when its bits do. -/
theorem field_eq_iff {n : Nat} (lo : Nat) (c : BitVec n) :
    w.extractLsb' lo n = c ↔ ∀ i < n, w.getLsbD (lo + i) = c.getLsbD i := by
  constructor
  · rintro rfl i hi
    simp [hi]
  · intro h
    apply BitVec.eq_of_getLsbD_eq
    intro i hi
    simp only [BitVec.getLsbD_extractLsb', hi, decide_true, Bool.true_and]
    exact h i hi

theorem row_opcode_iff (c : BitVec 7) :
    rowMatches w 0x7F#32 (c.setWidth 32) = true ↔ opcodeField w = c := by
  rw [rowMatches_iff, opcodeField, field_eq_iff]
  constructor
  · intro h i hi
    have := h i (by omega)
    interval_cases i <;> simpa using this
  · intro h i hi
    by_cases h7 : i < 7
    · have := h i h7
      interval_cases i <;> simpa using this
    · interval_cases i <;> first | omega | simp

theorem row_funct3_iff (f : BitVec 3) (c : BitVec 7) :
    rowMatches w 0x707F#32 ((f ++ 0#5 ++ c).setWidth 32) = true ↔ opcodeField w = c ∧ funct3Field w = f := by
  rw [rowMatches_iff, opcodeField, funct3Field, field_eq_iff, field_eq_iff]
  constructor
  · intro h
    refine ⟨fun i hi => ?_, fun i hi => ?_⟩
    · have := h i (by omega)
      simp only [BitVec.getLsbD_setWidth, BitVec.getLsbD_append] at this
      interval_cases i <;> simpa using this
    · have := h (12 + i) (by omega)
      simp only [BitVec.getLsbD_setWidth, BitVec.getLsbD_append] at this
      interval_cases i <;> simpa using this
  · rintro ⟨h, h'⟩ i hi
    simp only [BitVec.getLsbD_setWidth, BitVec.getLsbD_append]
    by_cases h7 : i < 7
    · have := h i h7
      interval_cases i <;> simpa using this
    · by_cases h12 : 12 ≤ i ∧ i < 15
      · have := h' (i - 12) (by omega)
        obtain ⟨h1, h2⟩ := h12
        interval_cases i <;> simpa using this
      · interval_cases i <;> first | omega | simp

theorem row_funct3_aluSel_iff (f : BitVec 3) (b : Bool) (c : BitVec 7) :
    rowMatches w 0x4000707F#32 ((f ++ 0#5 ++ c).setWidth 32 ||| (if b then 0x40000000#32 else 0#32)) = true ↔
      opcodeField w = c ∧ funct3Field w = f ∧ aluSelBit w = b := by
  rw [rowMatches_iff, opcodeField, funct3Field, field_eq_iff, field_eq_iff, aluSelBit]
  have hb : ∀ i, (if b then 0x40000000#32 else 0#32).getLsbD i = (b && decide (i = 30)) := by
    intro i
    cases b
    · simp
    · by_cases hi : i < 32
      · interval_cases i <;> rfl
      · simp [BitVec.getLsbD_of_ge _ _ (Nat.le_of_not_lt hi), show i ≠ 30 by omega]
  simp only [BitVec.getLsbD_or, hb, BitVec.getLsbD_setWidth, BitVec.getLsbD_append]
  constructor
  · intro h
    refine ⟨fun i hi => ?_, fun i hi => ?_, ?_⟩
    · have := h i (by omega)
      interval_cases i <;> simpa using this
    · have := h (12 + i) (by omega)
      interval_cases i <;> simpa using this
    · simpa using h 30 (by omega)
  · rintro ⟨h, h', h''⟩ i hi
    by_cases h7 : i < 7
    · have := h i h7
      interval_cases i <;> simpa using this
    · by_cases h12 : 12 ≤ i ∧ i < 15
      · have := h' (i - 12) (by omega)
        obtain ⟨h1, h2⟩ := h12
        interval_cases i <;> simpa using this
      · by_cases h30 : i = 30
        · subst h30; simpa using h''
        · interval_cases i <;> first | omega | simp

theorem row_csrw_iff :
    rowMatches w 0x7FFF#32 0x1073#32 = true ↔ opcodeField w = 0x73#7 ∧ funct3Field w = 1#3 ∧ rdField w = 0#5 := by
  rw [rowMatches_iff, opcodeField, funct3Field, rdField, field_eq_iff, field_eq_iff, field_eq_iff]
  constructor
  · intro h
    refine ⟨fun i hi => ?_, fun i hi => ?_, fun i hi => ?_⟩
    · have := h i (by omega)
      interval_cases i <;> simpa using this
    · have := h (12 + i) (by omega)
      interval_cases i <;> simpa using this
    · have := h (7 + i) (by omega)
      interval_cases i <;> simpa using this
  · rintro ⟨h, h', h''⟩ i hi
    by_cases h7 : i < 7
    · have := h i h7
      interval_cases i <;> simpa using this
    · by_cases h12 : i < 12
      · have := h'' (i - 7) (by omega)
        interval_cases i <;> first | omega | simpa using this
      · by_cases h15 : i < 15
        · have := h' (i - 12) (by omega)
          interval_cases i <;> first | omega | simpa using this
        · interval_cases i <;> first | omega | simp

theorem row_csrr_iff :
    rowMatches w 0xFF07F#32 0x2073#32 = true ↔ opcodeField w = 0x73#7 ∧ funct3Field w = 2#3 ∧ rs1Field w = 0#5 := by
  rw [rowMatches_iff, opcodeField, funct3Field, rs1Field, field_eq_iff, field_eq_iff, field_eq_iff]
  constructor
  · intro h
    refine ⟨fun i hi => ?_, fun i hi => ?_, fun i hi => ?_⟩
    · have := h i (by omega)
      interval_cases i <;> simpa using this
    · have := h (12 + i) (by omega)
      interval_cases i <;> simpa using this
    · have := h (15 + i) (by omega)
      interval_cases i <;> simpa using this
  · rintro ⟨h, h', h''⟩ i hi
    by_cases h7 : i < 7
    · have := h i h7
      interval_cases i <;> simpa using this
    · by_cases h12 : i < 12
      · interval_cases i <;> first | omega | simp
      · by_cases h15 : i < 15
        · have := h' (i - 12) (by omega)
          interval_cases i <;> first | omega | simpa using this
        · by_cases h20 : i < 20
          · have := h'' (i - 15) (by omega)
            interval_cases i <;> first | omega | simpa using this
          · interval_cases i <;> first | omega | simp

theorem row_branch_iff :
    rowMatches w 0x607F#32 0x2063#32 = true ↔
      opcodeField w = 0x63#7 ∧ (funct3Field w = 2#3 ∨ funct3Field w = 3#3) := by
  have h2 : ∀ f : BitVec 3, f = 2#3 ∨ f = 3#3 ↔ f.getLsbD 1 = true ∧ f.getLsbD 2 = false := by decide
  have e1 : (funct3Field w).getLsbD 1 = w.getLsbD 13 := by simp [funct3Field]
  have e2 : (funct3Field w).getLsbD 2 = w.getLsbD 14 := by simp [funct3Field]
  rw [h2, e1, e2, rowMatches_iff, opcodeField, field_eq_iff]
  constructor
  · intro h
    refine ⟨fun i hi => ?_, ?_, ?_⟩
    · have := h i (by omega)
      interval_cases i <;> simpa using this
    · simpa using h 13 (by omega)
    · simpa using h 14 (by omega)
  · rintro ⟨h, h', h''⟩ i hi
    by_cases h7 : i < 7
    · have := h i h7
      interval_cases i <;> simpa using this
    · by_cases h13 : i = 13
      · subst h13; simpa using h'
      · by_cases h14 : i = 14
        · subst h14; simpa using h''
        · interval_cases i <;> first | omega | simp

/-- An opcode of no class, as the well-formedness check writes it. -/
theorem opcodeClass_unknown_iff :
    opcodeClassCodes.contains (w &&& 0x7F#32) = false ↔ opcodeClass (opcodeField w) = .unknown := by
  have e : w &&& 0x7F#32 = (opcodeField w).setWidth 32 := by
    apply BitVec.eq_of_getLsbD_eq
    intro i hi
    simp only [opcodeField, BitVec.getLsbD_and, BitVec.getLsbD_setWidth, BitVec.getLsbD_extractLsb']
    interval_cases i <;> simp
  have h : ∀ c : BitVec 7, opcodeClassCodes.contains (c.setWidth 32) = false ↔ opcodeClass c = .unknown := by
    decide
  rw [e]
  exact h _

end Sys2Proof
end

