-- ==== Sys2Proof/Laws/Immediates.lean ====
section
/-! SUPPORT. The immediates CORE's `decode` assembles are the sign-extended fields the instructions carry
(30_encoding.md R80 to R86). -/

namespace Sys2Proof.Machine

/-- The bits of `w[hi:lo]`. -/
theorem bits_getLsbD (w : Word) {hi lo i : Nat} (h : lo ≤ hi) (hh : hi < 32) :
    (bits w hi lo).getLsbD i = (decide (i ≤ hi - lo) && w.getLsbD (lo + i)) := by
  have hm : ∀ n < 33, ∀ i < 32, ((1#32 <<< n) - 1#32).getLsbD i = decide (i < n) := by decide
  simp only [bits, BitVec.getLsbD_and, BitVec.getLsbD_ushiftRight]
  by_cases hi32 : i < 32
  · rw [hm _ (by omega) _ hi32, Bool.and_comm]
    congr 1
    simp only [decide_eq_decide]; omega
  · rw [BitVec.getLsbD_of_ge _ i (by omega)]
    simp only [Bool.and_false, Bool.false_eq, Bool.and_eq_false_imp, decide_eq_true_eq]
    omega

/-- The word of ones above bit `sbit`. -/
theorem ones_above (sbit : Nat) (h : sbit < 31) (i : Nat) :
    (0xFFFFFFFF#32 <<< (sbit + 1)).getLsbD i = decide (sbit < i ∧ i < 32) := by
  by_cases hi : i < 32
  · have : ∀ s < 31, ∀ i < 32, (0xFFFFFFFF#32 <<< (s + 1)).getLsbD i = decide (s < i ∧ i < 32) := by decide
    exact this _ h _ hi
  · rw [BitVec.getLsbD_of_ge _ i (by omega)]; simp [hi]

/-- `signExtend(v, sbit)` on a value of `sbit + 1` bits is two's-complement extension (30_encoding.md R84). -/
theorem signExtendAt_setWidth {n : Nat} (h0 : 0 < n) (h : n < 32) (v : BitVec n) :
    signExtendAt (v.setWidth 32) (n - 1) = v.signExtend 32 := by
  have hb : bits (v.setWidth 32) (n - 1) (n - 1) = if v.msb then 1#32 else 0#32 := by
    apply BitVec.eq_of_getLsbD_eq
    intro i hi
    rw [bits_getLsbD _ (by omega) (by omega), BitVec.msb_eq_getLsbD_last]
    by_cases h0 : i = 0
    · subst h0
      simp only [BitVec.getLsbD_setWidth]
      cases v.getLsbD (n - 1) <;> (simp; try omega)
    · cases v.getLsbD (n - 1) <;> simp [h0]
  rw [signExtendAt, hb]
  cases hm : v.msb
  · simp only [Bool.false_eq_true, ↓reduceIte, BitVec.mul_zero, BitVec.add_zero]
    rw [BitVec.signExtend_eq_setWidth_of_msb_false hm]
  · simp only [↓reduceIte, BitVec.mul_one]
    have hd : v.setWidth 32 &&& (0xFFFFFFFF#32 <<< (n - 1 + 1)) = 0#32 := by
      apply BitVec.eq_of_getLsbD_eq
      intro i hi
      rw [BitVec.getLsbD_and, ones_above _ (by omega), BitVec.getLsbD_setWidth]
      by_cases hn : i < n
      · simp only [show ¬ (n - 1 < i ∧ i < 32) by omega, decide_false, Bool.and_false, BitVec.getLsbD_zero]
      · rw [BitVec.getLsbD_of_ge v i (by omega)]; simp
    rw [BitVec.add_eq_or_of_and_eq_zero _ _ hd]
    apply BitVec.eq_of_getLsbD_eq
    intro i hi
    rw [BitVec.getLsbD_or, ones_above _ (by omega), BitVec.getLsbD_setWidth, BitVec.getLsbD_signExtend, hm]
    by_cases hn : i < n
    · simp only [hi, hn, decide_true, Bool.true_and, ↓reduceIte]
      simp only [show ¬ (n - 1 < i) by omega, false_and, decide_false, Bool.or_false]
    · simp only [hi, hn, decide_true, Bool.true_and, ↓reduceIte]
      simp only [show n - 1 < i by omega, and_self, decide_true, Bool.or_true]

theorem immI_eq (w : Word) : immI w = (immIField w).signExtend 32 := by
  rw [← signExtendAt_setWidth (by omega) (by omega)]
  unfold immI
  congr 1
  apply BitVec.eq_of_getLsbD_eq
  intro i hi
  rw [bits_getLsbD _ (by omega) (by omega)]
  simp only [immIField, BitVec.getLsbD_setWidth, BitVec.getLsbD_extractLsb', hi, decide_true, Bool.true_and]
  congr 1
  simp only [decide_eq_decide]; omega

theorem immS_eq (w : Word) : immS w = (immSField w).signExtend 32 := by
  rw [← signExtendAt_setWidth (by omega) (by omega)]
  unfold immS
  congr 1
  apply BitVec.eq_of_getLsbD_eq
  intro i hi
  simp only [immSField, BitVec.getLsbD_or, BitVec.getLsbD_shiftLeft, BitVec.getLsbD_setWidth,
    BitVec.getLsbD_append, BitVec.getLsbD_extractLsb']
  rw [bits_getLsbD _ (by omega) (by omega), bits_getLsbD _ (by omega) (by omega)]
  interval_cases i <;> simp

theorem immB_eq (w : Word) : immB w = (immBField w).signExtend 32 := by
  rw [← signExtendAt_setWidth (by omega) (by omega)]
  unfold immB
  congr 1
  apply BitVec.eq_of_getLsbD_eq
  intro i hi
  simp only [immBField, BitVec.getLsbD_or, BitVec.getLsbD_shiftLeft, BitVec.getLsbD_setWidth,
    BitVec.getLsbD_append, BitVec.getLsbD_extractLsb']
  rw [bits_getLsbD _ (by omega) (by omega), bits_getLsbD _ (by omega) (by omega),
    bits_getLsbD _ (by omega) (by omega), bits_getLsbD _ (by omega) (by omega)]
  interval_cases i <;> simp

theorem immJ_eq (w : Word) : immJ w = (immJField w).signExtend 32 := by
  rw [← signExtendAt_setWidth (by omega) (by omega)]
  unfold immJ
  congr 1
  apply BitVec.eq_of_getLsbD_eq
  intro i hi
  simp only [immJField, BitVec.getLsbD_or, BitVec.getLsbD_shiftLeft, BitVec.getLsbD_setWidth,
    BitVec.getLsbD_append, BitVec.getLsbD_extractLsb']
  rw [bits_getLsbD _ (by omega) (by omega), bits_getLsbD _ (by omega) (by omega),
    bits_getLsbD _ (by omega) (by omega), bits_getLsbD _ (by omega) (by omega)]
  interval_cases i <;> simp

theorem immU_eq (w : Word) : immU w = immUField w ++ 0#12 := by
  have h12 : ∀ i < 32, (0xFFFFF000#32).getLsbD i = decide (12 ≤ i) := by decide
  apply BitVec.eq_of_getLsbD_eq
  intro i hi
  simp only [immU, immUField, BitVec.getLsbD_and, BitVec.getLsbD_append, BitVec.getLsbD_extractLsb',
    h12 i hi]
  by_cases h : i < 12
  · simp [h]
  · simp only [h, ↓reduceIte, show i - 12 < 20 by omega, decide_true, Bool.true_and,
      show 12 ≤ i by omega, Bool.and_true]
    congr 1; omega

/-- The masked immediate of a right shift is the five-bit amount (30_encoding.md R86). -/
theorem immI_masked (w : Word) : immI w &&& 0x1F#32 = (rs2Field w).zeroExtend 32 := by
  have h5 : ∀ i < 32, (0x1F#32).getLsbD i = decide (i < 5) := by decide
  rw [immI_eq]
  apply BitVec.eq_of_getLsbD_eq
  intro i hi
  simp only [BitVec.getLsbD_and, h5 i hi, rs2Field, immIField, BitVec.getLsbD_signExtend,
    BitVec.getLsbD_setWidth, BitVec.getLsbD_extractLsb', BitVec.zeroExtend]
  by_cases h : i < 5
  · simp [h, hi, show i < 12 by omega]
  · simp [h]

end Sys2Proof.Machine
end

