-- ==== Sys2Proof/Laws/PerInstr.lean ====
section
/-! SUPPORT. Decoding the canonical word of a well-formed instruction gives it back, one lemma per
constructor of Instr. -/

namespace Sys2Proof.Laws.RoundTrip

/-- Decode of encode is the identity on a well-formed instruction. -/
def Statement (i : Instr) : Prop := i.wellFormed = true → decodeWord (encode i) = i

theorem addi (rd rs1 : RegIdx) (imm : BitVec 12) : Statement (.addi rd rs1 imm) := by
  intro _; simp [encode, decodeWord, opcodeClass, decodeOpImm]

theorem slti (rd rs1 : RegIdx) (imm : BitVec 12) : Statement (.slti rd rs1 imm) := by
  intro _; simp [encode, decodeWord, opcodeClass, decodeOpImm]

theorem sltiu (rd rs1 : RegIdx) (imm : BitVec 12) : Statement (.sltiu rd rs1 imm) := by
  intro _; simp [encode, decodeWord, opcodeClass, decodeOpImm]

theorem xori (rd rs1 : RegIdx) (imm : BitVec 12) : Statement (.xori rd rs1 imm) := by
  intro _; simp [encode, decodeWord, opcodeClass, decodeOpImm]

theorem ori (rd rs1 : RegIdx) (imm : BitVec 12) : Statement (.ori rd rs1 imm) := by
  intro _; simp [encode, decodeWord, opcodeClass, decodeOpImm]

theorem andi (rd rs1 : RegIdx) (imm : BitVec 12) : Statement (.andi rd rs1 imm) := by
  intro _; simp [encode, decodeWord, opcodeClass, decodeOpImm]

theorem slli (rd rs1 : RegIdx) (imm : BitVec 12) : Statement (.slli rd rs1 imm) := by
  intro _; simp [encode, decodeWord, opcodeClass, decodeOpImm]

theorem srli (rd rs1 : RegIdx) (shamt : BitVec 5) : Statement (.srli rd rs1 shamt) := by
  intro _; simp [encode, decodeWord, opcodeClass, decodeOpImm]

theorem srai (rd rs1 : RegIdx) (shamt : BitVec 5) : Statement (.srai rd rs1 shamt) := by
  intro _; simp [encode, decodeWord, opcodeClass, decodeOpImm]

theorem add (rd rs1 rs2 : RegIdx) : Statement (.add rd rs1 rs2) := by
  intro _; simp [encode, decodeWord, opcodeClass, decodeOp]

theorem sub (rd rs1 rs2 : RegIdx) : Statement (.sub rd rs1 rs2) := by
  intro _; simp [encode, decodeWord, opcodeClass, decodeOp]

theorem sll (rd rs1 rs2 : RegIdx) : Statement (.sll rd rs1 rs2) := by
  intro _; simp [encode, decodeWord, opcodeClass, decodeOp]

theorem slt (rd rs1 rs2 : RegIdx) : Statement (.slt rd rs1 rs2) := by
  intro _; simp [encode, decodeWord, opcodeClass, decodeOp]

theorem sltu (rd rs1 rs2 : RegIdx) : Statement (.sltu rd rs1 rs2) := by
  intro _; simp [encode, decodeWord, opcodeClass, decodeOp]

theorem xor (rd rs1 rs2 : RegIdx) : Statement (.xor rd rs1 rs2) := by
  intro _; simp [encode, decodeWord, opcodeClass, decodeOp]

theorem srl (rd rs1 rs2 : RegIdx) : Statement (.srl rd rs1 rs2) := by
  intro _; simp [encode, decodeWord, opcodeClass, decodeOp]

theorem sra (rd rs1 rs2 : RegIdx) : Statement (.sra rd rs1 rs2) := by
  intro _; simp [encode, decodeWord, opcodeClass, decodeOp]

theorem or (rd rs1 rs2 : RegIdx) : Statement (.or rd rs1 rs2) := by
  intro _; simp [encode, decodeWord, opcodeClass, decodeOp]

theorem and (rd rs1 rs2 : RegIdx) : Statement (.and rd rs1 rs2) := by
  intro _; simp [encode, decodeWord, opcodeClass, decodeOp]

theorem lui (rd : RegIdx) (imm20 : BitVec 20) : Statement (.lui rd imm20) := by
  intro _; simp [encode, decodeWord, opcodeClass]

theorem auipc (rd : RegIdx) (imm20 : BitVec 20) : Statement (.auipc rd imm20) := by
  intro _; simp [encode, decodeWord, opcodeClass]

theorem jal (rd : RegIdx) (offset : BitVec 21) : Statement (.jal rd offset) := by
  intro h; simp [encode, decodeWord, opcodeClass, immJField_encodeJ _ _ _ (by simpa [Instr.wellFormed] using h)]

theorem jalr (rd rs1 : RegIdx) (imm : BitVec 12) : Statement (.jalr rd rs1 imm) := by
  intro _; simp [encode, decodeWord, opcodeClass]

theorem beq (rs1 rs2 : RegIdx) (offset : BitVec 13) : Statement (.beq rs1 rs2 offset) := by
  intro h
  simp [encode, decodeWord, opcodeClass, decodeBranch,
    immBField_encodeB _ _ _ _ _ (by simpa [Instr.wellFormed] using h)]

theorem bne (rs1 rs2 : RegIdx) (offset : BitVec 13) : Statement (.bne rs1 rs2 offset) := by
  intro h
  simp [encode, decodeWord, opcodeClass, decodeBranch,
    immBField_encodeB _ _ _ _ _ (by simpa [Instr.wellFormed] using h)]

theorem blt (rs1 rs2 : RegIdx) (offset : BitVec 13) : Statement (.blt rs1 rs2 offset) := by
  intro h
  simp [encode, decodeWord, opcodeClass, decodeBranch,
    immBField_encodeB _ _ _ _ _ (by simpa [Instr.wellFormed] using h)]

theorem bge (rs1 rs2 : RegIdx) (offset : BitVec 13) : Statement (.bge rs1 rs2 offset) := by
  intro h
  simp [encode, decodeWord, opcodeClass, decodeBranch,
    immBField_encodeB _ _ _ _ _ (by simpa [Instr.wellFormed] using h)]

theorem bltu (rs1 rs2 : RegIdx) (offset : BitVec 13) : Statement (.bltu rs1 rs2 offset) := by
  intro h
  simp [encode, decodeWord, opcodeClass, decodeBranch,
    immBField_encodeB _ _ _ _ _ (by simpa [Instr.wellFormed] using h)]

theorem bgeu (rs1 rs2 : RegIdx) (offset : BitVec 13) : Statement (.bgeu rs1 rs2 offset) := by
  intro h
  simp [encode, decodeWord, opcodeClass, decodeBranch,
    immBField_encodeB _ _ _ _ _ (by simpa [Instr.wellFormed] using h)]

theorem lw (rd rs1 : RegIdx) (imm : BitVec 12) : Statement (.lw rd rs1 imm) := by
  intro _; simp [encode, decodeWord, opcodeClass, decodeLoad]

theorem sw (rs1 rs2 : RegIdx) (imm : BitVec 12) : Statement (.sw rs1 rs2 imm) := by
  intro _; simp [encode, decodeWord, opcodeClass, decodeStore]

theorem csrw (csr : CsrIdx) (rs1 : RegIdx) : Statement (.csrw csr rs1) := by
  intro _; simp [encode, decodeWord, opcodeClass, decodeSystem]

theorem csrr (rd : RegIdx) (csr : CsrIdx) : Statement (.csrr rd csr) := by
  intro _; simp [encode, decodeWord, opcodeClass, decodeSystem]

theorem unsupportedBranch (word : Word) : Statement (.unsupportedBranch word) := by
  intro h
  obtain ⟨ho, hf⟩ := (row_branch_iff word).mp h
  rcases hf with hf | hf <;> simp [encode, decodeWord, ho, opcodeClass, decodeBranch, hf]

theorem unsupportedLoad (word : Word) : Statement (.unsupportedLoad word) := by
  intro h
  simp only [Instr.wellFormed, Bool.and_eq_true, Bool.not_eq_true'] at h
  have ho := (row_opcode_iff word 0x03#7).mp h.1
  have hf : funct3Field word ≠ 2#3 := fun hf => by
    have := (row_funct3_iff word 2#3 0x03#7).mpr ⟨ho, hf⟩
    exact Bool.false_ne_true (h.2.symm.trans this)
  simp [encode, decodeWord, ho, opcodeClass, decodeLoad, hf]

theorem unsupportedStore (word : Word) : Statement (.unsupportedStore word) := by
  intro h
  simp only [Instr.wellFormed, Bool.and_eq_true, Bool.not_eq_true'] at h
  have ho := (row_opcode_iff word 0x23#7).mp h.1
  have hf : funct3Field word ≠ 2#3 := fun hf => by
    have := (row_funct3_iff word 2#3 0x23#7).mpr ⟨ho, hf⟩
    exact Bool.false_ne_true (h.2.symm.trans this)
  simp [encode, decodeWord, ho, opcodeClass, decodeStore, hf]

theorem unsupportedSystem (word : Word) : Statement (.unsupportedSystem word) := by
  intro h
  simp only [Instr.wellFormed, Bool.and_eq_true, Bool.not_eq_true'] at h
  have ho := (row_opcode_iff word 0x73#7).mp h.1.1
  have hw : ¬ (funct3Field word = 1#3 ∧ rdField word = 0#5) := fun hf =>
    Bool.false_ne_true (h.1.2.symm.trans ((row_csrw_iff word).mpr ⟨ho, hf⟩))
  have hr : ¬ (funct3Field word = 2#3 ∧ rs1Field word = 0#5) := fun hf =>
    Bool.false_ne_true (h.2.symm.trans ((row_csrr_iff word).mpr ⟨ho, hf⟩))
  simp [encode, decodeWord, ho, opcodeClass, decodeSystem, hw, hr]

theorem unsupportedMiscMem (word : Word) : Statement (.unsupportedMiscMem word) := by
  intro h
  have ho := (row_opcode_iff word 0x0F#7).mp h
  simp [encode, decodeWord, ho, opcodeClass]

theorem unsupportedAmo (word : Word) : Statement (.unsupportedAmo word) := by
  intro h
  have ho := (row_opcode_iff word 0x2F#7).mp h
  simp [encode, decodeWord, ho, opcodeClass]

theorem unsupportedUnknown (word : Word) : Statement (.unsupportedUnknown word) := by
  intro h
  simp only [Instr.wellFormed, Bool.not_eq_true'] at h
  simp [encode, decodeWord, (opcodeClass_unknown_iff word).mp h]

end Sys2Proof.Laws.RoundTrip
end

