-- ==== Sys2Proof/Laws/Step.lean ====
section
/-! SUPPORT. What a step and an instruction can do, said once: later proofs cite these and unfold neither. -/

namespace Sys2Proof.Machine

variable (s : State)

/-- A step from a state with a fault mark, at a bad `pc`, or of the decoded instruction. -/
theorem step_cases :
    (∃ f, s.faultMark = some f ∧ step s = .fault f) ∨
    (s.faultMark = none ∧ aligned s.pc = false ∧ step s = .next (s.raise (.fetchMisaligned s.pc))) ∨
    (s.faultMark = none ∧ aligned s.pc = true ∧ s.admitted s.pc 4 = false ∧
      step s = .next (s.raise (.fetchAccess s.pc))) ∨
    (s.faultMark = none ∧ aligned s.pc = true ∧ s.admitted s.pc 4 = true ∧
      step s = exec (decodeWord (s.memRead s.pc)) s) := by
  unfold step
  cases hf : s.faultMark with
  | some f => exact .inl ⟨f, rfl, rfl⟩
  | none =>
    cases ha : aligned s.pc
    · exact .inr (.inl ⟨rfl, rfl, rfl⟩)
    · cases hm : s.admitted s.pc 4
      · exact .inr (.inr (.inl ⟨rfl, rfl, rfl, rfl⟩))
      · exact .inr (.inr (.inr ⟨rfl, rfl, rfl, rfl⟩))

/-- The outcome of a data access, by its address. -/
theorem accessOutcome_cases (a : Word) (t : State) :
    (aligned a = false ∧ accessOutcome s a t = s.raise (.dataMisaligned s.pc a)) ∨
    (aligned a = true ∧ s.admitted a 4 = false ∧ accessOutcome s a t = s.raise (.dataAccess s.pc a)) ∨
    (aligned a = true ∧ s.admitted a 4 = true ∧ accessOutcome s a t = t) := by
  unfold accessOutcome
  cases aligned a
  · exact .inl ⟨rfl, rfl⟩
  · cases s.admitted a 4
    · exact .inr (.inl ⟨rfl, rfl, rfl⟩)
    · exact .inr (.inr ⟨rfl, rfl, rfl⟩)

/-- What an instruction can do. It raises the fault of a word with no meaning; or the fault of its data
address; or, its address (if it has one) being good, it writes a register and moves `pc`, stores a word at
its address, or writes a CSR. A branch is the second of these with register 0. -/
theorem exec_effect (i : Instr) :
    (∃ w, unsupportedWord i = some w ∧ exec i s = .next (s.raise (.unsupportedInstruction s.pc w))) ∨
    (unsupportedWord i = none ∧ ∃ a, s.dataAddr i = some a ∧
      ((aligned a = false ∧ exec i s = .next (s.raise (.dataMisaligned s.pc a))) ∨
        (aligned a = true ∧ s.admitted a 4 = false ∧ exec i s = .next (s.raise (.dataAccess s.pc a))))) ∨
    (unsupportedWord i = none ∧ (∀ a, s.dataAddr i = some a → aligned a = true ∧ s.admitted a 4 = true) ∧
      ((∃ rd v n, exec i s = .next ((s.writeReg rd v).setPc n)) ∨
        (∃ rs1 rs2 imm, i = .sw rs1 rs2 imm ∧
          exec i s =
            .next ((s.memWrite (s.readReg rs1 + imm.signExtend 32) (s.readReg rs2)).setPc (s.pc + 4#32))) ∨
        (∃ c rs1, i = .csrw c rs1 ∧ exec i s = .next ((s.writeCsr c (s.readReg rs1)).setPc (s.pc + 4#32))))) := by
  have reg : ∀ {i rd v n}, unsupportedWord i = none → s.dataAddr i = none →
      exec i s = .next ((s.writeReg rd v).setPc n) →
      unsupportedWord i = none ∧ (∀ a, s.dataAddr i = some a → aligned a = true ∧ s.admitted a 4 = true) ∧
        ((∃ rd v n, exec i s = .next ((s.writeReg rd v).setPc n)) ∨
          (∃ rs1 rs2 imm, i = .sw rs1 rs2 imm ∧
            exec i s =
              .next ((s.memWrite (s.readReg rs1 + imm.signExtend 32) (s.readReg rs2)).setPc (s.pc + 4#32))) ∨
          (∃ c rs1, i = .csrw c rs1 ∧ exec i s = .next ((s.writeCsr c (s.readReg rs1)).setPc (s.pc + 4#32)))) :=
    fun hu hd h => ⟨hu, by simp [hd], .inl ⟨_, _, _, h⟩⟩
  have br : ∀ {i n}, unsupportedWord i = none → s.dataAddr i = none → exec i s = .next (s.setPc n) → _ :=
    fun {i n} hu hd h => reg (i := i) (rd := 0#5) (v := 0#32) (n := n) hu hd (by rw [State.writeReg_zero]; exact h)
  cases i with
  | addi => exact .inr (.inr (reg rfl rfl (execBuilt_opImm ..)))
  | slti => exact .inr (.inr (reg rfl rfl (execBuilt_opImm ..)))
  | sltiu => exact .inr (.inr (reg rfl rfl (execBuilt_opImm ..)))
  | xori => exact .inr (.inr (reg rfl rfl (execBuilt_opImm ..)))
  | ori => exact .inr (.inr (reg rfl rfl (execBuilt_opImm ..)))
  | andi => exact .inr (.inr (reg rfl rfl (execBuilt_opImm ..)))
  | slli => exact .inr (.inr (reg rfl rfl (execBuilt_opImm ..)))
  | srli => exact .inr (.inr (reg rfl rfl (execBuilt_opImm ..)))
  | srai => exact .inr (.inr (reg rfl rfl (execBuilt_opImm ..)))
  | add => exact .inr (.inr (reg rfl rfl (execBuilt_op ..)))
  | sub => exact .inr (.inr (reg rfl rfl (execBuilt_op ..)))
  | sll => exact .inr (.inr (reg rfl rfl (execBuilt_op ..)))
  | slt => exact .inr (.inr (reg rfl rfl (execBuilt_op ..)))
  | sltu => exact .inr (.inr (reg rfl rfl (execBuilt_op ..)))
  | xor => exact .inr (.inr (reg rfl rfl (execBuilt_op ..)))
  | srl => exact .inr (.inr (reg rfl rfl (execBuilt_op ..)))
  | sra => exact .inr (.inr (reg rfl rfl (execBuilt_op ..)))
  | or => exact .inr (.inr (reg rfl rfl (execBuilt_op ..)))
  | and => exact .inr (.inr (reg rfl rfl (execBuilt_op ..)))
  | lui => exact .inr (.inr (reg rfl rfl (execBuilt_lui ..)))
  | auipc => exact .inr (.inr (reg rfl rfl (execBuilt_auipc ..)))
  | jal => exact .inr (.inr (reg rfl rfl (execBuilt_jal ..)))
  | jalr => exact .inr (.inr (reg rfl rfl (execBuilt_jalr ..)))
  | beq => exact .inr (.inr (br rfl rfl (execBuilt_branch ..)))
  | bne => exact .inr (.inr (br rfl rfl (execBuilt_branch ..)))
  | blt => exact .inr (.inr (br rfl rfl (execBuilt_branch ..)))
  | bge => exact .inr (.inr (br rfl rfl (execBuilt_branch ..)))
  | bltu => exact .inr (.inr (br rfl rfl (execBuilt_branch ..)))
  | bgeu => exact .inr (.inr (br rfl rfl (execBuilt_branch ..)))
  | lw rd rs1 imm =>
    have h : exec (.lw rd rs1 imm) s = _ := execBuilt_load s rd rs1 (imm.signExtend 32)
    rcases accessOutcome_cases s (s.readReg rs1 + imm.signExtend 32) _ with ⟨ha, e⟩ | ⟨ha, hm, e⟩ | ⟨ha, hm, e⟩
    · rw [e] at h; exact .inr (.inl ⟨rfl, _, rfl, .inl ⟨ha, h⟩⟩)
    · rw [e] at h; exact .inr (.inl ⟨rfl, _, rfl, .inr ⟨ha, hm, h⟩⟩)
    · rw [e] at h
      exact .inr (.inr ⟨rfl, fun a e => by cases e; exact ⟨ha, hm⟩, .inl ⟨_, _, _, h⟩⟩)
  | sw rs1 rs2 imm =>
    have h : exec (.sw rs1 rs2 imm) s = _ := execBuilt_store s rs1 rs2 (imm.signExtend 32)
    rcases accessOutcome_cases s (s.readReg rs1 + imm.signExtend 32) _ with ⟨ha, e⟩ | ⟨ha, hm, e⟩ | ⟨ha, hm, e⟩
    · rw [e] at h; exact .inr (.inl ⟨rfl, _, rfl, .inl ⟨ha, h⟩⟩)
    · rw [e] at h; exact .inr (.inl ⟨rfl, _, rfl, .inr ⟨ha, hm, h⟩⟩)
    · rw [e] at h
      exact .inr (.inr ⟨rfl, fun a e => by cases e; exact ⟨ha, hm⟩, .inr (.inl ⟨_, _, _, rfl, h⟩)⟩)
  | csrw c rs1 =>
    exact .inr (.inr ⟨rfl, (fun a e => by cases e), .inr (.inr ⟨c, rs1, rfl, execBuilt_csrw ..⟩)⟩)
  | csrr => exact .inr (.inr (reg rfl rfl (execBuilt_csrr ..)))
  | unsupportedBranch w => exact .inl ⟨w, rfl, rfl⟩
  | unsupportedLoad w => exact .inl ⟨w, rfl, rfl⟩
  | unsupportedStore w => exact .inl ⟨w, rfl, rfl⟩
  | unsupportedSystem w => exact .inl ⟨w, rfl, rfl⟩
  | unsupportedMiscMem w => exact .inl ⟨w, rfl, rfl⟩
  | unsupportedAmo w => exact .inl ⟨w, rfl, rfl⟩
  | unsupportedUnknown w => exact .inl ⟨w, rfl, rfl⟩

/-! ## Runs -/

theorem run_succ_next {M : Host.Core} {s t : M.State} (k : Nat) (h : M.step s = .next t) :
    M.run (k + 1) s = M.run k t := by
  rw [Host.Core.run, h]

theorem run_succ_fault {M : Host.Core} {s : M.State} {f : M.Fault} (k : Nat) (h : M.step s = .fault f) :
    M.run (k + 1) s = .fault f := by
  rw [Host.Core.run, h]

theorem core_run_zero : Sys2Proof.core.run 0 s = .next s :=
  Host.Core.run.eq_1 Sys2Proof.core s

/-- A run of `k + 1` steps is a step and a run of `k`. -/
theorem core_run_next {s t : State} (k : Nat) (h : step s = .next t) :
    Sys2Proof.core.run (k + 1) s = Sys2Proof.core.run k t :=
  run_succ_next (M := Sys2Proof.core) k h

/-- A run whose first step stops has stopped. -/
theorem core_run_fault {s : State} {f : Fault} (k : Nat) (h : step s = .fault f) :
    Sys2Proof.core.run (k + 1) s = .fault f :=
  run_succ_fault (M := Sys2Proof.core) k h

end Sys2Proof.Machine
end

