-- ==== Sys2Proof/Tests/Slice0.lean ====
section
/-! SUPPORT. The model's own tests: words written out field by field from the encodings of the spec, the
WellFormed smoke tests, one step of each instruction, the faults, and a witness for the hypotheses of each
statement. Expected values are those of 95_test_vectors.md, or worked by hand where a comment says so. -/

namespace Sys2Proof.Tests

open Sys2Proof Sys2Proof.Machine Sys2Proof.Claims

/-! ## A small machine: memory 0x1000 to 0x1FFF, `pc = 0x1000` holding `w`, `x6 = a`, `x7 = b`, `csr[0x340]`
= 0xCAFE0001 (the parameters of table 2.18) -/

/-- The launch parameters. -/
def params (pc a b : Word) : Launch where
  resetPc := pc
  regsInit := ((Vector.replicate 32 0#32).set 6 a).set 7 b
  csrInit := [(0x340, 0xCAFE0001#32)]
  image := [(0x1800, 0x44#8), (0x1801, 0x33#8), (0x1802, 0x22#8), (0x1803, 0x11#8)]
  memBase := 0x1000
  memSize := 0x1000

/-- The state at `pc`, with nothing placed there. -/
def idle (pc a b : Word) : State := State.launch (params pc a b)

/-- The state about to run `w` at 0x1000. -/
def st (w a b : Word) : State := (idle 0x1000#32 a b).memWrite 0x1000#32 w

/-- What one step leaves in `x[r]` and `pc`. -/
def ran (r : RegIdx) (s : State) : Option (Word × Word) :=
  match step s with
  | .next t => some (t.readReg r, t.pc)
  | _ => none

/-- The fault mark one step leaves, and `x5` and `pc`, which a fault must not change. -/
def mark (s : State) : Option (Option Fault × Word × Word) :=
  match step s with
  | .next t => some (t.faultMark, t.readReg 5, t.pc)
  | _ => none

/-- The state after one step. -/
def after (s : State) : State :=
  match step s with
  | .next t => t
  | _ => s

/-! ## Decoding: every constructor, its word written out from R74 to R79 and its rule's Encoding line -/

theorem test_decode_opImm :
    decodeWord (0b111111111111#12 ++ 0b00110#5 ++ 0b000#3 ++ 0b00101#5 ++ 0b0010011#7) = .addi 5 6 (-1) ∧
    decodeWord (0b111111111111#12 ++ 0b00110#5 ++ 0b010#3 ++ 0b00101#5 ++ 0b0010011#7) = .slti 5 6 (-1) ∧
    decodeWord (0b111111111111#12 ++ 0b00110#5 ++ 0b011#3 ++ 0b00101#5 ++ 0b0010011#7) = .sltiu 5 6 (-1) ∧
    decodeWord (0b111111111111#12 ++ 0b00110#5 ++ 0b100#3 ++ 0b00101#5 ++ 0b0010011#7) = .xori 5 6 (-1) ∧
    decodeWord (0b000011110000#12 ++ 0b00110#5 ++ 0b110#3 ++ 0b00101#5 ++ 0b0010011#7) = .ori 5 6 0x0F0 ∧
    decodeWord (0b000011111111#12 ++ 0b00110#5 ++ 0b111#3 ++ 0b00101#5 ++ 0b0010011#7) = .andi 5 6 0x0FF ∧
    decodeWord (0b000000011111#12 ++ 0b00110#5 ++ 0b001#3 ++ 0b00101#5 ++ 0b0010011#7) = .slli 5 6 31 ∧
    decodeWord (0b0000000#7 ++ 0b11111#5 ++ 0b00110#5 ++ 0b101#3 ++ 0b00101#5 ++ 0b0010011#7) = .srli 5 6 31 ∧
    decodeWord (0b0100000#7 ++ 0b11111#5 ++ 0b00110#5 ++ 0b101#3 ++ 0b00101#5 ++ 0b0010011#7) = .srai 5 6 31 := by
  decide

theorem test_decode_op :
    decodeWord (0b0000000#7 ++ 0b00111#5 ++ 0b00110#5 ++ 0b000#3 ++ 0b00101#5 ++ 0b0110011#7) = .add 5 6 7 ∧
    decodeWord (0b0100000#7 ++ 0b00111#5 ++ 0b00110#5 ++ 0b000#3 ++ 0b00101#5 ++ 0b0110011#7) = .sub 5 6 7 ∧
    decodeWord (0b0000000#7 ++ 0b00111#5 ++ 0b00110#5 ++ 0b001#3 ++ 0b00101#5 ++ 0b0110011#7) = .sll 5 6 7 ∧
    decodeWord (0b0000000#7 ++ 0b00111#5 ++ 0b00110#5 ++ 0b010#3 ++ 0b00101#5 ++ 0b0110011#7) = .slt 5 6 7 ∧
    decodeWord (0b0000000#7 ++ 0b00111#5 ++ 0b00110#5 ++ 0b011#3 ++ 0b00101#5 ++ 0b0110011#7) = .sltu 5 6 7 ∧
    decodeWord (0b0000000#7 ++ 0b00111#5 ++ 0b00110#5 ++ 0b100#3 ++ 0b00101#5 ++ 0b0110011#7) = .xor 5 6 7 ∧
    decodeWord (0b0000000#7 ++ 0b00111#5 ++ 0b00110#5 ++ 0b101#3 ++ 0b00101#5 ++ 0b0110011#7) = .srl 5 6 7 ∧
    decodeWord (0b0100000#7 ++ 0b00111#5 ++ 0b00110#5 ++ 0b101#3 ++ 0b00101#5 ++ 0b0110011#7) = .sra 5 6 7 ∧
    decodeWord (0b0000000#7 ++ 0b00111#5 ++ 0b00110#5 ++ 0b110#3 ++ 0b00101#5 ++ 0b0110011#7) = .or 5 6 7 ∧
    decodeWord (0b0000000#7 ++ 0b00111#5 ++ 0b00110#5 ++ 0b111#3 ++ 0b00101#5 ++ 0b0110011#7) = .and 5 6 7 := by
  decide

/-- Table 2.3: `mul` aliases `add`, `divu` aliases `srl`, bit 30 of AND is not read. -/
theorem test_decode_op_aliases :
    decodeWord 0x027302B3#32 = .add 5 6 7 ∧ decodeWord 0x027352B3#32 = .srl 5 6 7 ∧
    decodeWord 0x407372B3#32 = .and 5 6 7 ∧ decodeWord 0x40131293#32 = .slli 5 6 0x401 ∧
    decodeWord 0x80435293#32 = .srli 5 6 4 ∧ decodeWord 0x004370E7#32 = .jalr 1 6 4 := by
  decide

theorem test_decode_upper :
    decodeWord (0b00010010001101000101#20 ++ 0b00101#5 ++ 0b0110111#7) = .lui 5 0x12345 ∧
    decodeWord (0b11111111111111111111#20 ++ 0b00101#5 ++ 0b0010111#7) = .auipc 5 0xFFFFF := by
  decide

/-- The offsets 2, 2048, 4096 and the extremes of table 2.7 try each fragment of the J immediate. -/
theorem test_decode_jumps :
    decodeWord (0b0#1 ++ 0b0000000100#10 ++ 0b0#1 ++ 0b00000000#8 ++ 0b00001#5 ++ 0b1101111#7) = .jal 1 8 ∧
    decodeWord 0x002000EF#32 = .jal 1 2 ∧ decodeWord 0x001000EF#32 = .jal 1 2048 ∧
    decodeWord 0x000010EF#32 = .jal 1 4096 ∧ decodeWord 0x7FFFF0EF#32 = .jal 1 1048574 ∧
    decodeWord 0x800000EF#32 = .jal 1 (-1048576) ∧ decodeWord 0xFFDFF0EF#32 = .jal 1 (-4) ∧
    decodeWord (0b000000000100#12 ++ 0b00110#5 ++ 0b000#3 ++ 0b00001#5 ++ 0b1100111#7) = .jalr 1 6 4 := by
  decide

/-- The offsets -4096, 4094 and 2048 of table 2.9 try each fragment of the B immediate. -/
theorem test_decode_branch :
    decodeWord (0b0#1 ++ 0b000000#6 ++ 0b00111#5 ++ 0b00110#5 ++ 0b000#3 ++ 0b1000#4 ++ 0b0#1 ++ 0b1100011#7) =
      .beq 6 7 16 ∧
    decodeWord (0b1#1 ++ 0b111111#6 ++ 0b00111#5 ++ 0b00110#5 ++ 0b001#3 ++ 0b1100#4 ++ 0b1#1 ++ 0b1100011#7) =
      .bne 6 7 (-8) ∧
    decodeWord 0x00734863#32 = .blt 6 7 16 ∧ decodeWord 0x00735863#32 = .bge 6 7 16 ∧
    decodeWord 0x00736863#32 = .bltu 6 7 16 ∧ decodeWord 0x00737863#32 = .bgeu 6 7 16 ∧
    decodeWord 0x80730063#32 = .beq 6 7 (-4096) ∧ decodeWord 0x7E730FE3#32 = .beq 6 7 4094 ∧
    decodeWord 0x007300E3#32 = .beq 6 7 2048 := by
  decide

theorem test_decode_load_store :
    decodeWord (0b000000001000#12 ++ 0b00110#5 ++ 0b010#3 ++ 0b00101#5 ++ 0b0000011#7) = .lw 5 6 8 ∧
    decodeWord (0b0000000#7 ++ 0b00111#5 ++ 0b00110#5 ++ 0b010#3 ++ 0b01000#5 ++ 0b0100011#7) = .sw 6 7 8 ∧
    decodeWord 0x7E732FA3#32 = .sw 6 7 2047 ∧ decodeWord 0x80732023#32 = .sw 6 7 (-2048) := by
  decide

theorem test_decode_system :
    decodeWord (0b001101000000#12 ++ 0b00110#5 ++ 0b001#3 ++ 0b00000#5 ++ 0b1110011#7) = .csrw 0x340 6 ∧
    decodeWord (0b001101000000#12 ++ 0b00000#5 ++ 0b010#3 ++ 0b00101#5 ++ 0b1110011#7) = .csrr 5 0x340 ∧
    decodeWord 0x34002073#32 = .csrr 0 0x340 := by
  decide

theorem test_decode_unsupported :
    decodeWord 0x00732863#32 = .unsupportedBranch 0x00732863#32 ∧
    decodeWord 0x00733863#32 = .unsupportedBranch 0x00733863#32 ∧
    decodeWord 0x00830283#32 = .unsupportedLoad 0x00830283#32 ∧
    decodeWord 0x00731423#32 = .unsupportedStore 0x00731423#32 ∧
    decodeWord 0x340312F3#32 = .unsupportedSystem 0x340312F3#32 ∧
    decodeWord 0x00000073#32 = .unsupportedSystem 0x00000073#32 ∧
    decodeWord 0x0FF0000F#32 = .unsupportedMiscMem 0x0FF0000F#32 ∧
    decodeWord 0x100322AF#32 = .unsupportedAmo 0x100322AF#32 ∧
    decodeWord 0x00000000#32 = .unsupportedUnknown 0x00000000#32 ∧
    decodeWord 0xFFFFFFFF#32 = .unsupportedUnknown 0xFFFFFFFF#32 := by
  decide

/-- Tables 2.1, 2.5, 2.7, 2.9, 2.11, 2.13, 2.15: CORE's descriptors. -/
theorem test_descriptors :
    coreDecode 0x00000013#32 = ⟨.alu, .add, .neverTaken, none, some 0, none, some 0, none⟩ ∧
    coreDecode 0x40131293#32 = ⟨.alu, .sll, .neverTaken, some 5, some 6, none, some 0x401, none⟩ ∧
    coreDecode 0x80435293#32 = ⟨.alu, .srl, .neverTaken, some 5, some 6, none, some 4, none⟩ ∧
    coreDecode 0xFFFFF297#32 = ⟨.auipc, .none, .neverTaken, some 5, none, none, some 0xFFFFF000, none⟩ ∧
    coreDecode 0x0000006F#32 = ⟨.j, .none, .alwaysTaken, none, none, none, some 0, none⟩ ∧
    coreDecode 0x80730063#32 = ⟨.br, .none, .eq, none, some 6, some 7, some 0xFFFFF000, none⟩ ∧
    coreDecode 0x00730423#32 = ⟨.unsupported, .add, .neverTaken, none, some 6, some 7, some 8, none⟩ ∧
    coreDecode 0x3401D073#32 = ⟨.unsupported, .none, .neverTaken, none, some 3, none, none, some 0x340⟩ ∧
    coreDecode 0x00032287#32 = neutral := by
  decide

/-- Table 2.12, and table 2.6's third row: CORE adds whatever stands at register 0's port. -/
theorem test_execute_core :
    execute (fun _ => 9#32) (coreDecode 0x80032283#32) 0x1000 ⟨0x400, 9, 9⟩ = ⟨some 0xFFFFFC00, 0xFFFFFC00, 0x1004⟩ ∧
    execute (fun _ => 9#32) (coreDecode 0x7E732FA3#32) 0x1000 ⟨0x1001, 0, 9⟩ = ⟨some 0x1800, 0, 0x1004⟩ ∧
    execute (fun _ => 9#32) (coreDecode 0x00830283#32) 0x1000 ⟨0x1000, 9, 9⟩ = ⟨none, 0x1008, 0x1004⟩ ∧
    execute (fun _ => 9#32) (coreDecode 0x123452B7#32) 0x1000 ⟨7, 9, 9⟩ = ⟨none, 0x12345007, 0x1004⟩ ∧
    execute (fun _ => 9#32) (coreDecode 0x00000000#32) 0xFFFFFFFC ⟨9, 9, 9⟩ = ⟨none, 0, 0⟩ := by
  decide

/-- The bytes of an instruction, lowest address first (table 2.18), and too few of them. -/
theorem test_decode_bytes :
    decodeBytes [0x93#8, 0x02#8, 0x50#8, 0x00#8] = .ok (.addi 5 0 5, []) ∧
    decodeBytes [0x93#8, 0x02#8, 0x50#8] = .error .truncated := ⟨rfl, rfl⟩

/-- The host's two entry points, on one word; a row of more than 32 bits is refused. -/
theorem test_host_entry_points :
    decodeTableWord 32 0x00500293 = some (.addi 5 0 5) ∧ decodeTableWord 33 0x00500293 = none ∧
    decodeTableWord 16 0x0013 = some (.addi 0 0 0) ∧
    ran 5 (State.reset.withFetchWord 32 0x00500293) = some (5, 4) ∧
    ran 0 (State.reset.withFetchWord 32 0x0000006F) = some (0, 0) := by
  decide

/-! ## WellFormed: each check refuses an ill-formed instruction -/

/-- An odd offset, which no word has (R82, R85). -/
theorem test_wellFormed_odd_offset :
    (Instr.jal 1 3).wellFormed = false ∧ (Instr.beq 6 7 1).wellFormed = false ∧
    (Instr.bne 6 7 (-7)).wellFormed = false ∧ (Instr.blt 6 7 17).wellFormed = false ∧
    (Instr.bge 6 7 4095).wellFormed = false ∧ (Instr.bltu 6 7 5).wellFormed = false ∧
    (Instr.bgeu 6 7 9).wellFormed = false ∧ (Instr.jal 1 2).wellFormed = true ∧
    (Instr.beq 6 7 2).wellFormed = true := by
  decide

/-- An `unsupported…` instruction with a word of another row: each row's own class, then a word of the class
that executes. -/
theorem test_wellFormed_unsupported :
    (Instr.unsupportedBranch 0x00730863#32).wellFormed = false ∧ (Instr.unsupportedBranch 0x00732863#32).wellFormed = true ∧
    (Instr.unsupportedLoad 0x00832283#32).wellFormed = false ∧ (Instr.unsupportedLoad 0x00000013#32).wellFormed = false ∧
    (Instr.unsupportedLoad 0x00830283#32).wellFormed = true ∧
    (Instr.unsupportedStore 0x00732423#32).wellFormed = false ∧ (Instr.unsupportedStore 0#32).wellFormed = false ∧
    (Instr.unsupportedStore 0x00730423#32).wellFormed = true ∧
    (Instr.unsupportedSystem 0x34031073#32).wellFormed = false ∧ (Instr.unsupportedSystem 0x340022F3#32).wellFormed = false ∧
    (Instr.unsupportedSystem 0#32).wellFormed = false ∧ (Instr.unsupportedSystem 0x340312F3#32).wellFormed = true ∧
    (Instr.unsupportedMiscMem 0x2F#32).wellFormed = false ∧ (Instr.unsupportedMiscMem 0x0FF0000F#32).wellFormed = true ∧
    (Instr.unsupportedAmo 0x0F#32).wellFormed = false ∧ (Instr.unsupportedAmo 0x100322AF#32).wellFormed = true ∧
    (Instr.unsupportedUnknown 0x13#32).wellFormed = false ∧ (Instr.unsupportedUnknown 0x0B#32).wellFormed = true := by
  decide

/-! ## One step of each instruction (tables 2.2, 2.4, 2.6, 2.8, 2.10, 2.12, 2.14) -/

theorem test_addi : ran 5 (st 0xFFF30293#32 5 0) = some (4, 0x1004) ∧
    ran 5 (st 0x7FF30293#32 0x7FFFF801 0) = some (0x80000000, 0x1004) := by decide
theorem test_slti : ran 5 (st 0xFFF32293#32 0xFFFFFFFE 0) = some (1, 0x1004) ∧
    ran 5 (st 0xFFF32293#32 0 0) = some (0, 0x1004) := by decide
theorem test_sltiu : ran 5 (st 0xFFF33293#32 0 0) = some (1, 0x1004) ∧
    ran 5 (st 0xFFF33293#32 0xFFFFFFFF 0) = some (0, 0x1004) := by decide
theorem test_xori : ran 5 (st 0xFFF34293#32 0x12345678 0) = some (0xEDCBA987, 0x1004) := by decide
theorem test_ori : ran 5 (st 0x0F036293#32 0x12345608 0) = some (0x123456F8, 0x1004) := by decide
theorem test_andi : ran 5 (st 0xFF037293#32 0x12345678 0) = some (0x12345670, 0x1004) := by decide
theorem test_slli : ran 5 (st 0x00431293#32 0xF0000001 0) = some (0x00000010, 0x1004) ∧
    ran 5 (st 0x40131293#32 1 0) = some (2, 0x1004) := by decide
theorem test_srli : ran 5 (st 0x00435293#32 0x80000000 0) = some (0x08000000, 0x1004) := by decide
theorem test_srai : ran 5 (st 0x40435293#32 0x80000000 0) = some (0xF8000000, 0x1004) ∧
    ran 5 (st 0x40435293#32 0x7FFFFFFF 0) = some (0x07FFFFFF, 0x1004) := by decide

theorem test_add : ran 5 (st 0x007302B3#32 0xFFFFFFFF 1) = some (0, 0x1004) ∧
    ran 5 (st 0x027302B3#32 6 7) = some (0xD, 0x1004) := by decide
theorem test_sub : ran 5 (st 0x407302B3#32 0 1) = some (0xFFFFFFFF, 0x1004) := by decide
theorem test_sll : ran 5 (st 0x007312B3#32 1 0x21) = some (2, 0x1004) := by decide
theorem test_slt : ran 5 (st 0x007322B3#32 0x80000000 0x7FFFFFFF) = some (1, 0x1004) := by decide
theorem test_sltu : ran 5 (st 0x007332B3#32 0xFFFFFFFF 1) = some (0, 0x1004) ∧
    ran 5 (st 0x007332B3#32 1 0xFFFFFFFF) = some (1, 0x1004) := by decide
theorem test_xor : ran 5 (st 0x007342B3#32 0xFF00FF00 0x0F0F0F0F) = some (0xF00FF00F, 0x1004) := by decide
theorem test_srl : ran 5 (st 0x007352B3#32 0x80000000 0x24) = some (0x08000000, 0x1004) := by decide
theorem test_sra : ran 5 (st 0x407352B3#32 0x80000000 0x24) = some (0xF8000000, 0x1004) := by decide
theorem test_or : ran 5 (st 0x007362B3#32 0xFF00FF00 0x0F0F0F0F) = some (0xFF0FFF0F, 0x1004) := by decide
theorem test_and : ran 5 (st 0x007372B3#32 0xFF00FF00 0x0F0F0F0F) = some (0x0F000F00, 0x1004) := by decide

theorem test_lui : ran 5 (st 0xFFFFF2B7#32 0 0) = some (0xFFFFF000, 0x1004) := by decide
theorem test_auipc : ran 5 (st 0x12345297#32 0 0) = some (0x12346000, 0x1004) ∧
    ran 5 (st 0xFFFFF297#32 0 0) = some (0, 0x1004) := by decide

theorem test_jal : ran 1 (st 0xFFDFF0EF#32 0 0) = some (0x1004, 0xFFC) ∧
    ran 1 (st 0x002000EF#32 0 0) = some (0x1004, 0x1002) := by decide
/-- The link register is the base too: the old value is the base (R43; `jalr x6, x6, 1`, by hand). -/
theorem test_jalr : ran 1 (st 0x002300E7#32 0xFFFFFFFF 0) = some (0x1004, 1) ∧
    ran 6 (st 0x00130367#32 0x2000 0) = some (0x1004, 0x2001) := by decide

theorem test_beq : ran 5 (st 0x00730863#32 5 5) = some (0, 0x1010) ∧
    ran 5 (st 0x00730863#32 1 0xFFFFFFFF) = some (0, 0x1004) := by decide
theorem test_bne : ran 5 (st 0xFE731CE3#32 1 2) = some (0, 0xFF8) ∧
    ran 5 (st 0x00731863#32 5 5) = some (0, 0x1004) := by decide
theorem test_blt : ran 5 (st 0x00734863#32 0x80000000 0x7FFFFFFF) = some (0, 0x1010) ∧
    ran 5 (st 0x00734863#32 5 5) = some (0, 0x1004) := by decide
theorem test_bge : ran 5 (st 0x00735863#32 5 5) = some (0, 0x1010) ∧
    ran 5 (st 0x00735863#32 0xFFFFFFFF 1) = some (0, 0x1004) := by decide
theorem test_bltu : ran 5 (st 0x00736863#32 1 0xFFFFFFFF) = some (0, 0x1010) ∧
    ran 5 (st 0x00736863#32 0x80000000 0x7FFFFFFF) = some (0, 0x1004) := by decide
theorem test_bgeu : ran 5 (st 0x00737863#32 0x80000000 0x7FFFFFFF) = some (0, 0x1010) ∧
    ran 5 (st 0x00737863#32 1 0xFFFFFFFF) = some (0, 0x1004) := by decide

/-- Table 2.18: bytes 44 33 22 11 at 0x1800; and the last word of memory is readable. -/
theorem test_lw : ran 5 (st 0x00032283#32 0x1800 0) = some (0x11223344, 0x1004) ∧
    ran 5 (st 0x00032283#32 0x1FFC 0) = some (0, 0x1004) := by decide
/-- `lw x0` still accesses memory (R101), and writes nothing. -/
theorem test_lw_x0 : ran 0 (st 0x00032003#32 0x1800 0) = some (0, 0x1004) ∧
    mark (st 0x00032003#32 0x1802 0) = some (some (.dataMisaligned 0x1000 0x1802), 0, 0x1000) := by decide
/-- `sw x7, 8(x6)` with `x7 = 0xDEADBEEF`: bytes EF BE AD DE. -/
theorem test_sw : ((after (st 0x00732423#32 0x1900 0xDEADBEEF)).readByte 0x1908,
      (after (st 0x00732423#32 0x1900 0xDEADBEEF)).readByte 0x1909,
      (after (st 0x00732423#32 0x1900 0xDEADBEEF)).readByte 0x190B) = (0xEF#8, 0xBE#8, 0xDE#8) ∧
    ran 7 (st 0x00732423#32 0x1900 0xDEADBEEF) = some (0xDEADBEEF, 0x1004) := by decide
theorem test_csrw : (after (st 0x34031073#32 0x12345678 0)).readCsr 0x340 = 0x12345678 ∧
    ran 5 (st 0x34031073#32 0x12345678 0) = some (0, 0x1004) := by decide
theorem test_csrr : ran 5 (st 0x340022F3#32 0 0) = some (0xCAFE0001, 0x1004) ∧
    (after (st 0x340022F3#32 0 0)).readCsr 0x340 = 0xCAFE0001 := by decide

/-- Each word with no meaning: the fault with `pc` and the word, `x5` and `pc` as before. -/
theorem test_unsupported :
    mark (st 0x00732863#32 5 5) = some (some (.unsupportedInstruction 0x1000 0x00732863), 0, 0x1000) ∧
    mark (st 0x00030283#32 0x2001 0) = some (some (.unsupportedInstruction 0x1000 0x00030283), 0, 0x1000) ∧
    mark (st 0x00730423#32 0 0) = some (some (.unsupportedInstruction 0x1000 0x00730423), 0, 0x1000) ∧
    mark (st 0x340312F3#32 0 0) = some (some (.unsupportedInstruction 0x1000 0x340312F3), 0, 0x1000) ∧
    mark (st 0x0FF0000F#32 0 0) = some (some (.unsupportedInstruction 0x1000 0x0FF0000F), 0, 0x1000) ∧
    mark (st 0x007322AF#32 0 0) = some (some (.unsupportedInstruction 0x1000 0x007322AF), 0, 0x1000) ∧
    mark (st 0x00000000#32 0 0) = some (some (.unsupportedInstruction 0x1000 0x00000000), 0, 0x1000) := by
  decide

/-! ## Faults and their order (table 2.18) -/

theorem test_fetch_faults :
    mark (idle 0x1002 0 0) = some (some (.fetchMisaligned 0x1002), 0, 0x1002) ∧
    mark (idle 0x2000 0 0) = some (some (.fetchAccess 0x2000), 0, 0x2000) ∧
    mark (idle 0x0FFC 0 0) = some (some (.fetchAccess 0x0FFC), 0, 0x0FFC) ∧
    mark (idle 0x2002 0 0) = some (some (.fetchMisaligned 0x2002), 0, 0x2002) := by
  decide

theorem test_data_faults :
    mark (st 0x00032283#32 0x1FFE 0) = some (some (.dataMisaligned 0x1000 0x1FFE), 0, 0x1000) ∧
    mark (st 0x00032283#32 0x2000 0) = some (some (.dataAccess 0x1000 0x2000), 0, 0x1000) ∧
    mark (st 0x00032283#32 0x2001 0) = some (some (.dataMisaligned 0x1000 0x2001), 0, 0x1000) ∧
    mark (st 0xFFC32283#32 0 0) = some (some (.dataAccess 0x1000 0xFFFFFFFC), 0, 0x1000) ∧
    mark (st 0xFE732E23#32 0x1000 0) = some (some (.dataAccess 0x1000 0x0FFC), 0, 0x1000) ∧
    (after (st 0xFE732E23#32 0x1000 0)).mem = (st 0xFE732E23#32 0x1000 0).mem := by
  decide

/-- From a state with a fault mark no step is possible (R233). -/
theorem test_faulted_is_terminal :
    step (after (idle 0x1002 0 0)) = .fault (.fetchMisaligned 0x1002) := rfl

/-- Memory stays canonical: storing what an unlisted byte reads as removes the entries. -/
theorem test_memWrite_canonical :
    ((idle 0x1000 0 0).memWrite 0x1800 0).mem = [] ∧
    ((idle 0x1000 0 0).memWrite 0x1FFC 0x00FF0001).mem =
      [(0x1800, 0x44#8), (0x1801, 0x33#8), (0x1802, 0x22#8), (0x1803, 0x11#8), (0x1FFC, 1#8), (0x1FFE, 0xFF#8)] := by
  decide

/-- The instruction cycle over CORE's `decode` gives the same step (`addi x5, x6, -1`; `lw x5, 0(x6)`). -/
theorem test_cycle :
    (match instructionCycle (fun _ => 9#32) (st 0xFFF30293#32 5 0) with
      | .next t => decide (t = after (st 0xFFF30293#32 5 0)) | _ => false) = true ∧
    (match instructionCycle (fun _ => 9#32) (st 0x00032283#32 0x1800 0) with
      | .next t => decide (t = after (st 0x00032283#32 0x1800 0)) | _ => false) = true := by
  decide

/-! ## The opcode table, the registry, the assembler -/

theorem test_firstRow :
    firstRow 0x00000073#32 = some "UNSUPPORTED.SYSTEM" ∧ firstRow 0x34031073#32 = some "CSRW" ∧
    firstRow 0x00732863#32 = some "UNSUPPORTED.BRANCH" ∧ firstRow 0xFFFFFFFF#32 = some "UNSUPPORTED.UNKNOWN" := by
  decide

/-- Overwriting, removal and the default of the lookup primitive (R190). -/
theorem test_registry :
    (((Registry.empty.register 1 10).register 1 11).register 2 20 : Registry Nat Nat).dispatch 1 = some 11 ∧
    (((Registry.empty.register 1 10).unregister 1).setDefault 5 : Registry Nat Nat).dispatch 1 = some 5 ∧
    (Registry.empty : Registry Nat Nat).dispatch 1 = none := by
  decide

/-- The assembler lines of 95_test_vectors.md. -/
theorem test_assembly :
    assembly (.addi 5 6 (-1)) = some "addi x5, x6, -1" ∧ assembly (.sw 6 7 (-8)) = some "sw x7, -8(x6)" ∧
    assembly (.jalr 0 1 0) = some "jalr x0, x1, 0" ∧ abiName 8 = "s0" ∧ abiName 31 = "t6" := by
  decide

/-- R104's expansion of `li` where the low part is negative: 0xDEADBEEF is 0xDEADC and -273 (program P2). -/
theorem test_pseudo_li :
    (Pseudo.liWide 9 0xDEADBEEF#32).expand = [.lui 9 0xDEADC, .addi 9 9 (-273)] ∧
    (Pseudo.tail 0x800#32).expand = [.auipc 6 1, .jalr 0 6 (-2048)] := by
  decide

/-! ## Witnesses: for each statement with hypotheses, concrete values that meet them, clause by clause -/

/-- The reset state meets the invariant, and a running step from it is possible. -/
theorem reset_inv : State.reset.inv := by decide

/-- Legal parameters: bootable at the first and the last word, not bootable for each of the two reasons. -/
theorem witness_LegalLaunchBootsOrFaults :
    (params 0x1000 0 0).legal ∧ (multipleOf4 0x1000#32 ∧ inMemory (idle 0x1000 0 0) 0x1000) ∧
    (params 0x1FFC 0 0).legal ∧ (multipleOf4 0x1FFC#32 ∧ inMemory (idle 0x1FFC 0 0) 0x1FFC) ∧
    (params 0x1002 0 0).legal ∧ ¬ (multipleOf4 0x1002#32 ∧ inMemory (idle 0x1002 0 0) 0x1002) ∧
    (params 0x2000 0 0).legal ∧ ¬ (multipleOf4 0x2000#32 ∧ inMemory (idle 0x2000 0 0) 0x2000) := by
  refine ⟨by decide, ?_, by decide, ?_, by decide, ?_, by decide, ?_⟩ <;> unfold multipleOf4 inMemory <;> decide

theorem witness_RegisterFile : (1 : RegIdx) ≠ 0#5 ∧ (31 : RegIdx) ≠ 0#5 ∧ (0 : RegIdx) ≠ 31#5 := by decide

theorem witness_LaunchStateValues : (1 : RegIdx) ≠ 0#5 ∧ (State.launch (params 0 9 0)).readReg 6 = 9 := by decide

theorem witness_CsrFileIsPlainStorage :
    CsrFile.wf (idle 0x1000 0 0).csrs ∧ CsrFile.wf [(0, 1#32), (4095, 2#32)] ∧ (0 : CsrIdx) ≠ 4095 := by decide

/-- Legal parameters; the lowest and highest admitted addresses and their neighbours. -/
theorem witness_AdmittedAccesses :
    (idle 0 0 0).legalParams ∧ State.reset.legalParams ∧ (idle 0 0 0).admitted 0x1000 4 = true ∧
    (idle 0 0 0).admitted 0x1FFC 4 = true ∧ (idle 0 0 0).admitted 0x0FFF 4 = false ∧
    (idle 0 0 0).admitted 0x1FFD 4 = false ∧ State.reset.admitted 0xFFFFFFFC 4 = true ∧
    State.reset.admitted 0xFFFFFFFD 4 = false := by decide

theorem witness_MemWriteIsLittleEndian :
    Memory.wf (idle 0x1000 0 0).mem ∧ outsideWord 0x1800 0x17FF ∧ outsideWord 0x1800 0x1804 ∧
    ¬ outsideWord 0x1800 0x1803 ∧ outsideWord 0xFFFFFFFC 0 := by
  unfold outsideWord; decide

theorem witness_AlignedWordsDoNotOverlap :
    multipleOf4 0#32 ∧ multipleOf4 0xFFFFFFFC#32 ∧ (0#32 : Word) ≠ 0xFFFFFFFC#32 := by unfold multipleOf4; decide

theorem witness_StepRunsDecodedInstruction :
    (st 0x00500293#32 0 0).faultMark = none ∧ multipleOf4 (st 0x00500293#32 0 0).pc ∧
    inMemory (st 0x00500293#32 0 0) (st 0x00500293#32 0 0).pc ∧ (Instr.addi 5 0 5).wellFormed = true ∧
    decodeBytes ((st 0x00500293#32 0 0).readByte 0x1000 :: (st 0x00500293#32 0 0).readByte 0x1001 ::
      (st 0x00500293#32 0 0).readByte 0x1002 :: (st 0x00500293#32 0 0).readByte 0x1003 :: [7#8]) =
      .ok (.addi 5 0 5, [7#8]) :=
  ⟨rfl, rfl, by unfold inMemory; decide, rfl, rfl⟩

/-- The invariant holds and a step answers: an instruction, a store, a CSR write and a fault. -/
theorem witness_EveryStepKeepsTheInvariant :
    (st 0xFFF30293#32 5 0).inv ∧ step (st 0xFFF30293#32 5 0) = .next (after (st 0xFFF30293#32 5 0)) ∧
    (st 0x00732423#32 0x1FF4 9).inv ∧ step (st 0x00732423#32 0x1FF4 9) = .next (after (st 0x00732423#32 0x1FF4 9)) ∧
    (st 0x34031073#32 3 0).inv ∧ step (st 0x34031073#32 3 0) = .next (after (st 0x34031073#32 3 0)) ∧
    (idle 0x2000 0 0).inv ∧ step (idle 0x2000 0 0) = .next (after (idle 0x2000 0 0)) ∧
    (after (idle 0x2000 0 0)).inv :=
  ⟨by decide, rfl, by decide, rfl, by decide, rfl, by decide, rfl, by decide⟩

theorem witness_RunningStepsAndFaultedIsTerminal :
    (idle 0x1002 0 0).faultMark = none ∧
    (after (idle 0x1002 0 0)).faultMark = some (.fetchMisaligned 0x1002) := by decide

/-- Each fetch clause, at the edges: `pc` 0x1001; 0x2000, the first address past memory; and 0x0FFC. -/
theorem witness_FetchFaults :
    (idle 0x1001 0 0).faultMark = none ∧ ¬ multipleOf4 (idle 0x1001 0 0).pc ∧
    (idle 0x2000 0 0).faultMark = none ∧ multipleOf4 (idle 0x2000 0 0).pc ∧ ¬ inMemory (idle 0x2000 0 0) 0x2000 ∧
    multipleOf4 (idle 0x0FFC 0 0).pc ∧ ¬ inMemory (idle 0x0FFC 0 0) 0x0FFC := by
  unfold multipleOf4 inMemory; decide

/-- A running state for each of the five faults and for none. -/
theorem witness_StepRaisesTheDueFault :
    (idle 0x1002 0 0).faultMark = none ∧ (idle 0x1002 0 0).dueFault = some (.fetchMisaligned 0x1002) ∧
    (idle 0x2000 0 0).dueFault = some (.fetchAccess 0x2000) ∧
    (st 0x00030283#32 0x2001 0).dueFault = some (.unsupportedInstruction 0x1000 0x00030283) ∧
    (st 0x00032283#32 0x2001 0).dueFault = some (.dataMisaligned 0x1000 0x2001) ∧
    (st 0x00032283#32 0x2000 0).dueFault = some (.dataAccess 0x1000 0x2000) ∧
    (st 0x00032283#32 0x1FFC 0).dueFault = none := by decide

/-- A step that changes a register, one that changes a CSR, one that changes bytes. -/
theorem witness_WhatAStepMayChange :
    step (st 0xFFF30293#32 5 0) = .next (after (st 0xFFF30293#32 5 0)) ∧
    (after (st 0xFFF30293#32 5 0)).readReg 5 ≠ (st 0xFFF30293#32 5 0).readReg 5 ∧
    (after (st 0x34031073#32 3 0)).readCsr 0x340 ≠ (st 0x34031073#32 3 0).readCsr 0x340 ∧
    (after (st 0x00732423#32 0x1FF4 9)).readByte 0x1FFC ≠ (st 0x00732423#32 0x1FF4 9).readByte 0x1FFC :=
  ⟨rfl, by decide, by decide, by decide⟩

theorem witness_SelfJumpIsAFixedPoint :
    (st 0x0000006F#32 0 0).faultMark = none ∧ multipleOf4 (st 0x0000006F#32 0 0).pc ∧
    inMemory (st 0x0000006F#32 0 0) 0x1000 ∧ (st 0x0000006F#32 0 0).memRead 0x1000 = 0x0000006F#32 ∧
    (st 0x0000006F#32 0 0).parked = true := by
  unfold multipleOf4 inMemory; decide

/-- `sw x7, 4(x6)` with `x6 = pc`, the word being `addi x6, x0, 5` (program P9). -/
theorem witness_StoredWordIsFetchedNext :
    Memory.wf (idle 0x1000 0x1000 0x00500313).mem ∧ (idle 0x1000 0x1000 0x00500313).faultMark = none ∧
    (idle 0x1000 0x1000 0x00500313).readReg 6 + (4 : BitVec 12).signExtend 32 =
      (idle 0x1000 0x1000 0x00500313).pc + 4#32 ∧
    multipleOf4 ((idle 0x1000 0x1000 0x00500313).pc + 4#32) ∧
    inMemory (idle 0x1000 0x1000 0x00500313) ((idle 0x1000 0x1000 0x00500313).pc + 4#32) := by
  unfold multipleOf4 inMemory; decide

theorem witness_NextInstructionReadsWhatWasWritten :
    Memory.wf (idle 0x1000 0x1FFC 0x1FF8).mem ∧ CsrFile.wf (idle 0x1000 0 0).csrs ∧
    multipleOf4 ((idle 0x1000 0x1FFC 0x1FF8).readReg 6 + (0 : BitVec 12).signExtend 32) ∧
    inMemory (idle 0x1000 0x1FFC 0x1FF8) ((idle 0x1000 0x1FFC 0x1FF8).readReg 6 + (0 : BitVec 12).signExtend 32) ∧
    (idle 0x1000 0x1FFC 0x1FF8).readReg 7 + (4 : BitVec 12).signExtend 32 =
      (idle 0x1000 0x1FFC 0x1FF8).readReg 6 + (0 : BitVec 12).signExtend 32 := by
  unfold multipleOf4 inMemory; decide

/-- A misaligned target for JAL (offset 2), JALR (an odd base) and a branch (offset -2); registers that take
each branch, BEQ, BGE and BGEU also on equal ones. Jumps rests on the same. -/
theorem witness_BadTargetFaultsAtTheNextFetch :
    (idle 0x1000 0x2001 0x2001).faultMark = none ∧
    ¬ multipleOf4 ((idle 0x1000 0x2001 0x2001).pc + (2 : BitVec 21).signExtend 32) ∧
    ¬ multipleOf4 ((idle 0x1000 0x2001 0x2001).readReg 6 + (0 : BitVec 12).signExtend 32) ∧
    ¬ multipleOf4 ((idle 0x1000 0x2001 0x2001).pc + (-2 : BitVec 13).signExtend 32) ∧
    (idle 0x1000 0x2001 0x2001).readReg 6 = (idle 0x1000 0x2001 0x2001).readReg 7 ∧
    (idle 0x1000 0xFFFFFFFF 1).readReg 6 ≠ (idle 0x1000 0xFFFFFFFF 1).readReg 7 ∧
    ((idle 0x1000 0xFFFFFFFF 1).readReg 6).toInt < ((idle 0x1000 0xFFFFFFFF 1).readReg 7).toInt ∧
    ((idle 0x1000 0x2001 0x2001).readReg 7).toInt ≤ ((idle 0x1000 0x2001 0x2001).readReg 6).toInt ∧
    ((idle 0x1000 1 0xFFFFFFFF).readReg 6).toNat < ((idle 0x1000 1 0xFFFFFFFF).readReg 7).toNat ∧
    ((idle 0x1000 0xFFFFFFFF 1).readReg 7).toNat ≤ ((idle 0x1000 0xFFFFFFFF 1).readReg 6).toNat := by
  unfold multipleOf4; decide

/-- Sign bit 0 and sign bit 30, clear and set, and a set one with a bit above it (E2). -/
theorem witness_SignExtensionLaw :
    (0#32 : Word).getLsbD 0 = false ∧ (1#32 : Word).getLsbD 0 = true ∧ (1#32 : Word).toNat < 2 ^ (0 + 1) ∧
    (0x3FFFFFFF#32 : Word).getLsbD 30 = false ∧ (0x40000000#32 : Word).getLsbD 30 = true ∧
    (0x40000000#32 : Word).toNat < 2 ^ (30 + 1) ∧ (0xC0000000#32 : Word).getLsbD 30 = true ∧
    ¬ (0xC0000000#32 : Word).toNat < 2 ^ (30 + 1) := by decide

/-- A word of each class with an immediate, its immediate an extreme one. -/
theorem witness_SourceBitsAreRecoverable :
    ((coreDecode 0x80030293#32).imm = some 0xFFFFF800 ∧ opcodeClass (opcodeField 0x80030293#32) = .opImm ∧
      (0x80030293#32 : Word).extractLsb' 12 3 ≠ 0b101#3) ∧
    ((coreDecode 0x800300E7#32).imm = some 0xFFFFF800 ∧ opcodeClass (opcodeField 0x800300E7#32) = .jalr) ∧
    ((coreDecode 0x80032283#32).imm = some 0xFFFFF800 ∧ opcodeClass (opcodeField 0x80032283#32) = .load) ∧
    ((coreDecode 0x41F35293#32).imm = some 31 ∧ opcodeClass (opcodeField 0x41F35293#32) = .opImm ∧
      (0x41F35293#32 : Word).extractLsb' 12 3 = 0b101#3) ∧
    ((coreDecode 0x80732023#32).imm = some 0xFFFFF800 ∧ opcodeClass (opcodeField 0x80732023#32) = .store) ∧
    ((coreDecode 0x80730063#32).imm = some 0xFFFFF000 ∧ opcodeClass (opcodeField 0x80730063#32) = .branch) ∧
    ((coreDecode 0xFFFFF2B7#32).imm = some 0xFFFFF000 ∧ opcodeClass (opcodeField 0xFFFFF2B7#32) = .lui) ∧
    ((coreDecode 0xFFFFF297#32).imm = some 0xFFFFF000 ∧ opcodeClass (opcodeField 0xFFFFF297#32) = .auipc) ∧
    ((coreDecode 0x800000EF#32).imm = some 0xFFF00000 ∧ opcodeClass (opcodeField 0x800000EF#32) = .jal) := by
  decide

/-- A word of each class. -/
theorem witness_DestinationIsNormalised :
    [0x13#32, 0x33#32, 0x37#32, 0x17#32, 0x6F#32, 0x67#32, 0x03#32, 0x73#32].map (fun w => opcodeClass (opcodeField w)) =
      [.opImm, .op, .lui, .auipc, .jal, .jalr, .load, .system] ∧
    [0x63#32, 0x23#32, 0x0F#32, 0x2F#32, 0x00#32].map (fun w => opcodeClass (opcodeField w)) =
      [.branch, .store, .miscMem, .amo, .unknown] := by decide

/-- Each row that executes is met by its own pattern and by the pattern with every unmasked bit set. -/
theorem witness_OpcodeTableSelectsTheInstruction :
    (supportedRows.all fun r => r.pattern &&& r.mask == r.pattern && (r.pattern ||| ~~~r.mask) &&& r.mask == r.pattern) =
      true := by decide

/-- For each clause, two different words that agree on the bits read. -/
theorem witness_UncheckedBitsAreIgnored :
    (opcodeClass (opcodeField 0x407302B3#32) = .op ∧ 0x407302B3#32 &&& 0x41FFFFFF#32 = 0xFE7302B3#32 &&& 0x41FFFFFF#32) ∧
    (opcodeClass (opcodeField 0x007372B3#32) = .op ∧ (0x007372B3#32 : Word).extractLsb' 12 3 ∉ [0b000#3, 0b101#3] ∧
      0x007372B3#32 &&& 0x01FFFFFF#32 = 0x407372B3#32 &&& 0x01FFFFFF#32) ∧
    (opcodeClass (opcodeField 0x00435293#32) = .opImm ∧ (0x00435293#32 : Word).extractLsb' 12 3 = 0b101#3 ∧
      0x00435293#32 &&& 0x41FFFFFF#32 = 0x80435293#32 &&& 0x41FFFFFF#32) ∧
    (opcodeClass (opcodeField 0x004300E7#32) = .jalr ∧ 0x004300E7#32 &&& 0xFFFF8FFF#32 = 0x004370E7#32 &&& 0xFFFF8FFF#32) := by
  decide

theorem witness_DecodeOfEncodedBytes :
    (Instr.jal 1 (-1048576)).wellFormed = true ∧ (Instr.beq 6 7 4094).wellFormed = true ∧
    (Instr.unsupportedUnknown 0#32).wellFormed = true ∧ (Instr.addi 0 0 0).wellFormed = true := by decide

/-- A descriptor of each type with what its clause needs. -/
theorem witness_ResultOverride :
    (coreDecode 0x340022F3#32).type = .csrr ∧ (coreDecode 0x34031073#32).type = .csrw ∧
    (coreDecode 0x00732423#32).type = .st ∧ (coreDecode 0x008000EF#32).type = .j ∧ (coreDecode 0x004300E7#32).type = .jr ∧
    ((coreDecode 0x12345297#32).type = .auipc ∧ (coreDecode 0x12345297#32).imm = some 0x12345000) ∧
    ((coreDecode 0#32).type = .unsupported ∧ (coreDecode 0#32).src1 = none) ∧
    ((coreDecode 0x00832283#32).type = .ld ∧ (coreDecode 0x00832283#32).src1 = some 6 ∧
      (coreDecode 0x00832283#32).imm = some 8) ∧
    ((coreDecode 0x00730863#32).type = .br ∧ (coreDecode 0x00730863#32).imm = some 16) ∧
    ((coreDecode 0x007302B3#32).type = .alu ∧ (coreDecode 0x007302B3#32).src1 = some 6 ∧
      (coreDecode 0x007302B3#32).imm = none ∧ (coreDecode 0x007302B3#32).src2 = some 7) := by decide

theorem witness_BranchConditions :
    (coreDecode 0x00730863#32).brFunc ≠ .alwaysTaken ∧ (coreDecode 0x00730863#32).brFunc ≠ .neverTaken := by decide

theorem witness_NextAddressStage :
    ((coreDecode 0x008000EF#32).imm = some 8 ∧ (coreDecode 0x008000EF#32).type = .j) ∧
    ((coreDecode 0x00730863#32).imm = some 16 ∧ (coreDecode 0x00730863#32).type = .br) ∧
    ((coreDecode 0x004300E7#32).imm = some 4 ∧ (coreDecode 0x004300E7#32).type = .jr) ∧
    ((coreDecode 0x00832283#32).imm = some 8 ∧ (coreDecode 0x00832283#32).type = .ld) ∧
    (coreDecode 0x34031073#32).type ∉ [ExecType.j, .jr, .br] ∧ branchTaken .eq 1 2 = false := by decide

theorem witness_NextIpIsOneOfThree :
    (coreDecode 0#32).type ∉ [ExecType.j, .jr, .br] ∧
    ((coreDecode 0xFE731CE3#32).type = .br ∧ branchTaken (coreDecode 0xFE731CE3#32).brFunc 1 2 = true ∧
      (coreDecode 0xFE731CE3#32).imm = some 0xFFFFFFF8#32) ∧
    ((coreDecode 0x002300E7#32).type = .jr ∧ (coreDecode 0x002300E7#32).brFunc = .alwaysTaken ∧
      (coreDecode 0x002300E7#32).imm = some 2#32) := by decide

/-- ADDI with two different words at the ports it does not read; a type that is neither Br nor Unsupported. -/
theorem witness_NoConsumedOutputDependsOnUnspec :
    ((coreDecode 0xFFF30293#32).src1.isSome = true → (⟨5, 1, 2⟩ : Ports).src1Val = (⟨5, 3, 4⟩ : Ports).src1Val) ∧
    ((coreDecode 0xFFF30293#32).src2.isSome = true → (⟨5, 1, 2⟩ : Ports).src2Val = (⟨5, 3, 4⟩ : Ports).src2Val) ∧
    ((coreDecode 0xFFF30293#32).type = .csrr → (⟨5, 1, 2⟩ : Ports).csrVal = (⟨5, 3, 4⟩ : Ports).csrVal) ∧
    (coreDecode 0xFFF30293#32).type ≠ .br ∧ (coreDecode 0xFFF30293#32).type ≠ .unsupported := by decide

theorem witness_RegistryContract : (2 : Nat) ≠ 1 := by decide

/-- A word for each row of the OpImm and Op statements: its canonical pattern with every other bit set. -/
theorem witness_OpImm_and_Op :
    ([(0x707F#32, 0x13#32), (0x707F#32, 0x4013#32), (0x707F#32, 0x6013#32), (0x707F#32, 0x7013#32),
      (0x707F#32, 0x2013#32), (0x707F#32, 0x3013#32), (0x707F#32, 0x1013#32), (0x4000707F#32, 0x5013#32),
      (0x4000707F#32, 0x40005013#32), (0x4000707F#32, 0x33#32), (0x4000707F#32, 0x40000033#32)] ++
     [(0x707F#32, 0x4033#32), (0x707F#32, 0x6033#32), (0x707F#32, 0x7033#32), (0x707F#32, 0x2033#32),
      (0x707F#32, 0x3033#32), (0x707F#32, 0x1033#32), (0x4000707F#32, 0x5033#32), (0x4000707F#32, 0x40005033#32)]).all
      (fun r => (r.2 ||| ~~~r.1) &&& r.1 == r.2 && decide ((r.2 ||| ~~~r.1) ≠ r.2)) = true := by decide

/-- The immediate, jump and branch statements' words; a register other than 0; an even offset. -/
theorem witness_UpperImmediates_Jumps_Branches :
    0x123452B7#32 &&& 0x0000007F#32 = 0x00000037#32 ∧ 0x12345297#32 &&& 0x0000007F#32 = 0x00000017#32 ∧
    0xFFDFF0EF#32 &&& 0x0000007F#32 = 0x0000006F#32 ∧ 0x004370E7#32 &&& 0x0000007F#32 = 0x00000067#32 ∧
    (-1048576 : BitVec 21).getLsbD 0 = false ∧ (-4096 : BitVec 13).getLsbD 0 = false ∧
    0x80730063#32 &&& 0x0000707F#32 = 0x00000063#32 ∧ 0xFE731CE3#32 &&& 0x0000707F#32 = 0x00001063#32 ∧
    0x00734863#32 &&& 0x0000707F#32 = 0x00004063#32 ∧ 0x00735863#32 &&& 0x0000707F#32 = 0x00005063#32 ∧
    0x00736863#32 &&& 0x0000707F#32 = 0x00006063#32 ∧ 0x00737863#32 &&& 0x0000707F#32 = 0x00007063#32 := by decide

/-- LW and SW: the last word of memory; a misaligned address; the first address past memory. -/
theorem witness_LoadWord_StoreWord :
    0x00832283#32 &&& 0x0000707F#32 = 0x00002003#32 ∧ 0x00732423#32 &&& 0x0000707F#32 = 0x00002023#32 ∧
    (multipleOf4 ((idle 0x1000 0x1FFC 0).readReg 6 + (0 : BitVec 12).signExtend 32) ∧
      inMemory (idle 0x1000 0x1FFC 0) ((idle 0x1000 0x1FFC 0).readReg 6 + (0 : BitVec 12).signExtend 32)) ∧
    ¬ multipleOf4 ((idle 0x1000 0x1FFD 0).readReg 6 + (0 : BitVec 12).signExtend 32) ∧
    (multipleOf4 ((idle 0x1000 0x1FFC 0).readReg 6 + (4 : BitVec 12).signExtend 32) ∧
      ¬ inMemory (idle 0x1000 0x1FFC 0) ((idle 0x1000 0x1FFC 0).readReg 6 + (4 : BitVec 12).signExtend 32)) ∧
    Memory.wf (idle 0x1000 0x1FFC 0).mem ∧ outsideWord 0x1FFC 0x1FFB := by
  unfold multipleOf4 inMemory outsideWord; decide

theorem witness_CsrWriteAndRead :
    0xFFF01073#32 &&& 0x00007FFF#32 = 0x00001073#32 ∧ 0xC0002073#32 &&& 0x000FF07F#32 = 0x00002073#32 ∧
    CsrFile.wf (idle 0x1000 0 0).csrs ∧ (0 : CsrIdx) ≠ 4095 := by decide

/-- A word for each clause: `lb`, `sb`, `csrrw` with `rd = 5`, `csrrs` with `rs1 = 6`, Branch 010 and 011. -/
theorem witness_UnsupportedFormsOfAClass :
    (0x00830283#32 &&& 0x0000007F#32 = 0x00000003#32 ∧ (0x00830283#32 : Word).extractLsb' 12 3 ≠ 0b010#3) ∧
    (0x00730423#32 &&& 0x0000007F#32 = 0x00000023#32 ∧ (0x00730423#32 : Word).extractLsb' 12 3 ≠ 0b010#3) ∧
    (0x340312F3#32 &&& 0x0000007F#32 = 0x00000073#32 ∧
      ¬ ((0x340312F3#32 : Word).extractLsb' 12 3 = 0b001#3 ∧ (0x340312F3#32 : Word).extractLsb' 7 5 = 0#5) ∧
      ¬ ((0x340312F3#32 : Word).extractLsb' 12 3 = 0b010#3 ∧ (0x340312F3#32 : Word).extractLsb' 15 5 = 0#5)) ∧
    (0x340322F3#32 &&& 0x0000007F#32 = 0x00000073#32 ∧
      ¬ ((0x340322F3#32 : Word).extractLsb' 12 3 = 0b001#3 ∧ (0x340322F3#32 : Word).extractLsb' 7 5 = 0#5) ∧
      ¬ ((0x340322F3#32 : Word).extractLsb' 12 3 = 0b010#3 ∧ (0x340322F3#32 : Word).extractLsb' 15 5 = 0#5)) ∧
    0x00732863#32 &&& 0x0000607F#32 = 0x00002063#32 ∧ 0x00733863#32 &&& 0x0000607F#32 = 0x00002063#32 := by decide

theorem witness_UnsupportedClasses :
    0x0FF0000F#32 &&& 0x0000007F#32 = 0x0000000F#32 ∧ 0x100322AF#32 &&& 0x0000007F#32 = 0x0000002F#32 ∧
    (0x00000000#32 : Word).extractLsb' 0 7 ∉ [0x03#7, 0x0F#7, 0x13#7, 0x17#7, 0x23#7, 0x2F#7, 0x33#7, 0x37#7, 0x63#7,
      0x67#7, 0x6F#7, 0x73#7] ∧
    (0xFFFFFFFF#32 : Word).extractLsb' 0 7 ∉ [0x03#7, 0x0F#7, 0x13#7, 0x17#7, 0x23#7, 0x2F#7, 0x33#7, 0x37#7, 0x63#7,
      0x67#7, 0x6F#7, 0x73#7] ∧
    (0x0FF0000F#32 : Word).extractLsb' 0 7 ∉ [0x03#7, 0x13#7, 0x17#7, 0x23#7, 0x33#7, 0x37#7, 0x63#7, 0x67#7, 0x6F#7,
      0x73#7] := by decide

theorem witness_LongPseudoInstructions : (1 : RegIdx) ≠ 0#5 ∧ (31 : RegIdx) ≠ 1#5 ∧ (1 : RegIdx) ≠ 6#5 := by decide

end Sys2Proof.Tests
end

section
/-! SUPPORT. `signExtend(v, sbit)` case by case of its sign bit (30_encoding.md R84), and the statement about it. -/

namespace Sys2Proof.Machine

/-- A one-bit field, as a number. -/
theorem toNat_bits_self (v : Word) (sbit : Nat) : (bits v sbit sbit).toNat = (v.getLsbD sbit).toNat := by
  rw [← BitVec.testBit_toNat, Nat.toNat_testBit, ← Nat.shiftRight_eq_div_pow]
  simp [bits, Nat.and_one_is_mod]

/-- R84's formula, as a number modulo `2^32`. -/
theorem signExtendAt_toNat (v : Word) (sbit : Nat) :
    (signExtendAt v sbit).toNat =
      (v.toNat + 0xFFFFFFFF * 2 ^ (sbit + 1) % 2 ^ 32 * (v.getLsbD sbit).toNat) % 2 ^ 32 := by
  rw [signExtendAt, BitVec.toNat_add, BitVec.toNat_mul, toNat_bits_self, BitVec.toNat_shiftLeft,
    Nat.shiftLeft_eq, Nat.add_mod_mod]
  rfl

theorem signExtendAt_of_clear {v : Word} {sbit : Nat} (h : v.getLsbD sbit = false) : signExtendAt v sbit = v := by
  apply BitVec.eq_of_toNat_eq
  rw [signExtendAt_toNat, h, Bool.toNat_false, Nat.mul_zero, Nat.add_zero, Nat.mod_eq_of_lt v.isLt]

theorem signExtendAt_of_set {v : Word} {sbit : Nat} (h : v.getLsbD sbit = true) :
    signExtendAt v sbit = v + 0xFFFFFFFF#32 <<< (sbit + 1) := by
  have hb : bits v sbit sbit = 1#32 := by
    apply BitVec.eq_of_toNat_eq
    rw [toNat_bits_self, h]
    rfl
  rw [signExtendAt, hb, BitVec.mul_one]

/-- A value with no bit above `sbit` has none in common with the ones above it. -/
theorem and_ones_above_of_lt {v : Word} {sbit : Nat} (hs : sbit < 31) (hv : v.toNat < 2 ^ (sbit + 1)) :
    v &&& 0xFFFFFFFF#32 <<< (sbit + 1) = 0#32 := by
  apply BitVec.eq_of_getLsbD_eq
  intro i _
  rw [BitVec.getLsbD_and, ones_above sbit hs, BitVec.getLsbD_zero]
  by_cases hi : sbit < i
  · have hlt : v.toNat < 2 ^ i := Nat.lt_of_lt_of_le hv (Nat.pow_le_pow_right (by omega) hi)
    rw [← BitVec.testBit_toNat, Nat.testBit_lt_two_pow hlt, Bool.false_and]
  · simp [hi]

theorem toNat_ones_above {sbit : Nat} (hs : sbit < 31) :
    (0xFFFFFFFF#32 <<< (sbit + 1)).toNat = 2 ^ 32 - 2 ^ (sbit + 1) := by
  have h : ∀ s < 31, (0xFFFFFFFF#32 <<< (s + 1)).toNat = 2 ^ 32 - 2 ^ (s + 1) := by decide
  exact h sbit hs

/-- Adding the ones above `sbit` is setting those bits exactly when none of them is set: otherwise the sum
wraps and falls below the ones themselves, which no `|||` with them does. -/
theorem add_ones_above_eq_or_iff {v : Word} {sbit : Nat} (hs : sbit < 31) :
    v + 0xFFFFFFFF#32 <<< (sbit + 1) = v ||| 0xFFFFFFFF#32 <<< (sbit + 1) ↔ v.toNat < 2 ^ (sbit + 1) := by
  constructor
  · intro h
    by_contra hv
    have hpow : 2 ^ (sbit + 1) ≤ 2 ^ 32 := Nat.pow_le_pow_right (by omega) (by omega)
    have hor : 2 ^ 32 - 2 ^ (sbit + 1) ≤ (v ||| 0xFFFFFFFF#32 <<< (sbit + 1)).toNat := by
      rw [BitVec.toNat_or, toNat_ones_above hs]
      exact Nat.right_le_or
    rw [← h, BitVec.toNat_add, toNat_ones_above hs] at hor
    have := v.isLt
    omega
  · exact fun hv => BitVec.add_eq_or_of_and_eq_zero _ _ (and_ones_above_of_lt hs hv)

/-- On a value with no bit above `sbit`, `signExtend` is two's-complement extension. -/
theorem signExtendAt_of_lt {v : Word} {sbit : Nat} (hs : sbit < 31) (hv : v.toNat < 2 ^ (sbit + 1)) :
    signExtendAt v sbit = (v.setWidth (sbit + 1)).signExtend 32 := by
  have hw : (v.setWidth (sbit + 1)).setWidth 32 = v := by
    apply BitVec.eq_of_toNat_eq
    rw [BitVec.toNat_setWidth, BitVec.toNat_setWidth, Nat.mod_eq_of_lt hv, Nat.mod_eq_of_lt v.isLt]
  have h := signExtendAt_setWidth (Nat.succ_pos sbit) (by omega) (v.setWidth (sbit + 1))
  rwa [hw] at h

/-- Settles O22: the formula as a number, then one lemma per value of the sign bit. -/
theorem signExtensionLaw : Obligations.SignExtensionLaw := by
  intro v sbit hs
  refine ⟨signExtendAt_toNat v sbit, signExtendAt_of_clear, fun h => ?_, signExtendAt_of_lt hs, by decide⟩
  rw [signExtendAt_of_set h]
  exact add_ones_above_eq_or_iff hs

end Sys2Proof.Machine
end

section
/-! SUPPORT. The ranges of sign-extended immediates as signed numbers, and the statement about the five
immediates (30_encoding.md R80 to R83, R85). -/

namespace Sys2Proof.Machine

variable {n : Nat}

theorem toInt_signExtend_range (hn : n ≤ 32) (x : BitVec n) :
    -2 ^ (n - 1) ≤ (x.signExtend 32).toInt ∧ (x.signExtend 32).toInt ≤ 2 ^ (n - 1) - 1 := by
  rw [BitVec.toInt_signExtend_of_le hn]
  exact ⟨BitVec.le_toInt x, BitVec.toInt_le⟩

/-- A field joined with a zero bit stands for twice its number. -/
theorem toInt_signExtend_append_zero (h0 : 0 < n) (hn : n < 32) (x : BitVec n) :
    ((x ++ 0#1).signExtend 32).toInt = 2 * x.toInt := by
  rw [BitVec.toInt_signExtend_of_le (by omega), BitVec.toInt_append]
  simp [Nat.ne_of_gt h0]

/-- The range and the evenness of a branch or jump offset. -/
theorem toInt_evenOffset_range (h0 : 0 < n) (hn : n < 32) (x : BitVec n) :
    2 * -2 ^ (n - 1) ≤ ((x ++ 0#1).signExtend 32).toInt ∧
    ((x ++ 0#1).signExtend 32).toInt ≤ 2 * (2 ^ (n - 1) - 1) ∧
    ((x ++ 0#1).signExtend 32).toInt % 2 = 0 := by
  have hlo := BitVec.le_toInt x
  have hhi := BitVec.toInt_le (x := x)
  rw [toInt_signExtend_append_zero h0 hn]
  exact ⟨by omega, by omega, Int.mul_emod_right 2 _⟩

/-- Settles O23: each immediate is its sign-extended field, whose range is that of its width. -/
theorem immediates : Obligations.Immediates := by
  intro w
  refine ⟨⟨immI_eq w, ?_⟩, ⟨immS_eq w, ?_⟩, ⟨immB_eq w, ?_⟩, ⟨immU_eq w, rfl⟩, ⟨immJ_eq w, ?_⟩⟩
  · rw [immI_eq]
    exact toInt_signExtend_range (by omega) _
  · rw [immS_eq]
    exact toInt_signExtend_range (by omega) _
  · rw [immB_eq]
    exact toInt_evenOffset_range (by omega) (by omega) _
  · rw [immJ_eq]
    exact toInt_evenOffset_range (by omega) (by omega) _

end Sys2Proof.Machine
end

section
/-! SUPPORT. What the instruction rules share, whatever their class: a masked word as its fields, the normalised
destination, the shift amount, and the register write with its frame. -/

open Sys2Proof.Claims

namespace Sys2Proof.Machine

variable {w : Word} {c : BitVec 7} {funct3 : BitVec 3} {sel : Bool}

theorem fields_of_funct3_row (h : w &&& 0x707F#32 = (funct3 ++ 0#5 ++ c).setWidth 32) :
    opcodeField w = c ∧ funct3Field w = funct3 :=
  (row_funct3_iff w funct3 c).mp (beq_iff_eq.mpr h)

theorem fields_of_funct3_aluSel_row
    (h : w &&& 0x4000707F#32 =
      (funct3 ++ 0#5 ++ c).setWidth 32 ||| (if sel then 0x40000000#32 else 0#32)) :
    opcodeField w = c ∧ funct3Field w = funct3 ∧ aluSelBit w = sel :=
  (row_funct3_aluSel_iff w funct3 sel c).mp (beq_iff_eq.mpr h)

/-- Normalising a descriptor whose builder gave it a destination (30_encoding.md R92). -/
theorem normalizeDst_of_dst {d : Descriptor} {rd : RegIdx} (h : d.dst = some rd) :
    d.normalizeDst = { d with dst := dstOf rd } := by
  by_cases h0 : rd = 0#5
  · subst h0
    simp [Descriptor.normalizeDst, dstOf, h]
  · have hd : dstOf rd = d.dst := by rw [dstOf, if_neg h0, h]
    rw [Descriptor.normalizeDst, if_neg (by simpa [h] using h0), hd]

/-- The shift amount is the low five bits (48_executor.md R197). -/
theorem shiftAmount_eq_extractLsb' (b : Word) : shiftAmount b = (b.extractLsb' 0 5).toNat := by
  rw [shiftAmount, BitVec.extractLsb'_toNat, Nat.shiftRight_zero]

theorem shiftAmount_setWidth (shamt : BitVec 5) : shiftAmount (shamt.setWidth 32) = shamt.toNat := by
  have hlt := shamt.isLt
  rw [shiftAmount, BitVec.toNat_setWidth]
  omega

/-- A 1-or-0 comparison of the ALU is the claims' `oneIf`. -/
theorem boolWord_decide (p : Prop) [Decidable p] : boolWord (decide p) = oneIf p := by
  by_cases h : p <;> simp [boolWord, oneIf, h]

theorem storageKept_writeReg_setPc (s : State) (rd : RegIdx) (v next : Word) :
    storageKept s ((s.writeReg rd v).setPc next) := by
  simp [storageKept]

/-- An instruction that writes a register and moves `pc` does nothing else. -/
theorem writesReg_of_exec_eq {i : Instr} {s : State} {rd : RegIdx} {v next : Word}
    (h : exec i s = .next ((s.writeReg rd v).setPc next)) : writesReg i s rd v next := by
  refine ⟨_, h, rfl, State.readReg_writeReg_self, fun r hr => ?_, storageKept_writeReg_setPc s rd v next⟩
  rcases hr with hne | rfl
  · exact State.readReg_writeReg_other hne
  · rfl

end Sys2Proof.Machine
end

section
/-! SUPPORT. The OpImm class: its decoders case by case of `funct3` and `aluSel`, what `execute` gives, and the
statements about its instructions (40_opimm.md R110 to R121). -/

open Sys2Proof.Claims

namespace Sys2Proof.Machine

/-! ## Decoding -/

section
variable {w : Word}

theorem decodeWord_opImm (h : opcodeField w = 0x13#7) : decodeWord w = decodeOpImm w := by
  simp [decodeWord, opcodeClass, h]

theorem decodeOpImm_addi (h : funct3Field w = 0b000#3) :
    decodeOpImm w = .addi (rdField w) (rs1Field w) (immIField w) := by simp [decodeOpImm, h]

theorem decodeOpImm_slli (h : funct3Field w = 0b001#3) :
    decodeOpImm w = .slli (rdField w) (rs1Field w) (immIField w) := by simp [decodeOpImm, h]

theorem decodeOpImm_slti (h : funct3Field w = 0b010#3) :
    decodeOpImm w = .slti (rdField w) (rs1Field w) (immIField w) := by simp [decodeOpImm, h]

theorem decodeOpImm_sltiu (h : funct3Field w = 0b011#3) :
    decodeOpImm w = .sltiu (rdField w) (rs1Field w) (immIField w) := by simp [decodeOpImm, h]

theorem decodeOpImm_xori (h : funct3Field w = 0b100#3) :
    decodeOpImm w = .xori (rdField w) (rs1Field w) (immIField w) := by simp [decodeOpImm, h]

theorem decodeOpImm_srli (h : funct3Field w = 0b101#3) (hs : aluSelBit w = false) :
    decodeOpImm w = .srli (rdField w) (rs1Field w) (rs2Field w) := by simp [decodeOpImm, h, hs]

theorem decodeOpImm_srai (h : funct3Field w = 0b101#3) (hs : aluSelBit w = true) :
    decodeOpImm w = .srai (rdField w) (rs1Field w) (rs2Field w) := by simp [decodeOpImm, h, hs]

theorem decodeOpImm_ori (h : funct3Field w = 0b110#3) :
    decodeOpImm w = .ori (rdField w) (rs1Field w) (immIField w) := by simp [decodeOpImm, h]

theorem decodeOpImm_andi (h : funct3Field w = 0b111#3) :
    decodeOpImm w = .andi (rdField w) (rs1Field w) (immIField w) := by simp [decodeOpImm, h]

theorem opImmImm_of_ne (h : funct3Field w ≠ 0b101#3) : opImmImm w = sextI w := by
  rw [opImmImm, if_neg h, immI_eq]
  rfl

theorem opImmImm_of_rightShift (h : funct3Field w = 0b101#3) : opImmImm w = (rs2Field w).setWidth 32 := by
  rw [opImmImm, if_pos h, immI_masked]

/-- The descriptor of an OpImm word (40_opimm.md R110), its ALU function and immediate given. -/
theorem coreDecode_opImm {f : AluFunc} {imm : Word} (ho : opcodeField w = 0x13#7)
    (hf : aluFuncOf false (funct3Field w) (aluSelBit w) = f) (hi : opImmImm w = imm) :
    coreDecode w =
      { type := .alu, aluFunc := f, brFunc := .neverTaken, dst := dstOf (rdField w),
        src1 := some (rs1Field w), src2 := none, imm := some imm, csr := none } := by
  have hb : builder (opcodeClass (opcodeField w)) w = opImmBuilder f (rdField w) (rs1Field w) imm := by
    rw [ho, ← hf, ← hi]
    rfl
  rw [coreDecode, hb, normalizeDst_of_dst rfl]
  rfl

end

/-! ## The two shapes of a rule -/

/-- A rule of the class whose immediate is `immI`: from its row of the decoders' tables, its ALU operation
and its meaning. -/
theorem opImmRule_of {pattern : Word} {funct3 : BitVec 3} {f : AluFunc} {op : Word → Word → Word}
    {instr : RegIdx → RegIdx → BitVec 12 → Instr}
    (hpattern : pattern = (funct3 ++ 0#5 ++ 0x13#7).setWidth 32) (hne : funct3 ≠ 0b101#3)
    (hfunc : ∀ sel, aluFuncOf false funct3 sel = f)
    (hop : ∀ free a b, aluOp f free a b = op a b)
    (hdecode : ∀ {w}, funct3Field w = funct3 → decodeOpImm w = instr (rdField w) (rs1Field w) (immIField w))
    (hexec : ∀ rd rs1 imm s,
      exec (instr rd rs1 imm) s = execBuilt (opImmBuilder f rd rs1 (imm.signExtend 32)) s) :
    opImmRule pattern funct3 f op instr := by
  refine ⟨fun rd rs1 imm => ?_, fun w hw => ?_, fun rd rs1 imm s => ?_⟩
  · change decodeWord (encodeI imm rs1 funct3 rd 0x13#7) = _
    rw [decodeWord_opImm (by simp), hdecode (by simp)]
    simp
  · obtain ⟨ho, h3⟩ := fields_of_funct3_row (hw.trans hpattern)
    have hcore := coreDecode_opImm ho (by rw [h3, hfunc]) (opImmImm_of_ne (h3 ▸ hne))
    refine ⟨(decodeWord_opImm ho).trans (hdecode h3), hcore, fun u ip p => ?_⟩
    rw [hcore, ← hop (u .noneResult)]
    rfl
  · apply writesReg_of_exec_eq
    rw [hexec, execBuilt_opImm, hop]

/-- A right shift, by its `aluSel` bit: its immediate is the amount. -/
theorem shiftRightImmRule_of {pattern : Word} {funct7 : BitVec 7} {sel : Bool} {f : AluFunc}
    {op : Word → Nat → Word} {instr : RegIdx → RegIdx → BitVec 5 → Instr}
    (hpattern : pattern = (0b101#3 ++ 0#5 ++ 0x13#7).setWidth 32 ||| (if sel then 0x40000000#32 else 0#32))
    (hsel : funct7.getLsbD 5 = sel) (hfunc : aluFuncOf false 0b101#3 sel = f)
    (hop : ∀ free a b, aluOp f free a b = op a (shiftAmount b))
    (hdecode : ∀ {w}, funct3Field w = 0b101#3 → aluSelBit w = sel →
      decodeOpImm w = instr (rdField w) (rs1Field w) (rs2Field w))
    (hexec : ∀ rd rs1 shamt s,
      exec (instr rd rs1 shamt) s = execBuilt (opImmBuilder f rd rs1 (shamt.zeroExtend 32)) s) :
    shiftRightImmRule pattern funct7 f op instr := by
  refine ⟨fun rd rs1 shamt => ?_, fun w hw => ?_, fun rd rs1 shamt s => ?_⟩
  · change decodeWord (encodeR funct7 shamt rs1 0b101#3 rd 0x13#7) = _
    rw [decodeWord_opImm (by simp), hdecode (by simp) (by simpa using hsel)]
    simp
  · obtain ⟨ho, h3, hs⟩ := fields_of_funct3_aluSel_row (hw.trans hpattern)
    have hcore := coreDecode_opImm ho (by rw [h3, hs, hfunc]) (opImmImm_of_rightShift h3)
    refine ⟨(decodeWord_opImm ho).trans (hdecode h3 hs), hcore, fun u ip p => ?_⟩
    rw [hcore, ← shiftAmount_setWidth, ← hop (u .noneResult)]
    rfl
  · apply writesReg_of_exec_eq
    rw [hexec, execBuilt_opImm, hop, shiftAmount_setWidth]

/-! ## The statements -/

/-- Settles O43: each instruction by its row of the class. -/
theorem opImmArithmeticLogic : Obligations.OpImmArithmeticLogic := by
  refine ⟨?addi, ?xori, ?ori, ?andi⟩
  case addi =>
    exact opImmRule_of rfl (by decide) (fun _ => rfl) (fun _ _ _ => rfl) decodeOpImm_addi
      (fun _ _ _ _ => rfl)
  case xori =>
    exact opImmRule_of rfl (by decide) (fun _ => rfl) (fun _ _ _ => rfl) decodeOpImm_xori
      (fun _ _ _ _ => rfl)
  case ori =>
    exact opImmRule_of rfl (by decide) (fun _ => rfl) (fun _ _ _ => rfl) decodeOpImm_ori
      (fun _ _ _ _ => rfl)
  case andi =>
    exact opImmRule_of rfl (by decide) (fun _ => rfl) (fun _ _ _ => rfl) decodeOpImm_andi
      (fun _ _ _ _ => rfl)

/-- Settles O44: each instruction by its row of the class, the operation being the 1-or-0 word of the comparison. -/
theorem opImmComparisons : Obligations.OpImmComparisons := by
  refine ⟨?slti, ?sltiu⟩
  case slti =>
    exact opImmRule_of rfl (by decide) (fun _ => rfl) (fun _ _ _ => boolWord_decide _) decodeOpImm_slti
      (fun _ _ _ _ => rfl)
  case sltiu =>
    exact opImmRule_of rfl (by decide) (fun _ => rfl) (fun _ _ _ => boolWord_decide _) decodeOpImm_sltiu
      (fun _ _ _ _ => rfl)

/-- Settles O45: SLLI has the unmasked immediate of the class, and the ALU reads its low five bits; the right
shifts are told apart by `aluSel`. -/
theorem opImmShifts : Obligations.OpImmShifts := by
  refine ⟨?slli, ?srli, ?srai, fun a n _ => ?floor⟩
  case slli =>
    exact opImmRule_of rfl (by decide) (fun _ => rfl)
      (fun _ a b => congrArg (a <<< ·) (shiftAmount_eq_extractLsb' b))
      decodeOpImm_slli (fun _ _ _ _ => rfl)
  case srli =>
    exact shiftRightImmRule_of (sel := false) rfl rfl rfl (fun _ _ _ => rfl) decodeOpImm_srli (fun _ _ _ _ => rfl)
  case srai =>
    exact shiftRightImmRule_of (sel := true) rfl rfl rfl (fun _ _ _ => rfl) decodeOpImm_srai (fun _ _ _ _ => rfl)
  case floor =>
    rw [BitVec.toInt_sshiftRight, Int.shiftRight_eq_div_pow]
    norm_cast

end Sys2Proof.Machine
end

section
/-! SUPPORT. The Op class: its decoders case by case of `funct3` and `aluSel`, what `execute` gives, and the
statements about its instructions (41_op.md R125 to R138). -/

open Sys2Proof.Claims

namespace Sys2Proof.Machine

/-! ## Decoding -/

section
variable {w : Word}

theorem decodeWord_op (h : opcodeField w = 0x33#7) : decodeWord w = decodeOp w := by
  simp [decodeWord, opcodeClass, h]

theorem decodeOp_add (h : funct3Field w = 0b000#3) (hs : aluSelBit w = false) :
    decodeOp w = .add (rdField w) (rs1Field w) (rs2Field w) := by simp [decodeOp, h, hs]

theorem decodeOp_sub (h : funct3Field w = 0b000#3) (hs : aluSelBit w = true) :
    decodeOp w = .sub (rdField w) (rs1Field w) (rs2Field w) := by simp [decodeOp, h, hs]

theorem decodeOp_sll (h : funct3Field w = 0b001#3) :
    decodeOp w = .sll (rdField w) (rs1Field w) (rs2Field w) := by simp [decodeOp, h]

theorem decodeOp_slt (h : funct3Field w = 0b010#3) :
    decodeOp w = .slt (rdField w) (rs1Field w) (rs2Field w) := by simp [decodeOp, h]

theorem decodeOp_sltu (h : funct3Field w = 0b011#3) :
    decodeOp w = .sltu (rdField w) (rs1Field w) (rs2Field w) := by simp [decodeOp, h]

theorem decodeOp_xor (h : funct3Field w = 0b100#3) :
    decodeOp w = .xor (rdField w) (rs1Field w) (rs2Field w) := by simp [decodeOp, h]

theorem decodeOp_srl (h : funct3Field w = 0b101#3) (hs : aluSelBit w = false) :
    decodeOp w = .srl (rdField w) (rs1Field w) (rs2Field w) := by simp [decodeOp, h, hs]

theorem decodeOp_sra (h : funct3Field w = 0b101#3) (hs : aluSelBit w = true) :
    decodeOp w = .sra (rdField w) (rs1Field w) (rs2Field w) := by simp [decodeOp, h, hs]

theorem decodeOp_or (h : funct3Field w = 0b110#3) :
    decodeOp w = .or (rdField w) (rs1Field w) (rs2Field w) := by simp [decodeOp, h]

theorem decodeOp_and (h : funct3Field w = 0b111#3) :
    decodeOp w = .and (rdField w) (rs1Field w) (rs2Field w) := by simp [decodeOp, h]

/-- The descriptor of an Op word (41_op.md R125), its ALU function given. -/
theorem coreDecode_op {f : AluFunc} (ho : opcodeField w = 0x33#7)
    (hf : aluFuncOf true (funct3Field w) (aluSelBit w) = f) :
    coreDecode w =
      { type := .alu, aluFunc := f, brFunc := .neverTaken, dst := dstOf (rdField w),
        src1 := some (rs1Field w), src2 := some (rs2Field w), imm := none, csr := none } := by
  have hb : builder (opcodeClass (opcodeField w)) w = opBuilder f (rdField w) (rs1Field w) (rs2Field w) := by
    rw [ho, ← hf]
    rfl
  rw [coreDecode, hb, normalizeDst_of_dst rfl]
  rfl

end

/-! ## The shape of a rule, and its two kinds of row -/

section
variable {mask pattern : Word} {funct7 : BitVec 7} {funct3 : BitVec 3} {sel : Bool} {f : AluFunc}
  {op : Word → Word → Word} {instr : RegIdx → RegIdx → RegIdx → Instr}

/-- A rule of the class, `selOk` saying which values of `aluSel` its row selects: from the row, its entries in the
decoders' tables, its ALU operation and its meaning. -/
theorem opRule_of {selOk : Bool → Prop}
    (hrow : ∀ w, w &&& mask = pattern →
      opcodeField w = 0x33#7 ∧ funct3Field w = funct3 ∧ selOk (aluSelBit w))
    (hsel : selOk (funct7.getLsbD 5))
    (hfunc : ∀ b, selOk b → aluFuncOf true funct3 b = f)
    (hop : ∀ free a b, aluOp f free a b = op a b)
    (hdecode : ∀ {w}, funct3Field w = funct3 → selOk (aluSelBit w) →
      decodeOp w = instr (rdField w) (rs1Field w) (rs2Field w))
    (hexec : ∀ rd rs1 rs2 s, exec (instr rd rs1 rs2) s = execBuilt (opBuilder f rd rs1 rs2) s) :
    opRule mask pattern funct7 funct3 f op instr := by
  refine ⟨fun rd rs1 rs2 => ?_, fun w hw => ?_, fun rd rs1 rs2 s => ?_⟩
  · change decodeWord (encodeR funct7 rs2 rs1 funct3 rd 0x33#7) = _
    rw [decodeWord_op (by simp), hdecode (by simp) (by simpa using hsel)]
    simp
  · obtain ⟨ho, h3, hs⟩ := hrow w hw
    have hcore := coreDecode_op ho (by rw [h3, hfunc _ hs])
    refine ⟨(decodeWord_op ho).trans (hdecode h3 hs), hcore, fun u ip p => ?_⟩
    rw [hcore, ← hop (u .noneResult)]
    rfl
  · apply writesReg_of_exec_eq
    rw [hexec, execBuilt_op, hop]

/-- A rule whose row does not look at `aluSel`. -/
theorem opRule_of_funct3_row
    (hpattern : pattern = (funct3 ++ 0#5 ++ 0x33#7).setWidth 32)
    (hfunc : ∀ b, aluFuncOf true funct3 b = f)
    (hop : ∀ free a b, aluOp f free a b = op a b)
    (hdecode : ∀ {w}, funct3Field w = funct3 → decodeOp w = instr (rdField w) (rs1Field w) (rs2Field w))
    (hexec : ∀ rd rs1 rs2 s, exec (instr rd rs1 rs2) s = execBuilt (opBuilder f rd rs1 rs2) s) :
    opRule 0x0000707F#32 pattern funct7 funct3 f op instr := by
  refine opRule_of (selOk := fun _ => True) (fun w hw => ?_) trivial (fun b _ => hfunc b) hop
    (fun h _ => hdecode h) hexec
  obtain ⟨ho, h3⟩ := fields_of_funct3_row (hw.trans hpattern)
  exact ⟨ho, h3, trivial⟩

/-- A rule whose row fixes `aluSel` as `sel`. -/
theorem opRule_of_funct3_aluSel_row
    (hpattern : pattern = (funct3 ++ 0#5 ++ 0x33#7).setWidth 32 ||| (if sel then 0x40000000#32 else 0#32))
    (hsel : funct7.getLsbD 5 = sel) (hfunc : aluFuncOf true funct3 sel = f)
    (hop : ∀ free a b, aluOp f free a b = op a b)
    (hdecode : ∀ {w}, funct3Field w = funct3 → aluSelBit w = sel →
      decodeOp w = instr (rdField w) (rs1Field w) (rs2Field w))
    (hexec : ∀ rd rs1 rs2 s, exec (instr rd rs1 rs2) s = execBuilt (opBuilder f rd rs1 rs2) s) :
    opRule 0x4000707F#32 pattern funct7 funct3 f op instr :=
  opRule_of (selOk := (· = sel)) (fun _ hw => fields_of_funct3_aluSel_row (hw.trans hpattern)) hsel
    (fun _ hb => hb ▸ hfunc) hop hdecode hexec

end

/-! ## The statements -/

/-- Settles O46: ADD and SUB share `funct3` and are told apart by `aluSel`; the others have a `funct3` of their own. -/
theorem opArithmeticLogic : Obligations.OpArithmeticLogic := by
  refine ⟨?add, ?sub, ?xor, ?or, ?and⟩
  case add =>
    exact opRule_of_funct3_aluSel_row (sel := false) rfl rfl rfl (fun _ _ _ => rfl) decodeOp_add
      (fun _ _ _ _ => rfl)
  case sub =>
    exact opRule_of_funct3_aluSel_row (sel := true) rfl rfl rfl (fun _ _ _ => rfl) decodeOp_sub
      (fun _ _ _ _ => rfl)
  case xor => exact opRule_of_funct3_row rfl (fun _ => rfl) (fun _ _ _ => rfl) decodeOp_xor (fun _ _ _ _ => rfl)
  case or => exact opRule_of_funct3_row rfl (fun _ => rfl) (fun _ _ _ => rfl) decodeOp_or (fun _ _ _ _ => rfl)
  case and => exact opRule_of_funct3_row rfl (fun _ => rfl) (fun _ _ _ => rfl) decodeOp_and (fun _ _ _ _ => rfl)

/-- Settles O47: each comparison by its row, the operation being the 1-or-0 word of the comparison. -/
theorem opComparisons : Obligations.OpComparisons := by
  refine ⟨?slt, ?sltu⟩
  case slt =>
    exact opRule_of_funct3_row rfl (fun _ => rfl) (fun _ _ _ => boolWord_decide _) decodeOp_slt
      (fun _ _ _ _ => rfl)
  case sltu =>
    exact opRule_of_funct3_row rfl (fun _ => rfl) (fun _ _ _ => boolWord_decide _) decodeOp_sltu
      (fun _ _ _ _ => rfl)

/-- Settles O48: each shift by its row, SRL and SRA told apart by `aluSel`; the ALU's amount is the low five bits. -/
theorem opShifts : Obligations.OpShifts := by
  refine ⟨?sll, ?srl, ?sra⟩
  case sll =>
    exact opRule_of_funct3_row rfl (fun _ => rfl)
      (fun _ a b => congrArg (a <<< ·) (shiftAmount_eq_extractLsb' b)) decodeOp_sll (fun _ _ _ _ => rfl)
  case srl =>
    exact opRule_of_funct3_aluSel_row (sel := false) rfl rfl rfl
      (fun _ a b => congrArg (a >>> ·) (shiftAmount_eq_extractLsb' b)) decodeOp_srl (fun _ _ _ _ => rfl)
  case sra =>
    exact opRule_of_funct3_aluSel_row (sel := true) rfl rfl rfl
      (fun _ a b => congrArg (BitVec.sshiftRight a) (shiftAmount_eq_extractLsb' b)) decodeOp_sra
      (fun _ _ _ _ => rfl)

end Sys2Proof.Machine
end

section
/-! SUPPORT. The Jal and Jalr classes: their decoders, their effect, the fetch fault of a bad target, and the
statement about them (43_jumps.md R145 to R149). -/

open Sys2Proof.Claims

namespace Sys2Proof.Machine

/-! ## Decoding -/

section
variable {w : Word}

/-- A row of the opcode table that looks at the opcode alone. -/
theorem opcodeField_of_opcode_row {c : BitVec 7} (h : w &&& 0x7F#32 = c.setWidth 32) : opcodeField w = c :=
  (row_opcode_iff w c).mp (beq_iff_eq.mpr h)

theorem decodeWord_jal (h : opcodeField w = 0x6F#7) : decodeWord w = .jal (rdField w) (immJField w) := by
  simp [decodeWord, opcodeClass, h]

theorem decodeWord_jalr (h : opcodeField w = 0x67#7) :
    decodeWord w = .jalr (rdField w) (rs1Field w) (immIField w) := by
  simp [decodeWord, opcodeClass, h]

/-- The descriptor of a Jal word (43_jumps.md R145). -/
theorem coreDecode_jal (h : opcodeField w = 0x6F#7) :
    coreDecode w =
      { type := .j, aluFunc := .none, brFunc := .alwaysTaken, dst := dstOf (rdField w),
        src1 := none, src2 := none, imm := some (sextJ w), csr := none } := by
  have hb : builder (opcodeClass (opcodeField w)) w = jalBuilder (rdField w) (sextJ w) := by
    rw [h]
    exact congrArg (jalBuilder (rdField w)) (immJ_eq w)
  rw [coreDecode, hb, normalizeDst_of_dst rfl]
  rfl

/-- The descriptor of a Jalr word (43_jumps.md R147). -/
theorem coreDecode_jalr (h : opcodeField w = 0x67#7) :
    coreDecode w =
      { type := .jr, aluFunc := .none, brFunc := .alwaysTaken, dst := dstOf (rdField w),
        src1 := some (rs1Field w), src2 := none, imm := some (sextI w), csr := none } := by
  have hb : builder (opcodeClass (opcodeField w)) w = jalrBuilder (rdField w) (rs1Field w) (sextI w) := by
    rw [h]
    exact congrArg (jalrBuilder (rdField w) (rs1Field w)) (immI_eq w)
  rw [coreDecode, hb, normalizeDst_of_dst rfl]
  rfl

end

/-! ## The effect in ENV -/

/-- R146. -/
theorem writesReg_jal (rd : RegIdx) (off : BitVec 21) (s : State) :
    writesReg (.jal rd off) s rd (s.pc + 4#32) (s.pc + off.signExtend 32) :=
  writesReg_of_exec_eq (execBuilt_jal s rd (off.signExtend 32))

/-- R148: the target is read off the state before the link is written, so also with `rd = rs1`. -/
theorem writesReg_jalr (rd rs1 : RegIdx) (imm : BitVec 12) (s : State) :
    writesReg (.jalr rd rs1 imm) s rd (s.pc + 4#32) (s.readReg rs1 + imm.signExtend 32) :=
  writesReg_of_exec_eq (execBuilt_jalr s rd rs1 (imm.signExtend 32))

/-- A running state whose `pc` is no multiple of 4 faults at fetch (20_memory.md R56). -/
theorem step_of_misaligned_pc {s : State} (hf : s.faultMark = none) (hpc : ¬ multipleOf4 s.pc) :
    step s = .next (s.raise (.fetchMisaligned s.pc)) := by
  have ha : aligned s.pc = false := beq_false_of_ne hpc
  simpa [hf, ha] using step_cases s

/-- An instruction that links and completes in a running state leaves a bad target to the next fetch. -/
theorem targetFaults_of_writesReg {i : Instr} {s : State} {rd : RegIdx} {target : Word}
    (hf : s.faultMark = none) (h : writesReg i s rd (s.pc + 4#32) target) : targetFaults i s rd target := by
  intro hbad
  obtain ⟨t, hexec, rfl, hlink, -, -, -, -, -, hmark⟩ := h
  exact ⟨t, hexec, hlink, step_of_misaligned_pc (hmark.trans hf) hbad⟩

/-! ## The statement -/

/-- Settles O50: the decoders by the opcode alone, the effects by the shared cycle, and the fault of a bad
target from the effect. -/
theorem jumps : Obligations.Jumps := by
  refine ⟨?jalWord, ?jalrWord, ?jalRow, ?jalrRow, writesReg_jal, writesReg_jalr, ?badTarget⟩
  case jalWord =>
    intro rd off heven
    exact Laws.RoundTrip.jal rd off (by simpa [Instr.wellFormed] using heven)
  case jalrWord =>
    intro rd rs1 imm
    exact Laws.RoundTrip.jalr rd rs1 imm rfl
  case jalRow =>
    intro w hw
    have ho : opcodeField w = 0x6F#7 := opcodeField_of_opcode_row hw
    refine ⟨⟨immJField w, decodeWord_jal ho, rfl⟩, coreDecode_jal ho, fun u ip p => ?_⟩
    rw [coreDecode_jal ho]
    rfl
  case jalrRow =>
    intro w hw
    have ho : opcodeField w = 0x67#7 := opcodeField_of_opcode_row hw
    refine ⟨decodeWord_jalr ho, coreDecode_jalr ho, fun u ip p => ?_⟩
    rw [coreDecode_jalr ho]
    rfl
  case badTarget =>
    intro rd rs1 off imm s hf
    exact ⟨targetFaults_of_writesReg hf (writesReg_jal rd off s),
      targetFaults_of_writesReg hf (writesReg_jalr rd rs1 imm s)⟩

end Sys2Proof.Machine
end

section
/-! SUPPORT. The Branch class: its decoders case by case of `funct3`, the outputs of `execute`, the effect in ENV,
and the statement about its six instructions (44_branch.md R150 to R157). -/

open Sys2Proof.Claims

namespace Sys2Proof.Machine

/-! ## Decoding -/

section
variable {w : Word}

theorem decodeWord_branch (h : opcodeField w = 0x63#7) : decodeWord w = decodeBranch w := by
  simp [decodeWord, opcodeClass, h]

theorem decodeBranch_beq (h : funct3Field w = 0b000#3) :
    decodeBranch w = .beq (rs1Field w) (rs2Field w) (immBField w) := by simp [decodeBranch, h]

theorem decodeBranch_bne (h : funct3Field w = 0b001#3) :
    decodeBranch w = .bne (rs1Field w) (rs2Field w) (immBField w) := by simp [decodeBranch, h]

theorem decodeBranch_blt (h : funct3Field w = 0b100#3) :
    decodeBranch w = .blt (rs1Field w) (rs2Field w) (immBField w) := by simp [decodeBranch, h]

theorem decodeBranch_bge (h : funct3Field w = 0b101#3) :
    decodeBranch w = .bge (rs1Field w) (rs2Field w) (immBField w) := by simp [decodeBranch, h]

theorem decodeBranch_bltu (h : funct3Field w = 0b110#3) :
    decodeBranch w = .bltu (rs1Field w) (rs2Field w) (immBField w) := by simp [decodeBranch, h]

theorem decodeBranch_bgeu (h : funct3Field w = 0b111#3) :
    decodeBranch w = .bgeu (rs1Field w) (rs2Field w) (immBField w) := by simp [decodeBranch, h]

/-- The descriptor of a Branch word that has a branch function (44_branch.md R150). -/
theorem coreDecode_branch {f : BrFunc} (ho : opcodeField w = 0x63#7)
    (hf : brFuncOf (funct3Field w) = some f) :
    coreDecode w =
      { type := .br, aluFunc := .none, brFunc := f, dst := none, src1 := some (rs1Field w),
        src2 := some (rs2Field w), imm := some (sextB w), csr := none } := by
  have hb : builder (opcodeClass (opcodeField w)) w =
      branchBuilder (some f) (rs1Field w) (rs2Field w) (sextB w) := by
    rw [ho, ← hf]
    exact congrArg (branchBuilder _ (rs1Field w) (rs2Field w)) (immB_eq w)
  rw [coreDecode, hb]
  rfl

end

/-! ## The outputs of `execute`, and the condition (48_executor.md R194, R203, R205) -/

section
variable {d : Descriptor} (u : UnspecUse → Word) (ip : Word) (p : Ports)

theorem execute_addr_of_br (ht : d.type = .br) : (execute u d ip p).addr = none := by
  simp [execute, effectiveAddr, ht]

theorem execute_nextIp_of_br {imm : Word} (ht : d.type = .br) (hi : d.imm = some imm) :
    (execute u d ip p).nextIp =
      if branchTaken d.brFunc p.src1Val p.src2Val then ip + imm else ip + 4#32 := by
  have haddr : addressOverride u d ip p = some (ip + imm) := by
    simp [addressOverride, immOrFree, ht, hi]
  change nextAddress u d ip p = _
  rw [nextAddress, haddr]
  cases branchTaken d.brFunc p.src1Val p.src2Val <;> rfl

end

theorem branchTaken_neq (a b : Word) : branchTaken .neq a b = decide (a ≠ b) :=
  (decide_not (p := a = b)).symm

theorem branchTaken_ge (a b : Word) : branchTaken .ge a b = decide (b.toInt ≤ a.toInt) := by
  simp [branchTaken, ← decide_not]

theorem branchTaken_geu (a b : Word) : branchTaken .geu a b = decide (b.toNat ≤ a.toNat) := by
  simp [branchTaken, ← decide_not]

/-! ## The effect in ENV -/

/-- An instruction that sets `pc` alone does nothing else (44_branch.md R151). -/
theorem movesPc_of_exec_eq {i : Instr} {s : State} {next : Word} (h : exec i s = .next (s.setPc next)) :
    movesPc i s next :=
  ⟨_, h, rfl, fun _ => rfl, fun _ => rfl, fun _ => rfl, rfl, rfl, rfl⟩

/-! ## The shape of a rule -/

/-- A rule of the class: from its row of the decoders' tables, its branch condition and its meaning. -/
theorem branchRule_of {pattern : Word} {funct3 : BitVec 3} {f : BrFunc} {cond : Word → Word → Bool}
    {instr : RegIdx → RegIdx → BitVec 13 → Instr}
    (hpattern : pattern = (funct3 ++ 0#5 ++ 0x63#7).setWidth 32)
    (hfunc : brFuncOf funct3 = some f)
    (hcond : ∀ a b, branchTaken f a b = cond a b)
    (hdecode : ∀ {w}, funct3Field w = funct3 → decodeBranch w = instr (rs1Field w) (rs2Field w) (immBField w))
    (hexec : ∀ rs1 rs2 off s,
      exec (instr rs1 rs2 off) s = execBuilt (branchBuilder (some f) rs1 rs2 (off.signExtend 32)) s) :
    branchRule pattern funct3 f cond instr := by
  refine ⟨fun rs1 rs2 off heven => ?word, fun w hw => ?row, fun rs1 rs2 off s => ?effect⟩
  case word =>
    change decodeWord (encodeB off rs2 rs1 funct3 0x63#7) = _
    rw [decodeWord_branch (by simp), hdecode (by simp), immBField_encodeB _ _ _ _ _ heven]
    simp
  case row =>
    obtain ⟨ho, h3⟩ := fields_of_funct3_row (hw.trans hpattern)
    have hcore := coreDecode_branch ho (h3 ▸ hfunc)
    refine ⟨⟨immBField w, (decodeWord_branch ho).trans (hdecode h3), rfl⟩, hcore, fun u ip p => ?_⟩
    rw [hcore, ← hcond]
    exact ⟨execute_addr_of_br u ip p rfl, execute_nextIp_of_br u ip p rfl rfl⟩
  case effect =>
    apply movesPc_of_exec_eq
    rw [hexec, execBuilt_branch, hcond]

/-! ## The statement -/

/-- Settles O51: each branch by its row of the class; BNE, BGE and BGEU negate the condition of R203 they share
with BEQ, BLT and BLTU. -/
theorem branches : Obligations.Branches := by
  refine ⟨?beq, ?bne, ?blt, ?bge, ?bltu, ?bgeu⟩
  case beq => exact branchRule_of rfl rfl (fun _ _ => rfl) decodeBranch_beq (fun _ _ _ _ => rfl)
  case bne => exact branchRule_of rfl rfl branchTaken_neq decodeBranch_bne (fun _ _ _ _ => rfl)
  case blt => exact branchRule_of rfl rfl (fun _ _ => rfl) decodeBranch_blt (fun _ _ _ _ => rfl)
  case bge => exact branchRule_of rfl rfl branchTaken_ge decodeBranch_bge (fun _ _ _ _ => rfl)
  case bltu => exact branchRule_of rfl rfl (fun _ _ => rfl) decodeBranch_bltu (fun _ _ _ _ => rfl)
  case bgeu => exact branchRule_of rfl rfl branchTaken_geu decodeBranch_bgeu (fun _ _ _ _ => rfl)

end Sys2Proof.Machine
end

section
/-! SUPPORT. The Load and Store classes: the decoders of their word forms, an aligned and admitted data access and
its two faults, the bytes of a stored word, and the statements about LW and SW (45_load_store.md R160 to R165). -/

open Sys2Proof.Claims

namespace Sys2Proof.Machine

/-! ## Decoding -/

section
variable {w : Word} {isWord : Bool}

theorem decodeWord_load (h : opcodeField w = 0x03#7) : decodeWord w = decodeLoad w := by
  simp [decodeWord, opcodeClass, h]

theorem decodeWord_store (h : opcodeField w = 0x23#7) : decodeWord w = decodeStore w := by
  simp [decodeWord, opcodeClass, h]

theorem decodeLoad_lw (h : funct3Field w = 0b010#3) :
    decodeLoad w = .lw (rdField w) (rs1Field w) (immIField w) := if_pos h

theorem decodeStore_sw (h : funct3Field w = 0b010#3) :
    decodeStore w = .sw (rs1Field w) (rs2Field w) (immSField w) := if_pos h

/-- The descriptor of a Load word (45_load_store.md R160, R161), by whether its width is the word. -/
theorem coreDecode_load (ho : opcodeField w = 0x03#7) (hw : (funct3Field w == 0b010#3) = isWord) :
    coreDecode w =
      { type := if isWord then .ld else .unsupported, aluFunc := .add, brFunc := .neverTaken,
        dst := dstOf (rdField w), src1 := some (rs1Field w), src2 := none, imm := some (sextI w), csr := none } := by
  have hb : builder (opcodeClass (opcodeField w)) w = loadBuilder isWord (rdField w) (rs1Field w) (sextI w) := by
    rw [ho, ← hw]
    exact congrArg (loadBuilder _ (rdField w) (rs1Field w)) (immI_eq w)
  rw [coreDecode, hb, normalizeDst_of_dst rfl]
  rfl

/-- The descriptor of a Store word (45_load_store.md R163, R164), by whether its width is the word. -/
theorem coreDecode_store (ho : opcodeField w = 0x23#7) (hw : (funct3Field w == 0b010#3) = isWord) :
    coreDecode w =
      { type := if isWord then .st else .unsupported, aluFunc := .add, brFunc := .neverTaken,
        dst := none, src1 := some (rs1Field w), src2 := some (rs2Field w), imm := some (sextS w), csr := none } := by
  have hb : builder (opcodeClass (opcodeField w)) w = storeBuilder isWord (rs1Field w) (rs2Field w) (sextS w) := by
    rw [ho, ← hw]
    exact congrArg (storeBuilder _ (rs1Field w) (rs2Field w)) (immS_eq w)
  rw [coreDecode, hb]
  rfl

end

/-! ## A data access: it completes, or raises one of its two faults (20_memory.md R51, R55) -/

theorem aligned_iff {a : Word} : aligned a = true ↔ multipleOf4 a := beq_iff_eq

section
variable {i : Instr} {s t : State} {a : Word} (h : exec i s = .next (accessOutcome s a t))
include h

theorem exec_access_completes (ha : multipleOf4 a) (hm : inMemory s a) : exec i s = .next t := by
  have ha' : aligned a = true := aligned_iff.mpr ha
  have hm' : s.admitted a 4 = true := State.admitted_iff.mpr hm
  rw [accessOutcome, ha', hm'] at h
  exact h

theorem faults_access_misaligned (ha : ¬ multipleOf4 a) : faults i s (.dataMisaligned s.pc a) := by
  have ha' : aligned a = false := Bool.eq_false_iff.mpr (mt aligned_iff.mp ha)
  rw [accessOutcome, ha'] at h
  exact h

theorem faults_access_notAdmitted (ha : multipleOf4 a) (hm : ¬ inMemory s a) :
    faults i s (.dataAccess s.pc a) := by
  have ha' : aligned a = true := aligned_iff.mpr ha
  have hm' : s.admitted a 4 = false := Bool.eq_false_iff.mpr (mt State.admitted_iff.mp hm)
  rw [accessOutcome, ha', hm'] at h
  exact h

end

/-! ## The bytes of a stored word (20_memory.md R53) -/

section
variable {s : State} {a v : Word}

theorem holdsWord_memWrite (hw : Memory.wf s.mem) : holdsWord (s.memWrite a v) a v := by
  have hbyte : ∀ k < 4, (s.memWrite a v).readByte (byteAddr a k) = byteOf v k :=
    fun _ hk => State.readByte_memWrite_self hw hk
  have h0 := hbyte 0 (by omega)
  rw [byteAddr_zero] at h0
  exact ⟨h0, hbyte 1 (by omega), hbyte 2 (by omega), hbyte 3 (by omega)⟩

theorem outsideWord_ne_byteAddr {b : Word} (h : outsideWord a b) : ∀ k < 4, b ≠ byteAddr a k := by
  obtain ⟨h0, h1, h2, h3⟩ := h
  intro k hk
  match k, hk with
  | 0, _ => simpa using h0
  | 1, _ => exact h1
  | 2, _ => exact h2
  | 3, _ => exact h3

end

/-! ## The meanings -/

section
variable (rd rs1 rs2 : RegIdx) (imm : BitVec 12) (s : State)

theorem exec_lw :
    exec (.lw rd rs1 imm) s =
      .next (accessOutcome s (s.readReg rs1 + imm.signExtend 32)
        ((s.writeReg rd (s.memRead (s.readReg rs1 + imm.signExtend 32))).setPc (s.pc + 4#32))) :=
  execBuilt_load s rd rs1 (imm.signExtend 32)

theorem exec_sw :
    exec (.sw rs1 rs2 imm) s =
      .next (accessOutcome s (s.readReg rs1 + imm.signExtend 32)
        ((s.memWrite (s.readReg rs1 + imm.signExtend 32) (s.readReg rs2)).setPc (s.pc + 4#32))) :=
  execBuilt_store s rs1 rs2 (imm.signExtend 32)

end

/-! ## The statements -/

/-- Settles O52: the decoders by the class and `funct3`, the effect as a register write once the access is good. -/
theorem loadWord : Obligations.LoadWord := by
  refine ⟨?word, ?row, fun rd rs1 imm s => ⟨?completes, ?misaligned, ?notAdmitted⟩⟩
  case word => exact fun rd rs1 imm => Laws.RoundTrip.lw rd rs1 imm rfl
  case row =>
    intro w hw
    obtain ⟨ho, h3⟩ := fields_of_funct3_row (funct3 := 0b010#3) (c := 0x03#7) hw
    have hcore := coreDecode_load ho (beq_iff_eq.mpr h3)
    refine ⟨(decodeWord_load ho).trans (decodeLoad_lw h3), hcore, fun u ip p => ?_⟩
    rw [hcore]
    rfl
  case completes =>
    exact fun ha hm => writesReg_of_exec_eq (exec_access_completes (exec_lw rd rs1 imm s) ha hm)
  case misaligned => exact faults_access_misaligned (exec_lw rd rs1 imm s)
  case notAdmitted => exact faults_access_notAdmitted (exec_lw rd rs1 imm s)

/-- Settles O53: the decoders by the class and `funct3`, the effect as a word write once the access is good. -/
theorem storeWord : Obligations.StoreWord := by
  refine ⟨?word, ?row, fun rs1 rs2 imm s => ⟨?completes, ?misaligned, ?notAdmitted⟩⟩
  case word => exact fun rs1 rs2 imm => Laws.RoundTrip.sw rs1 rs2 imm rfl
  case row =>
    intro w hw
    obtain ⟨ho, h3⟩ := fields_of_funct3_row (funct3 := 0b010#3) (c := 0x23#7) hw
    have hcore := coreDecode_store ho (beq_iff_eq.mpr h3)
    refine ⟨(decodeWord_store ho).trans (decodeStore_sw h3), hcore, fun u ip p => ?_⟩
    rw [hcore]
    rfl
  case completes =>
    intro ha hm
    exact ⟨_, exec_access_completes (exec_sw rs1 rs2 imm s) ha hm, rfl, holdsWord_memWrite,
      fun _ hb => State.readByte_memWrite_other (outsideWord_ne_byteAddr hb),
      fun _ => rfl, fun _ => rfl, rfl, rfl, rfl⟩
  case misaligned => exact faults_access_misaligned (exec_sw rs1 rs2 imm s)
  case notAdmitted => exact faults_access_notAdmitted (exec_sw rs1 rs2 imm s)

end Sys2Proof.Machine
end

section
/-! SUPPORT. The System class: the decoders of its CSR write and its CSR read, their effects, and the statement
about CSRW and CSRR (46_system_csr.md R170 to R172). -/

open Sys2Proof.Claims

namespace Sys2Proof.Machine

/-! ## Decoding -/

section
variable {w : Word}

theorem decodeWord_system (h : opcodeField w = 0x73#7) : decodeWord w = decodeSystem w := by
  simp [decodeWord, opcodeClass, h]

theorem decodeSystem_csrw (h : funct3Field w = 0b001#3 ∧ rdField w = 0#5) :
    decodeSystem w = .csrw (immIField w) (rs1Field w) := if_pos h

theorem decodeSystem_csrr (h : funct3Field w = 0b010#3 ∧ rs1Field w = 0#5) :
    decodeSystem w = .csrr (rdField w) (immIField w) := by simp [decodeSystem, h]

theorem systemType_csrw (h : funct3Field w = 0b001#3 ∧ rdField w = 0#5) : systemType w = .csrw := if_pos h

theorem systemType_csrr (h : funct3Field w = 0b010#3 ∧ rs1Field w = 0#5) : systemType w = .csrr := by
  simp [systemType, h]

/-- The descriptor of a System word (46_system_csr.md R170), its type given. -/
theorem coreDecode_system {type : ExecType} (ho : opcodeField w = 0x73#7) (ht : systemType w = type) :
    coreDecode w =
      { type := type, aluFunc := .none, brFunc := .neverTaken, dst := dstOf (rdField w),
        src1 := some (rs1Field w), src2 := none, imm := none, csr := some (immIField w) } := by
  have hb : builder (opcodeClass (opcodeField w)) w =
      systemBuilder type (rdField w) (rs1Field w) (immIField w) := by
    rw [ho, ← ht]
    rfl
  rw [coreDecode, hb, normalizeDst_of_dst rfl]
  rfl

/-- A CSR write has `rd = 0`, so its destination is absent (30_encoding.md R92). -/
theorem coreDecode_csrw (ho : opcodeField w = 0x73#7) (h : funct3Field w = 0b001#3 ∧ rdField w = 0#5) :
    coreDecode w =
      { type := .csrw, aluFunc := .none, brFunc := .neverTaken, dst := none,
        src1 := some (rs1Field w), src2 := none, imm := none, csr := some (immIField w) } := by
  rw [coreDecode_system ho (systemType_csrw h), h.2]
  rfl

/-- A CSR read has `rs1 = 0`, and its descriptor names that register as a source (46_system_csr.md R172). -/
theorem coreDecode_csrr (ho : opcodeField w = 0x73#7) (h : funct3Field w = 0b010#3 ∧ rs1Field w = 0#5) :
    coreDecode w =
      { type := .csrr, aluFunc := .none, brFunc := .neverTaken, dst := dstOf (rdField w),
        src1 := some 0#5, src2 := none, imm := none, csr := some (immIField w) } := by
  rw [coreDecode_system ho (systemType_csrr h), h.2]

end

/-! ## The meanings -/

theorem exec_csrw (c : CsrIdx) (rs1 : RegIdx) (s : State) :
    exec (.csrw c rs1) s = .next ((s.writeCsr c (s.readReg rs1)).setPc (s.pc + 4#32)) :=
  execBuilt_csrw s rs1 c

theorem exec_csrr (rd : RegIdx) (c : CsrIdx) (s : State) :
    exec (.csrr rd c) s = .next ((s.writeReg rd (s.readCsr c)).setPc (s.pc + 4#32)) :=
  execBuilt_csrr s rd c

/-! ## The statement -/

/-- Settles O54: the decoders by the class, `funct3` and the register field that must be 0; CSRW's effect is one
CSR write, CSRR's one register write. -/
theorem csrWriteAndRead : Obligations.CsrWriteAndRead := by
  refine ⟨?csrwWord, ?csrrWord, ?csrwRow, ?csrrRow, ?csrwEffect, ?csrrEffect⟩
  case csrwWord => exact fun c rs1 => Laws.RoundTrip.csrw c rs1 rfl
  case csrrWord => exact fun rd c => Laws.RoundTrip.csrr rd c rfl
  case csrwRow =>
    intro w hw
    obtain ⟨ho, h⟩ := (row_csrw_iff w).mp (beq_iff_eq.mpr hw)
    refine ⟨(decodeWord_system ho).trans (decodeSystem_csrw h), coreDecode_csrw ho h, fun u ip p => ?_⟩
    rw [coreDecode_csrw ho h]
    rfl
  case csrrRow =>
    intro w hw
    obtain ⟨ho, h⟩ := (row_csrr_iff w).mp (beq_iff_eq.mpr hw)
    refine ⟨(decodeWord_system ho).trans (decodeSystem_csrr h), coreDecode_csrr ho h, fun u ip p => ?_⟩
    rw [coreDecode_csrr ho h]
    rfl
  case csrwEffect =>
    intro c rs1 s
    exact ⟨_, exec_csrw c rs1 s, rfl, State.readCsr_writeCsr_self, fun _ hc => State.readCsr_writeCsr_other hc,
      fun _ => rfl, fun _ => rfl, rfl, rfl, rfl⟩
  case csrrEffect => exact fun rd c s => writesReg_of_exec_eq (exec_csrr rd c s)

end Sys2Proof.Machine
end

section
/-! SUPPORT. The MiscMem and Amo classes and the opcodes of no class: their decoders, what `execute` gives for the
neutral descriptor, their fault, and the statement about them (47_unsupported.md R180 to R183). -/

open Sys2Proof.Claims

namespace Sys2Proof.Machine

/-! ## Decoding -/

section
variable {w : Word} {opc : BitVec 7}

theorem decodeWord_miscMem (h : opcodeField w = 0x0F#7) : decodeWord w = .unsupportedMiscMem w := by
  simp [decodeWord, opcodeClass, h]

theorem decodeWord_amo (h : opcodeField w = 0x2F#7) : decodeWord w = .unsupportedAmo w := by
  simp [decodeWord, opcodeClass, h]

theorem decodeWord_unknown (h : opcodeClass (opcodeField w) = .unknown) :
    decodeWord w = .unsupportedUnknown w := by
  simp [decodeWord, h]

/-- A value that is none of the twelve opcodes is in the thirteenth bucket (30_encoding.md R89). -/
theorem opcodeClass_of_notMem
    (h : opc ∉ [0x03#7, 0x0F#7, 0x13#7, 0x17#7, 0x23#7, 0x2F#7, 0x33#7, 0x37#7, 0x63#7, 0x67#7, 0x6F#7, 0x73#7]) :
    opcodeClass opc = .unknown := by
  simp only [List.mem_cons, not_or] at h
  simp [opcodeClass, h]

/-- The ten classes with a builder left out, MiscMem, Amo and no class at all remain. -/
theorem opcodeClass_of_notMem_built
    (h : opc ∉ [0x03#7, 0x13#7, 0x17#7, 0x23#7, 0x33#7, 0x37#7, 0x63#7, 0x67#7, 0x6F#7, 0x73#7]) :
    opcodeClass opc = .miscMem ∨ opcodeClass opc = .amo ∨ opcodeClass opc = .unknown := by
  by_cases hm : opc = 0x0F#7
  · exact .inl (hm ▸ rfl)
  by_cases ha : opc = 0x2F#7
  · exact .inr (.inl (ha ▸ rfl))
  · refine .inr (.inr (opcodeClass_of_notMem ?_))
    simp only [List.mem_cons, not_or] at h ⊢
    simp [h, hm, ha]

/-- No builder runs for these words, and the neutral descriptor has no destination to normalise (30_encoding.md
R91, R92). -/
theorem coreDecode_eq_neutral
    (h : opcodeField w ∉ [0x03#7, 0x13#7, 0x17#7, 0x23#7, 0x33#7, 0x37#7, 0x63#7, 0x67#7, 0x6F#7, 0x73#7]) :
    coreDecode w = neutral := by
  rcases opcodeClass_of_notMem_built h with hc | hc | hc <;> rw [coreDecode, hc] <;> rfl

end

/-- CORE passes over an instruction that has the neutral descriptor (47_unsupported.md R180). -/
theorem execute_neutral (u : UnspecUse → Word) (ip : Word) (p : Ports) :
    execute u neutral ip p = ⟨none, 0x00000000#32, ip + 4#32⟩ := rfl

/-! ## The effect in ENV -/

/-- The meaning the `unsupported…` instructions share (60_exceptions.md R234). -/
theorem faults_of_exec_eq {i : Instr} {s : State} {w : Word} (h : exec i s = execUnsupported w s) :
    faults i s (.unsupportedInstruction s.pc w) := h

/-! ## The statement -/

/-- Settles O56: the decoders by the opcode alone; the descriptor is the neutral one because no builder runs; the
effect is the one fault of every unsupported instruction. -/
theorem unsupportedClasses : Obligations.UnsupportedClasses := by
  refine ⟨?miscMem, ?amo, ?unknown, ?core, ?effect⟩
  case miscMem => exact fun w hw => decodeWord_miscMem (opcodeField_of_opcode_row hw)
  case amo => exact fun w hw => decodeWord_amo (opcodeField_of_opcode_row hw)
  case unknown => exact fun w hw => decodeWord_unknown (opcodeClass_of_notMem hw)
  case core =>
    intro w hw
    have hcore : coreDecode w = neutral := coreDecode_eq_neutral hw
    exact ⟨hcore, fun u ip p => hcore ▸ execute_neutral u ip p⟩
  case effect =>
    exact fun w s => ⟨faults_of_exec_eq rfl, faults_of_exec_eq rfl, faults_of_exec_eq rfl⟩

end Sys2Proof.Machine
end

section
/-! SUPPORT. The next-address stage of `execute`: the branch condition, the address override by `type`, what `decode`
produces for it, and the statements about `nextIp` (48_executor.md R203 to R206). -/

namespace Sys2Proof.Machine

/-! ## The stage, for every descriptor (48_executor.md R204, R205) -/

section
variable {u : UnspecUse → Word} {d : Descriptor} {ip imm : Word} {p : Ports}

theorem addressOverride_of_j (ht : d.type = .j) (hi : d.imm = some imm) :
    addressOverride u d ip p = some (ip + imm) := by
  simp [addressOverride, immOrFree, ht, hi]

theorem addressOverride_of_jr (ht : d.type = .jr) (hi : d.imm = some imm) :
    addressOverride u d ip p = some (p.src1Val + imm) := by
  simp [addressOverride, immOrFree, ht, hi]

theorem addressOverride_of_sequential (hj : d.type ≠ .j) (hbr : d.type ≠ .br) (hjr : d.type ≠ .jr) :
    addressOverride u d ip p = none := by
  unfold addressOverride
  split
  case h_1 ht => exact absurd ht hj
  case h_2 ht => exact absurd ht hbr
  case h_3 ht => exact absurd ht hjr
  all_goals rfl

theorem execute_nextIp : (execute u d ip p).nextIp = nextAddress u d ip p := rfl

theorem execute_nextIp_of_override {t : Word} (h : addressOverride u d ip p = some t) :
    (execute u d ip p).nextIp = if branchTaken d.brFunc p.src1Val p.src2Val then t else ip + 4#32 := by
  rw [execute_nextIp, nextAddress, h]
  cases branchTaken d.brFunc p.src1Val p.src2Val <;> rfl

theorem execute_nextIp_of_no_override (h : addressOverride u d ip p = none) :
    (execute u d ip p).nextIp = ip + 4#32 := by
  rw [execute_nextIp, nextAddress, h]
  cases branchTaken d.brFunc p.src1Val p.src2Val <;> rfl

theorem execute_nextIp_of_not_taken (h : branchTaken d.brFunc p.src1Val p.src2Val = false) :
    (execute u d ip p).nextIp = ip + 4#32 := by
  rw [execute_nextIp, nextAddress, h]

theorem execute_nextIp_of_sequential (hj : d.type ≠ .j) (hbr : d.type ≠ .br) (hjr : d.type ≠ .jr) :
    (execute u d ip p).nextIp = ip + 4#32 :=
  execute_nextIp_of_no_override (addressOverride_of_sequential hj hbr hjr)

theorem execute_nextIp_of_j (ht : d.type = .j) (hi : d.imm = some imm) :
    (execute u d ip p).nextIp = if branchTaken d.brFunc p.src1Val p.src2Val then ip + imm else ip + 4#32 :=
  execute_nextIp_of_override (addressOverride_of_j ht hi)

theorem execute_nextIp_of_jr (ht : d.type = .jr) (hi : d.imm = some imm) :
    (execute u d ip p).nextIp =
      if branchTaken d.brFunc p.src1Val p.src2Val then p.src1Val + imm else ip + 4#32 :=
  execute_nextIp_of_override (addressOverride_of_jr ht hi)

end

/-! ## What `decode` produces for the stage (48_executor.md R203, R204) -/

/-- The fields the next-address stage reads agree with each other: the condition belongs to the type, and what the
condition and the override compute with is present. -/
inductive Descriptor.NextAddressShape (d : Descriptor) : Prop
  | sequential (hj : d.type ≠ .j) (hbr : d.type ≠ .br) (hjr : d.type ≠ .jr) (hf : d.brFunc = .neverTaken)
  | jump (imm : Word) (ht : d.type = .j) (hf : d.brFunc = .alwaysTaken) (hi : d.imm = some imm)
  | jumpRegister (r : RegIdx) (imm : Word) (ht : d.type = .jr) (hf : d.brFunc = .alwaysTaken)
      (h1 : d.src1 = some r) (hi : d.imm = some imm)
  | branch (r r' : RegIdx) (imm : Word) (ht : d.type = .br) (h1 : d.src1 = some r) (h2 : d.src2 = some r')
      (hi : d.imm = some imm)

/-- The stage does not read `dst`. -/
theorem Descriptor.NextAddressShape.normalizeDst {d : Descriptor} (h : d.NextAddressShape) :
    d.normalizeDst.NextAddressShape := by
  unfold Descriptor.normalizeDst
  split
  · cases h with
    | sequential hj hbr hjr hf => exact .sequential hj hbr hjr hf
    | jump imm ht hf hi => exact .jump imm ht hf hi
    | jumpRegister r imm ht hf h1 hi => exact .jumpRegister r imm ht hf h1 hi
    | branch r r' imm ht h1 h2 hi => exact .branch r r' imm ht h1 h2 hi
  · exact h

theorem systemType_cases (w : Word) :
    systemType w = .csrw ∨ systemType w = .csrr ∨ systemType w = .unsupported := by
  unfold systemType
  split_ifs <;> simp

/-- The builders, class by class: Jal, Jalr and Branch fill what their override reads; every other one leaves
`brFunc` neutral. -/
theorem builder_nextAddressShape (c : OpcodeClass) (w : Word) : (builder c w).NextAddressShape := by
  have hneutral : neutral.NextAddressShape := .sequential nofun nofun nofun rfl
  cases c with
  | opImm => exact .sequential nofun nofun nofun rfl
  | op => exact .sequential nofun nofun nofun rfl
  | lui => exact .sequential nofun nofun nofun rfl
  | auipc => exact .sequential nofun nofun nofun rfl
  | jal => exact .jump _ rfl rfl rfl
  | jalr => exact .jumpRegister _ _ rfl rfl rfl rfl
  | branch =>
    unfold builder branchBuilder
    cases brFuncOf (funct3Field w) with
    | none => exact .sequential nofun nofun nofun rfl
    | some f => exact .branch _ _ _ rfl rfl rfl rfl
  | load =>
    unfold builder loadBuilder
    cases funct3Field w == 0b010#3 <;> exact .sequential nofun nofun nofun rfl
  | store =>
    unfold builder storeBuilder
    cases funct3Field w == 0b010#3 <;> exact .sequential nofun nofun nofun rfl
  | system =>
    unfold builder
    rcases systemType_cases w with h | h | h <;> rw [h] <;> exact .sequential nofun nofun nofun rfl
  | miscMem => exact hneutral
  | amo => exact hneutral
  | unknown => exact hneutral

theorem coreDecode_nextAddressShape (w : Word) : (coreDecode w).NextAddressShape :=
  (builder_nextAddressShape _ w).normalizeDst

/-! ## The statements -/

/-- Settles O36: the condition by cases of `brFunc`; a comparing function rules out every shape but the branch. -/
theorem branchConditions : Obligations.BranchConditions := by
  refine ⟨fun a b => ?table, fun u d ip imm p ht hi => execute_nextIp_of_br u ip p ht hi,
    fun w halways hnever => ?present⟩
  case table => simp [branchTaken]
  case present =>
    cases coreDecode_nextAddressShape w with
    | sequential _ _ _ hf => exact absurd hf hnever
    | jump _ _ hf _ => exact absurd hf halways
    | jumpRegister _ _ _ hf _ _ => exact absurd hf halways
    | branch _ _ _ _ h1 h2 _ => simp [h1, h2]

/-- Settles O37: the stage by whether `type` has an override, and the shape of what `decode` produces. -/
theorem nextAddressStage : Obligations.NextAddressStage := by
  refine ⟨fun u d ip p => ⟨execute_nextIp_of_sequential, execute_nextIp_of_not_taken,
    execute_nextIp_of_no_override rfl, execute_nextIp_of_not_taken rfl, fun imm hi => ⟨?direct, ?indirect, ?jEq⟩⟩,
    fun w => ?decoded⟩
  case direct =>
    rintro (ht | ht)
    · exact execute_nextIp_of_j ht hi
    · exact execute_nextIp_of_br u ip p ht hi
  case indirect => exact fun ht => execute_nextIp_of_jr ht hi
  case jEq =>
    have hnext := execute_nextIp_of_j (u := u) (d := { d with type := .j, brFunc := .eq }) (ip := ip) (p := p) rfl hi
    simpa [branchTaken] using hnext
  case decoded =>
    cases coreDecode_nextAddressShape w with
    | sequential hj hbr hjr hf => simp [hj, hbr, hjr, hf]
    | jump _ ht hf hi => simp [ht, hf, hi]
    | jumpRegister _ _ ht hf h1 hi => simp [ht, hf, h1, hi]
    | branch _ _ _ ht _ _ hi => simp [ht, hi]

/-- Settles O38: each shape of what `decode` produces has one override or none; the vectors are sums that wrap. -/
theorem nextIpIsOneOfThree : Obligations.NextIpIsOneOfThree := by
  refine ⟨fun u w ip p => ?sums, fun u w p ht => ?sequentialWraps, fun u d p ht htaken hi => ?branchWraps,
    fun u d ip p ht hf h1 hi => ?jumpRegisterWraps⟩
  case sums =>
    cases coreDecode_nextAddressShape w with
    | sequential hj hbr hjr _ => exact .inl (execute_nextIp_of_sequential hj hbr hjr)
    | jump imm ht hf hi =>
      refine .inr ⟨imm, hi, .inl ?_⟩
      rw [execute_nextIp_of_j ht hi, hf]
      rfl
    | jumpRegister _ imm ht hf _ hi =>
      refine .inr ⟨imm, hi, .inr ⟨ht, ?_⟩⟩
      rw [execute_nextIp_of_jr ht hi, hf]
      rfl
    | branch _ _ imm ht _ _ hi =>
      rw [execute_nextIp_of_br u ip p ht hi]
      split
      · exact .inr ⟨imm, hi, .inl rfl⟩
      · exact .inl rfl
  case sequentialWraps =>
    simp only [List.mem_cons, List.not_mem_nil, or_false, not_or] at ht
    obtain ⟨hj, hjr, hbr⟩ := ht
    rw [execute_nextIp_of_sequential hj hbr hjr]
    rfl
  case branchWraps =>
    rw [execute_nextIp_of_br u _ p ht hi, if_pos htaken]
    rfl
  case jumpRegisterWraps =>
    rw [execute_nextIp_of_jr ht hi, hf, h1]
    rfl

end Sys2Proof.Machine
end

section
/-! SUPPORT. The ALU stage and the result override of `execute`, and the statements about the ALU's operations and
about `data` (48_executor.md R194 to R202). -/

open Sys2Proof.Claims

namespace Sys2Proof.Machine

/-! ## The ALU's operations -/

/-- Settles O31: the operations are those of machine words, whose value is the one modulo `2 ^ 32`. -/
theorem aluAddSub : Obligations.AluAddSub := by
  refine ⟨fun free a b => ⟨BitVec.toNat_add a b, ?sub⟩, fun free => ⟨rfl, rfl, rfl, rfl, rfl⟩⟩
  case sub =>
    calc (a - b).toNat = (2 ^ 32 - b.toNat + a.toNat) % 2 ^ 32 := BitVec.toNat_sub a b
      _ = (a.toNat + (2 ^ 32 - b.toNat)) % 2 ^ 32 := by rw [Nat.add_comm]

/-- Settles O32: the operations are those of machine words, which work bit by bit. -/
theorem aluBitwise : Obligations.AluBitwise :=
  fun _ _ _ => ⟨fun _ => ⟨BitVec.getLsbD_and, BitVec.getLsbD_or, BitVec.getLsbD_xor⟩,
    BitVec.xor_allOnes, rfl, rfl, rfl⟩

theorem aluOp_slt (free a b : Word) : aluOp .slt free a b = oneIf (a.toInt < b.toInt) := boolWord_decide _

theorem aluOp_sltu (free a b : Word) : aluOp .sltu free a b = oneIf (a.toNat < b.toNat) := boolWord_decide _

theorem oneIf_eq_one_iff (p : Prop) [Decidable p] : oneIf p = 1#32 ↔ p := by
  by_cases h : p <;> simp [oneIf, h]

/-- Settles O34: a comparison of the ALU is `oneIf` of the order it tests; nothing is below 0, and 0 alone is
below 1. -/
theorem aluComparisons : Obligations.AluComparisons := by
  refine ⟨fun free a b => ⟨aluOp_slt free a b, aluOp_sltu free a b, ?snez, ?seqz⟩,
    fun free => ⟨rfl, rfl, rfl, rfl, rfl, rfl, rfl, rfl⟩⟩
  case snez =>
    rw [aluOp_sltu, oneIf_eq_one_iff, Ne, ← BitVec.toNat_inj]
    exact Nat.pos_iff_ne_zero
  case seqz =>
    rw [aluOp_sltu, oneIf_eq_one_iff, ← BitVec.toNat_inj]
    exact Nat.lt_one_iff

/-! ## The result -/

section
variable {u : UnspecUse → Word} {d : Descriptor} {p : Ports} {r : RegIdx}

theorem execute_data (ip : Word) : (execute u d ip p).data = resultData u d ip p (aluResult u d p) := rfl

theorem aluResult_of_no_src1 (h1 : d.src1 = none) : aluResult u d p = 0#32 := by
  simp [aluResult, h1]

theorem aluResult_of_imm {imm : Word} (h1 : d.src1 = some r) (hi : d.imm = some imm) :
    aluResult u d p = aluOp d.aluFunc (u .noneResult) p.src1Val imm := by
  simp [aluResult, secondOperand, h1, hi]

theorem aluResult_of_src2 {r' : RegIdx} (h1 : d.src1 = some r) (hi : d.imm = none) (h2 : d.src2 = some r') :
    aluResult u d p = aluOp d.aluFunc (u .noneResult) p.src1Val p.src2Val := by
  simp [aluResult, secondOperand, h1, hi, h2]

/-- The four types without a row of their own in the result override (48_executor.md R201, R202). -/
theorem execute_data_of_result (ip : Word)
    (ht : d.type = .alu ∨ d.type = .ld ∨ d.type = .br ∨ d.type = .unsupported) :
    (execute u d ip p).data = aluResult u d p := by
  rcases ht with ht | ht | ht | ht <;> simp [execute_data, resultData, ht]

end

/-- Settles O35: the override row by row, and the result by which operands are present. -/
theorem resultOverride : Obligations.ResultOverride := by
  intro u d ip p
  refine ⟨?csrr, ?csrw, ?st, ?link, ?auipc, fun ht => ?result⟩
  case csrr => intro ht; simp [execute_data, resultData, ht]
  case csrw => intro ht; simp [execute_data, resultData, ht]
  case st => intro ht; simp [execute_data, resultData, ht]
  case link => rintro (ht | ht) <;> simp [execute_data, resultData, ht]
  case auipc => intro imm ht hi; simp [execute_data, resultData, immOrFree, ht, hi]
  case result =>
    rw [execute_data_of_result ip ht]
    exact ⟨rfl, aluResult_of_no_src1, fun _ _ => aluResult_of_imm, fun _ _ => aluResult_of_src2⟩

end Sys2Proof.Machine
end

section
/-! SUPPORT. The round trip of the encoder and the byte decoder, and the statement about it (30_encoding.md sections 2
to 4). -/

namespace Sys2Proof.Laws.RoundTrip

/-- The round trip of every instruction, constructor by constructor. -/
theorem decodeWord_encode {i : Instr} (h : i.wellFormed = true) : decodeWord (encode i) = i := by
  cases i with
  | addi rd rs1 imm => exact addi rd rs1 imm h
  | slti rd rs1 imm => exact slti rd rs1 imm h
  | sltiu rd rs1 imm => exact sltiu rd rs1 imm h
  | xori rd rs1 imm => exact xori rd rs1 imm h
  | ori rd rs1 imm => exact ori rd rs1 imm h
  | andi rd rs1 imm => exact andi rd rs1 imm h
  | slli rd rs1 imm => exact slli rd rs1 imm h
  | srli rd rs1 shamt => exact srli rd rs1 shamt h
  | srai rd rs1 shamt => exact srai rd rs1 shamt h
  | add rd rs1 rs2 => exact add rd rs1 rs2 h
  | sub rd rs1 rs2 => exact sub rd rs1 rs2 h
  | sll rd rs1 rs2 => exact sll rd rs1 rs2 h
  | slt rd rs1 rs2 => exact slt rd rs1 rs2 h
  | sltu rd rs1 rs2 => exact sltu rd rs1 rs2 h
  | xor rd rs1 rs2 => exact xor rd rs1 rs2 h
  | srl rd rs1 rs2 => exact srl rd rs1 rs2 h
  | sra rd rs1 rs2 => exact sra rd rs1 rs2 h
  | or rd rs1 rs2 => exact or rd rs1 rs2 h
  | and rd rs1 rs2 => exact and rd rs1 rs2 h
  | lui rd imm20 => exact lui rd imm20 h
  | auipc rd imm20 => exact auipc rd imm20 h
  | jal rd offset => exact jal rd offset h
  | jalr rd rs1 imm => exact jalr rd rs1 imm h
  | beq rs1 rs2 offset => exact beq rs1 rs2 offset h
  | bne rs1 rs2 offset => exact bne rs1 rs2 offset h
  | blt rs1 rs2 offset => exact blt rs1 rs2 offset h
  | bge rs1 rs2 offset => exact bge rs1 rs2 offset h
  | bltu rs1 rs2 offset => exact bltu rs1 rs2 offset h
  | bgeu rs1 rs2 offset => exact bgeu rs1 rs2 offset h
  | lw rd rs1 imm => exact lw rd rs1 imm h
  | sw rs1 rs2 imm => exact sw rs1 rs2 imm h
  | csrw csr rs1 => exact csrw csr rs1 h
  | csrr rd csr => exact csrr rd csr h
  | unsupportedBranch word => exact unsupportedBranch word h
  | unsupportedLoad word => exact unsupportedLoad word h
  | unsupportedStore word => exact unsupportedStore word h
  | unsupportedSystem word => exact unsupportedSystem word h
  | unsupportedMiscMem word => exact unsupportedMiscMem word h
  | unsupportedAmo word => exact unsupportedAmo word h
  | unsupportedUnknown word => exact unsupportedUnknown word h

end Sys2Proof.Laws.RoundTrip

namespace Sys2Proof

theorem decodeBytes_wordBytes (w : Word) (rest : List Byte) :
    decodeBytes (wordBytes w ++ rest) = .ok (decodeWord w, rest) := by
  have h := congrArg decodeWord (Machine.wordOfBytes_byteOf w)
  rw [← h]
  rfl

/-- A row of 32 bits is the whole word (30_encoding.md R70). -/
theorem decodeTableWord_toNat (w : Word) : decodeTableWord 32 w.toNat = some (decodeWord w) := by
  have hw : BitVec.ofNat 32 (w.toNat % 2 ^ 32) = w := by
    rw [Nat.mod_eq_of_lt w.isLt, BitVec.ofNat_toNat, BitVec.setWidth_eq]
  have h := decodeBytes_wordBytes w []
  rw [List.append_nil] at h
  rw [decodeTableWord, if_pos le_rfl, hw, h]

/-- Settles O30: the byte decoder is `decodeWord` of the joined bytes, and `decodeWord` undoes `encode` constructor by
constructor. -/
theorem decodeOfEncodedBytes : Obligations.DecodeOfEncodedBytes := by
  intro i rest h
  rw [decodeBytes_wordBytes, decodeTableWord_toNat, Laws.RoundTrip.decodeWord_encode h]
  exact ⟨rfl, rfl⟩

end Sys2Proof
end

section
/-! SUPPORT. What a word decodes to, row by row of the opcode table, and that CORE's `decode` gives the descriptor of
the decoded instruction: the bridge between the model's instructions and the spec's `decode`
(30_encoding.md R89 to R102, log entry 10). -/

open Sys2Proof.Claims

namespace Sys2Proof.Machine

/-! ## Opcode classes and function codes -/

/-- The opcode of a class; absent for the bucket of every other value (30_encoding.md R89). -/
def opcodeOf : OpcodeClass → Option (BitVec 7)
  | .load => some 0x03#7
  | .miscMem => some 0x0F#7
  | .opImm => some 0x13#7
  | .auipc => some 0x17#7
  | .store => some 0x23#7
  | .amo => some 0x2F#7
  | .op => some 0x33#7
  | .lui => some 0x37#7
  | .branch => some 0x63#7
  | .jalr => some 0x67#7
  | .jal => some 0x6F#7
  | .system => some 0x73#7
  | .unknown => none

theorem opcodeOf_opcodeClass (opc : BitVec 7) :
    opcodeOf (opcodeClass opc) = some opc ∨ opcodeOf (opcodeClass opc) = none := by
  revert opc
  decide

theorem eq_of_opcodeClass {c : OpcodeClass} {opc code : BitVec 7} (hc : opcodeOf c = some code)
    (h : opcodeClass opc = c) : opc = code := by
  subst h
  rcases opcodeOf_opcodeClass opc with ho | ho
  · exact Option.some.inj (ho.symm.trans hc)
  · cases ho.symm.trans hc

theorem funct3_cases (f : BitVec 3) :
    f = 0b000#3 ∨ f = 0b001#3 ∨ f = 0b010#3 ∨ f = 0b011#3 ∨
      f = 0b100#3 ∨ f = 0b101#3 ∨ f = 0b110#3 ∨ f = 0b111#3 := by
  revert f
  decide

/-! ## What a word decodes to -/

/-- The word is of the row of the instruction: the fields the row fixes, and the operands the instruction takes. -/
inductive DecodesAs (w : Word) : Instr → Prop
  | addi (ho : opcodeField w = 0x13#7) (h3 : funct3Field w = 0b000#3) :
      DecodesAs w (.addi (rdField w) (rs1Field w) (immIField w))
  | slli (ho : opcodeField w = 0x13#7) (h3 : funct3Field w = 0b001#3) :
      DecodesAs w (.slli (rdField w) (rs1Field w) (immIField w))
  | slti (ho : opcodeField w = 0x13#7) (h3 : funct3Field w = 0b010#3) :
      DecodesAs w (.slti (rdField w) (rs1Field w) (immIField w))
  | sltiu (ho : opcodeField w = 0x13#7) (h3 : funct3Field w = 0b011#3) :
      DecodesAs w (.sltiu (rdField w) (rs1Field w) (immIField w))
  | xori (ho : opcodeField w = 0x13#7) (h3 : funct3Field w = 0b100#3) :
      DecodesAs w (.xori (rdField w) (rs1Field w) (immIField w))
  | srli (ho : opcodeField w = 0x13#7) (h3 : funct3Field w = 0b101#3) (hs : aluSelBit w = false) :
      DecodesAs w (.srli (rdField w) (rs1Field w) (rs2Field w))
  | srai (ho : opcodeField w = 0x13#7) (h3 : funct3Field w = 0b101#3) (hs : aluSelBit w = true) :
      DecodesAs w (.srai (rdField w) (rs1Field w) (rs2Field w))
  | ori (ho : opcodeField w = 0x13#7) (h3 : funct3Field w = 0b110#3) :
      DecodesAs w (.ori (rdField w) (rs1Field w) (immIField w))
  | andi (ho : opcodeField w = 0x13#7) (h3 : funct3Field w = 0b111#3) :
      DecodesAs w (.andi (rdField w) (rs1Field w) (immIField w))
  | add (ho : opcodeField w = 0x33#7) (h3 : funct3Field w = 0b000#3) (hs : aluSelBit w = false) :
      DecodesAs w (.add (rdField w) (rs1Field w) (rs2Field w))
  | sub (ho : opcodeField w = 0x33#7) (h3 : funct3Field w = 0b000#3) (hs : aluSelBit w = true) :
      DecodesAs w (.sub (rdField w) (rs1Field w) (rs2Field w))
  | sll (ho : opcodeField w = 0x33#7) (h3 : funct3Field w = 0b001#3) :
      DecodesAs w (.sll (rdField w) (rs1Field w) (rs2Field w))
  | slt (ho : opcodeField w = 0x33#7) (h3 : funct3Field w = 0b010#3) :
      DecodesAs w (.slt (rdField w) (rs1Field w) (rs2Field w))
  | sltu (ho : opcodeField w = 0x33#7) (h3 : funct3Field w = 0b011#3) :
      DecodesAs w (.sltu (rdField w) (rs1Field w) (rs2Field w))
  | xor (ho : opcodeField w = 0x33#7) (h3 : funct3Field w = 0b100#3) :
      DecodesAs w (.xor (rdField w) (rs1Field w) (rs2Field w))
  | srl (ho : opcodeField w = 0x33#7) (h3 : funct3Field w = 0b101#3) (hs : aluSelBit w = false) :
      DecodesAs w (.srl (rdField w) (rs1Field w) (rs2Field w))
  | sra (ho : opcodeField w = 0x33#7) (h3 : funct3Field w = 0b101#3) (hs : aluSelBit w = true) :
      DecodesAs w (.sra (rdField w) (rs1Field w) (rs2Field w))
  | or (ho : opcodeField w = 0x33#7) (h3 : funct3Field w = 0b110#3) :
      DecodesAs w (.or (rdField w) (rs1Field w) (rs2Field w))
  | and (ho : opcodeField w = 0x33#7) (h3 : funct3Field w = 0b111#3) :
      DecodesAs w (.and (rdField w) (rs1Field w) (rs2Field w))
  | lui (ho : opcodeField w = 0x37#7) : DecodesAs w (.lui (rdField w) (immUField w))
  | auipc (ho : opcodeField w = 0x17#7) : DecodesAs w (.auipc (rdField w) (immUField w))
  | jal (ho : opcodeField w = 0x6F#7) : DecodesAs w (.jal (rdField w) (immJField w))
  | jalr (ho : opcodeField w = 0x67#7) : DecodesAs w (.jalr (rdField w) (rs1Field w) (immIField w))
  | beq (ho : opcodeField w = 0x63#7) (h3 : funct3Field w = 0b000#3) :
      DecodesAs w (.beq (rs1Field w) (rs2Field w) (immBField w))
  | bne (ho : opcodeField w = 0x63#7) (h3 : funct3Field w = 0b001#3) :
      DecodesAs w (.bne (rs1Field w) (rs2Field w) (immBField w))
  | blt (ho : opcodeField w = 0x63#7) (h3 : funct3Field w = 0b100#3) :
      DecodesAs w (.blt (rs1Field w) (rs2Field w) (immBField w))
  | bge (ho : opcodeField w = 0x63#7) (h3 : funct3Field w = 0b101#3) :
      DecodesAs w (.bge (rs1Field w) (rs2Field w) (immBField w))
  | bltu (ho : opcodeField w = 0x63#7) (h3 : funct3Field w = 0b110#3) :
      DecodesAs w (.bltu (rs1Field w) (rs2Field w) (immBField w))
  | bgeu (ho : opcodeField w = 0x63#7) (h3 : funct3Field w = 0b111#3) :
      DecodesAs w (.bgeu (rs1Field w) (rs2Field w) (immBField w))
  | lw (ho : opcodeField w = 0x03#7) (h3 : funct3Field w = 0b010#3) :
      DecodesAs w (.lw (rdField w) (rs1Field w) (immIField w))
  | sw (ho : opcodeField w = 0x23#7) (h3 : funct3Field w = 0b010#3) :
      DecodesAs w (.sw (rs1Field w) (rs2Field w) (immSField w))
  | csrw (ho : opcodeField w = 0x73#7) (h : funct3Field w = 0b001#3 ∧ rdField w = 0#5) :
      DecodesAs w (.csrw (immIField w) (rs1Field w))
  | csrr (ho : opcodeField w = 0x73#7) (h : funct3Field w = 0b010#3 ∧ rs1Field w = 0#5) :
      DecodesAs w (.csrr (rdField w) (immIField w))
  | unsupportedBranch (ho : opcodeField w = 0x63#7) (h3 : funct3Field w = 0b010#3 ∨ funct3Field w = 0b011#3) :
      DecodesAs w (.unsupportedBranch w)
  | unsupportedLoad (ho : opcodeField w = 0x03#7) (h3 : funct3Field w ≠ 0b010#3) : DecodesAs w (.unsupportedLoad w)
  | unsupportedStore (ho : opcodeField w = 0x23#7) (h3 : funct3Field w ≠ 0b010#3) : DecodesAs w (.unsupportedStore w)
  | unsupportedSystem (ho : opcodeField w = 0x73#7) (hw : ¬ (funct3Field w = 0b001#3 ∧ rdField w = 0#5))
      (hr : ¬ (funct3Field w = 0b010#3 ∧ rs1Field w = 0#5)) : DecodesAs w (.unsupportedSystem w)
  | unsupportedMiscMem (ho : opcodeField w = 0x0F#7) : DecodesAs w (.unsupportedMiscMem w)
  | unsupportedAmo (ho : opcodeField w = 0x2F#7) : DecodesAs w (.unsupportedAmo w)
  | unsupportedUnknown (hc : opcodeClass (opcodeField w) = .unknown) : DecodesAs w (.unsupportedUnknown w)

section
variable {w : Word}

theorem decodeLoad_unsupported (h : funct3Field w ≠ 0b010#3) : decodeLoad w = .unsupportedLoad w := if_neg h

theorem decodeStore_unsupported (h : funct3Field w ≠ 0b010#3) : decodeStore w = .unsupportedStore w := if_neg h

theorem decodeBranch_unsupported (h : funct3Field w = 0b010#3 ∨ funct3Field w = 0b011#3) :
    decodeBranch w = .unsupportedBranch w := by
  rcases h with h | h <;> simp [decodeBranch, h]

theorem decodeSystem_unsupported (hw : ¬ (funct3Field w = 0b001#3 ∧ rdField w = 0#5))
    (hr : ¬ (funct3Field w = 0b010#3 ∧ rs1Field w = 0#5)) : decodeSystem w = .unsupportedSystem w := by
  rw [decodeSystem, if_neg hw, if_neg hr]

theorem decodeWord_lui (h : opcodeField w = 0x37#7) : decodeWord w = .lui (rdField w) (immUField w) := by
  simp [decodeWord, opcodeClass, h]

theorem decodeWord_auipc (h : opcodeField w = 0x17#7) : decodeWord w = .auipc (rdField w) (immUField w) := by
  simp [decodeWord, opcodeClass, h]

theorem decodesAs_opImm (ho : opcodeField w = 0x13#7) : DecodesAs w (decodeOpImm w) := by
  rcases funct3_cases (funct3Field w) with h | h | h | h | h | h | h | h
  · rw [decodeOpImm_addi h]; exact .addi ho h
  · rw [decodeOpImm_slli h]; exact .slli ho h
  · rw [decodeOpImm_slti h]; exact .slti ho h
  · rw [decodeOpImm_sltiu h]; exact .sltiu ho h
  · rw [decodeOpImm_xori h]; exact .xori ho h
  · cases hs : aluSelBit w with
    | false => rw [decodeOpImm_srli h hs]; exact .srli ho h hs
    | true => rw [decodeOpImm_srai h hs]; exact .srai ho h hs
  · rw [decodeOpImm_ori h]; exact .ori ho h
  · rw [decodeOpImm_andi h]; exact .andi ho h

theorem decodesAs_op (ho : opcodeField w = 0x33#7) : DecodesAs w (decodeOp w) := by
  rcases funct3_cases (funct3Field w) with h | h | h | h | h | h | h | h
  · cases hs : aluSelBit w with
    | false => rw [decodeOp_add h hs]; exact .add ho h hs
    | true => rw [decodeOp_sub h hs]; exact .sub ho h hs
  · rw [decodeOp_sll h]; exact .sll ho h
  · rw [decodeOp_slt h]; exact .slt ho h
  · rw [decodeOp_sltu h]; exact .sltu ho h
  · rw [decodeOp_xor h]; exact .xor ho h
  · cases hs : aluSelBit w with
    | false => rw [decodeOp_srl h hs]; exact .srl ho h hs
    | true => rw [decodeOp_sra h hs]; exact .sra ho h hs
  · rw [decodeOp_or h]; exact .or ho h
  · rw [decodeOp_and h]; exact .and ho h

theorem decodesAs_branch (ho : opcodeField w = 0x63#7) : DecodesAs w (decodeBranch w) := by
  rcases funct3_cases (funct3Field w) with h | h | h | h | h | h | h | h
  · rw [decodeBranch_beq h]; exact .beq ho h
  · rw [decodeBranch_bne h]; exact .bne ho h
  · rw [decodeBranch_unsupported (.inl h)]; exact .unsupportedBranch ho (.inl h)
  · rw [decodeBranch_unsupported (.inr h)]; exact .unsupportedBranch ho (.inr h)
  · rw [decodeBranch_blt h]; exact .blt ho h
  · rw [decodeBranch_bge h]; exact .bge ho h
  · rw [decodeBranch_bltu h]; exact .bltu ho h
  · rw [decodeBranch_bgeu h]; exact .bgeu ho h

theorem decodesAs_load (ho : opcodeField w = 0x03#7) : DecodesAs w (decodeLoad w) := by
  by_cases h : funct3Field w = 0b010#3
  · rw [decodeLoad_lw h]; exact .lw ho h
  · rw [decodeLoad_unsupported h]; exact .unsupportedLoad ho h

theorem decodesAs_store (ho : opcodeField w = 0x23#7) : DecodesAs w (decodeStore w) := by
  by_cases h : funct3Field w = 0b010#3
  · rw [decodeStore_sw h]; exact .sw ho h
  · rw [decodeStore_unsupported h]; exact .unsupportedStore ho h

theorem decodesAs_system (ho : opcodeField w = 0x73#7) : DecodesAs w (decodeSystem w) := by
  by_cases hw : funct3Field w = 0b001#3 ∧ rdField w = 0#5
  · rw [decodeSystem_csrw hw]; exact .csrw ho hw
  by_cases hr : funct3Field w = 0b010#3 ∧ rs1Field w = 0#5
  · rw [decodeSystem_csrr hr]; exact .csrr ho hr
  · rw [decodeSystem_unsupported hw hr]; exact .unsupportedSystem ho hw hr

end

theorem decodesAs_decodeWord (w : Word) : DecodesAs w (decodeWord w) := by
  cases hc : opcodeClass (opcodeField w) with
  | load => have ho := eq_of_opcodeClass rfl hc; rw [decodeWord_load ho]; exact decodesAs_load ho
  | miscMem => have ho := eq_of_opcodeClass rfl hc; rw [decodeWord_miscMem ho]; exact .unsupportedMiscMem ho
  | opImm => have ho := eq_of_opcodeClass rfl hc; rw [decodeWord_opImm ho]; exact decodesAs_opImm ho
  | auipc => have ho := eq_of_opcodeClass rfl hc; rw [decodeWord_auipc ho]; exact .auipc ho
  | store => have ho := eq_of_opcodeClass rfl hc; rw [decodeWord_store ho]; exact decodesAs_store ho
  | amo => have ho := eq_of_opcodeClass rfl hc; rw [decodeWord_amo ho]; exact .unsupportedAmo ho
  | op => have ho := eq_of_opcodeClass rfl hc; rw [decodeWord_op ho]; exact decodesAs_op ho
  | lui => have ho := eq_of_opcodeClass rfl hc; rw [decodeWord_lui ho]; exact .lui ho
  | branch => have ho := eq_of_opcodeClass rfl hc; rw [decodeWord_branch ho]; exact decodesAs_branch ho
  | jalr => have ho := eq_of_opcodeClass rfl hc; rw [decodeWord_jalr ho]; exact .jalr ho
  | jal => have ho := eq_of_opcodeClass rfl hc; rw [decodeWord_jal ho]; exact .jal ho
  | system => have ho := eq_of_opcodeClass rfl hc; rw [decodeWord_system ho]; exact decodesAs_system ho
  | unknown => rw [decodeWord_unknown hc]; exact .unsupportedUnknown hc

/-! ## The descriptor of an instruction -/

/-- What the builder of an instruction's class makes of its operands; for an instruction that is its whole word, the
word's own descriptor. -/
def descriptorOf : Instr → Descriptor
  | .addi rd rs1 imm => opImmBuilder .add rd rs1 (imm.signExtend 32)
  | .slti rd rs1 imm => opImmBuilder .slt rd rs1 (imm.signExtend 32)
  | .sltiu rd rs1 imm => opImmBuilder .sltu rd rs1 (imm.signExtend 32)
  | .xori rd rs1 imm => opImmBuilder .xor rd rs1 (imm.signExtend 32)
  | .ori rd rs1 imm => opImmBuilder .or rd rs1 (imm.signExtend 32)
  | .andi rd rs1 imm => opImmBuilder .and rd rs1 (imm.signExtend 32)
  | .slli rd rs1 imm => opImmBuilder .sll rd rs1 (imm.signExtend 32)
  | .srli rd rs1 shamt => opImmBuilder .srl rd rs1 (shamt.zeroExtend 32)
  | .srai rd rs1 shamt => opImmBuilder .sra rd rs1 (shamt.zeroExtend 32)
  | .add rd rs1 rs2 => opBuilder .add rd rs1 rs2
  | .sub rd rs1 rs2 => opBuilder .sub rd rs1 rs2
  | .sll rd rs1 rs2 => opBuilder .sll rd rs1 rs2
  | .slt rd rs1 rs2 => opBuilder .slt rd rs1 rs2
  | .sltu rd rs1 rs2 => opBuilder .sltu rd rs1 rs2
  | .xor rd rs1 rs2 => opBuilder .xor rd rs1 rs2
  | .srl rd rs1 rs2 => opBuilder .srl rd rs1 rs2
  | .sra rd rs1 rs2 => opBuilder .sra rd rs1 rs2
  | .or rd rs1 rs2 => opBuilder .or rd rs1 rs2
  | .and rd rs1 rs2 => opBuilder .and rd rs1 rs2
  | .lui rd imm20 => luiBuilder rd (upperImm imm20)
  | .auipc rd imm20 => auipcBuilder rd (upperImm imm20)
  | .jal rd offset => jalBuilder rd (offset.signExtend 32)
  | .jalr rd rs1 imm => jalrBuilder rd rs1 (imm.signExtend 32)
  | .beq rs1 rs2 offset => branchBuilder (some .eq) rs1 rs2 (offset.signExtend 32)
  | .bne rs1 rs2 offset => branchBuilder (some .neq) rs1 rs2 (offset.signExtend 32)
  | .blt rs1 rs2 offset => branchBuilder (some .lt) rs1 rs2 (offset.signExtend 32)
  | .bge rs1 rs2 offset => branchBuilder (some .ge) rs1 rs2 (offset.signExtend 32)
  | .bltu rs1 rs2 offset => branchBuilder (some .ltu) rs1 rs2 (offset.signExtend 32)
  | .bgeu rs1 rs2 offset => branchBuilder (some .geu) rs1 rs2 (offset.signExtend 32)
  | .lw rd rs1 imm => loadBuilder true rd rs1 (imm.signExtend 32)
  | .sw rs1 rs2 imm => storeBuilder true rs1 rs2 (imm.signExtend 32)
  | .csrw csr rs1 => systemBuilder .csrw 0#5 rs1 csr
  | .csrr rd csr => systemBuilder .csrr rd 0#5 csr
  | .unsupportedBranch w | .unsupportedLoad w | .unsupportedStore w | .unsupportedSystem w
  | .unsupportedMiscMem w | .unsupportedAmo w | .unsupportedUnknown w => coreDecode w

/-- An instruction that executes is the shared cycle on its descriptor. -/
theorem exec_eq_execBuilt {i : Instr} (h : unsupportedWord i = none) (s : State) :
    exec i s = execBuilt (descriptorOf i) s := by
  cases i with
  | unsupportedBranch | unsupportedLoad | unsupportedStore | unsupportedSystem | unsupportedMiscMem
  | unsupportedAmo | unsupportedUnknown => cases h
  | _ => rfl

theorem descriptorOf_type_ne {i : Instr} (h : unsupportedWord i = none) : (descriptorOf i).type ≠ .unsupported := by
  cases i with
  | unsupportedBranch | unsupportedLoad | unsupportedStore | unsupportedSystem | unsupportedMiscMem
  | unsupportedAmo | unsupportedUnknown => cases h
  | _ => exact nofun

theorem normalizeDst_dst_ne (d : Descriptor) : d.normalizeDst.dst ≠ some 0#5 := by
  unfold Descriptor.normalizeDst
  split
  · exact nofun
  · assumption

theorem normalizeDst_normalizeDst (d : Descriptor) : d.normalizeDst.normalizeDst = d.normalizeDst := by
  rw [Descriptor.normalizeDst, if_neg (normalizeDst_dst_ne d)]

section
variable {w : Word}

/-- The descriptor of a Lui word (42_upper_immediate.md R140). -/
theorem coreDecode_lui (h : opcodeField w = 0x37#7) :
    coreDecode w =
      { type := .alu, aluFunc := .add, brFunc := .neverTaken, dst := dstOf (rdField w),
        src1 := some 0#5, src2 := none, imm := some (upperImm (immUField w)), csr := none } := by
  have hb : builder (opcodeClass (opcodeField w)) w = luiBuilder (rdField w) (upperImm (immUField w)) := by
    rw [h]
    exact congrArg (luiBuilder (rdField w)) (immU_eq w)
  rw [coreDecode, hb, normalizeDst_of_dst rfl]
  rfl

/-- The descriptor of an Auipc word (42_upper_immediate.md R142). -/
theorem coreDecode_auipc (h : opcodeField w = 0x17#7) :
    coreDecode w =
      { type := .auipc, aluFunc := .none, brFunc := .neverTaken, dst := dstOf (rdField w),
        src1 := none, src2 := none, imm := some (upperImm (immUField w)), csr := none } := by
  have hb : builder (opcodeClass (opcodeField w)) w = auipcBuilder (rdField w) (upperImm (immUField w)) := by
    rw [h]
    exact congrArg (auipcBuilder (rdField w)) (immU_eq w)
  rw [coreDecode, hb, normalizeDst_of_dst rfl]
  rfl

section
variable {f : AluFunc} {g : BrFunc} {imm : Word}

theorem coreDecode_eq_opImmBuilder (ho : opcodeField w = 0x13#7)
    (hf : aluFuncOf false (funct3Field w) (aluSelBit w) = f) (hi : opImmImm w = imm) :
    coreDecode w = (opImmBuilder f (rdField w) (rs1Field w) imm).normalizeDst := by
  rw [coreDecode_opImm ho hf hi, normalizeDst_of_dst rfl]
  rfl

theorem coreDecode_eq_opBuilder (ho : opcodeField w = 0x33#7)
    (hf : aluFuncOf true (funct3Field w) (aluSelBit w) = f) :
    coreDecode w = (opBuilder f (rdField w) (rs1Field w) (rs2Field w)).normalizeDst := by
  rw [coreDecode_op ho hf, normalizeDst_of_dst rfl]
  rfl

theorem coreDecode_eq_branchBuilder (ho : opcodeField w = 0x63#7) (hg : brFuncOf (funct3Field w) = some g) :
    coreDecode w = (branchBuilder (some g) (rs1Field w) (rs2Field w) (sextB w)).normalizeDst :=
  coreDecode_branch ho hg

end

/-- CORE's `decode` of a word is the descriptor of the instruction the word decodes to. -/
theorem DecodesAs.coreDecode_eq {i : Instr} (h : DecodesAs w i) : coreDecode w = (descriptorOf i).normalizeDst := by
  cases h with
  | addi ho h3 => exact coreDecode_eq_opImmBuilder ho (by rw [h3]; rfl) (opImmImm_of_ne (by rw [h3]; decide))
  | slli ho h3 => exact coreDecode_eq_opImmBuilder ho (by rw [h3]; rfl) (opImmImm_of_ne (by rw [h3]; decide))
  | slti ho h3 => exact coreDecode_eq_opImmBuilder ho (by rw [h3]; rfl) (opImmImm_of_ne (by rw [h3]; decide))
  | sltiu ho h3 => exact coreDecode_eq_opImmBuilder ho (by rw [h3]; rfl) (opImmImm_of_ne (by rw [h3]; decide))
  | xori ho h3 => exact coreDecode_eq_opImmBuilder ho (by rw [h3]; rfl) (opImmImm_of_ne (by rw [h3]; decide))
  | ori ho h3 => exact coreDecode_eq_opImmBuilder ho (by rw [h3]; rfl) (opImmImm_of_ne (by rw [h3]; decide))
  | andi ho h3 => exact coreDecode_eq_opImmBuilder ho (by rw [h3]; rfl) (opImmImm_of_ne (by rw [h3]; decide))
  | srli ho h3 hs => exact coreDecode_eq_opImmBuilder ho (by rw [h3, hs]; rfl) (opImmImm_of_rightShift h3)
  | srai ho h3 hs => exact coreDecode_eq_opImmBuilder ho (by rw [h3, hs]; rfl) (opImmImm_of_rightShift h3)
  | add ho h3 hs => exact coreDecode_eq_opBuilder ho (by rw [h3, hs]; rfl)
  | sub ho h3 hs => exact coreDecode_eq_opBuilder ho (by rw [h3, hs]; rfl)
  | sll ho h3 => exact coreDecode_eq_opBuilder ho (by rw [h3]; rfl)
  | slt ho h3 => exact coreDecode_eq_opBuilder ho (by rw [h3]; rfl)
  | sltu ho h3 => exact coreDecode_eq_opBuilder ho (by rw [h3]; rfl)
  | xor ho h3 => exact coreDecode_eq_opBuilder ho (by rw [h3]; rfl)
  | srl ho h3 hs => exact coreDecode_eq_opBuilder ho (by rw [h3, hs]; rfl)
  | sra ho h3 hs => exact coreDecode_eq_opBuilder ho (by rw [h3, hs]; rfl)
  | or ho h3 => exact coreDecode_eq_opBuilder ho (by rw [h3]; rfl)
  | and ho h3 => exact coreDecode_eq_opBuilder ho (by rw [h3]; rfl)
  | lui ho => rw [coreDecode_lui ho, descriptorOf, normalizeDst_of_dst rfl]; rfl
  | auipc ho => rw [coreDecode_auipc ho, descriptorOf, normalizeDst_of_dst rfl]; rfl
  | jal ho => rw [coreDecode_jal ho, descriptorOf, normalizeDst_of_dst rfl]; rfl
  | jalr ho => rw [coreDecode_jalr ho, descriptorOf, normalizeDst_of_dst rfl]; rfl
  | beq ho h3 => exact coreDecode_eq_branchBuilder ho (by rw [h3]; rfl)
  | bne ho h3 => exact coreDecode_eq_branchBuilder ho (by rw [h3]; rfl)
  | blt ho h3 => exact coreDecode_eq_branchBuilder ho (by rw [h3]; rfl)
  | bge ho h3 => exact coreDecode_eq_branchBuilder ho (by rw [h3]; rfl)
  | bltu ho h3 => exact coreDecode_eq_branchBuilder ho (by rw [h3]; rfl)
  | bgeu ho h3 => exact coreDecode_eq_branchBuilder ho (by rw [h3]; rfl)
  | lw ho h3 =>
    rw [coreDecode_load ho (beq_iff_eq.mpr h3), descriptorOf, normalizeDst_of_dst rfl]; rfl
  | sw ho h3 => exact coreDecode_store ho (beq_iff_eq.mpr h3)
  | csrw ho h => exact coreDecode_csrw ho h
  | csrr ho h => rw [coreDecode_csrr ho h, descriptorOf, normalizeDst_of_dst rfl]; rfl
  | unsupportedBranch | unsupportedLoad | unsupportedStore | unsupportedSystem | unsupportedMiscMem
  | unsupportedAmo | unsupportedUnknown => exact (normalizeDst_normalizeDst _).symm

end

theorem coreDecode_eq_descriptorOf (w : Word) : coreDecode w = (descriptorOf (decodeWord w)).normalizeDst :=
  (decodesAs_decodeWord w).coreDecode_eq

end Sys2Proof.Machine
end

section
/-! SUPPORT. The statements about `decode`: which descriptor each class gives, the words of type `Unsupported`, the
opcode table, the bits nobody checks and the canonical word (30_encoding.md sections 3 to 5). -/

open Sys2Proof.Claims

namespace Sys2Proof.Machine

/-! ## The descriptor by class: what normalising keeps -/

section
variable {d : Descriptor} {rd : RegIdx}

@[simp] theorem normalizeDst_src1 : d.normalizeDst.src1 = d.src1 := by
  unfold Descriptor.normalizeDst; split <;> rfl

@[simp] theorem normalizeDst_src2 : d.normalizeDst.src2 = d.src2 := by
  unfold Descriptor.normalizeDst; split <;> rfl

@[simp] theorem normalizeDst_imm : d.normalizeDst.imm = d.imm := by
  unfold Descriptor.normalizeDst; split <;> rfl

@[simp] theorem normalizeDst_csr : d.normalizeDst.csr = d.csr := by
  unfold Descriptor.normalizeDst; split <;> rfl

theorem normalizeDst_dst_of_some (h : d.dst = some rd) : d.normalizeDst.dst = dstOf rd := by
  rw [normalizeDst_of_dst h]

theorem normalizeDst_dst_of_none (h : d.dst = none) : d.normalizeDst.dst = none := by
  rw [Descriptor.normalizeDst, if_neg (by rw [h]; exact nofun), h]

end

section
variable {w : Word} {c : OpcodeClass}

theorem coreDecode_of_class (hc : opcodeClass (opcodeField w) = c) : coreDecode w = (builder c w).normalizeDst := by
  rw [coreDecode, hc]

theorem coreDecode_type_of_class (hc : opcodeClass (opcodeField w) = c) :
    (coreDecode w).type = (builder c w).type := by
  rw [coreDecode_of_class hc, normalizeDst_type]

theorem coreDecode_imm_of_class (hc : opcodeClass (opcodeField w) = c) : (coreDecode w).imm = (builder c w).imm := by
  rw [coreDecode_of_class hc, normalizeDst_imm]

/-- Every Branch word has the two sources and no destination, whatever its `funct3` (44_branch.md R150, R158). -/
theorem branchBuilder_fields (f : Option BrFunc) (rs1 rs2 : RegIdx) (imm : Word) :
    (branchBuilder f rs1 rs2 imm).dst = none ∧ (branchBuilder f rs1 rs2 imm).src1 = some rs1 ∧
      (branchBuilder f rs1 rs2 imm).src2 = some rs2 ∧ (branchBuilder f rs1 rs2 imm).imm = some imm := by
  cases f <;> exact ⟨rfl, rfl, rfl, rfl⟩

end

/-- The builders that set a destination set it to `rd`, the others to none; and the sources they take from the word
are its fields. -/
theorem builder_registers (c : OpcodeClass) (w : Word) :
    (c ∈ [OpcodeClass.opImm, .op, .lui, .auipc, .jal, .jalr, .load, .system] →
      (builder c w).dst = some (rdField w)) ∧
    (c ∈ [OpcodeClass.branch, .store, .miscMem, .amo, .unknown] → (builder c w).dst = none) ∧
    (c ∈ [OpcodeClass.opImm, .op, .jalr, .branch, .load, .store, .system] →
      (builder c w).src1 = some (rs1Field w)) ∧
    (c ∈ [OpcodeClass.op, .branch, .store] → (builder c w).src2 = some (rs2Field w)) := by
  cases c with
  | branch =>
    obtain ⟨hd, h1, h2, -⟩ := branchBuilder_fields (brFuncOf (funct3Field w)) (rs1Field w) (rs2Field w) (immB w)
    exact ⟨nofun, fun _ => hd, fun _ => h1, fun _ => h2⟩
  | _ => simp [builder, opImmBuilder, opBuilder, luiBuilder, auipcBuilder, jalBuilder, jalrBuilder, loadBuilder,
      storeBuilder, systemBuilder, neutral]

/-- Settles O25: the registers each builder sets, and the one normalisation after it. -/
theorem destinationIsNormalised : Obligations.DestinationIsNormalised := by
  intro w
  obtain ⟨hsome, hnone, hsrc1, hsrc2⟩ := builder_registers (opcodeClass (opcodeField w)) w
  exact ⟨normalizeDst_dst_ne _, fun hc => normalizeDst_dst_of_some (hsome hc),
    fun hc => normalizeDst_dst_of_none (hnone hc), fun hc => normalizeDst_src1.trans (hsrc1 hc),
    fun hc => normalizeDst_src2.trans (hsrc2 hc)⟩

/-! ## The words of type `Unsupported` (30_encoding.md R100) -/

theorem brFuncOf_eq_none_iff (f : BitVec 3) : brFuncOf f = none ↔ f = 0b010#3 ∨ f = 0b011#3 := by
  revert f
  decide

theorem branchBuilder_type_iff (f : Option BrFunc) (rs1 rs2 : RegIdx) (imm : Word) :
    (branchBuilder f rs1 rs2 imm).type = .unsupported ↔ f = none := by
  cases f <;> simp [branchBuilder, neutral]

theorem systemType_eq_unsupported_iff (w : Word) :
    systemType w = .unsupported ↔
      ¬ (funct3Field w = 0b001#3 ∧ rdField w = 0#5) ∧ ¬ (funct3Field w = 0b010#3 ∧ rs1Field w = 0#5) := by
  unfold systemType
  split_ifs with hw hr
  · exact ⟨nofun, fun h => absurd hw h.1⟩
  · exact ⟨nofun, fun h => absurd hr h.2⟩
  · exact ⟨fun _ => ⟨hw, hr⟩, fun _ => rfl⟩

/-- Settles O26: class by class, the type the builder gives. -/
theorem unsupportedWordsCompletely : Obligations.UnsupportedWordsCompletely := by
  intro w
  change _ ↔ (opcodeField w ∉ _ ∨ (opcodeField w = _ ∧ funct3Field w ≠ _) ∨ (opcodeField w = _ ∧ funct3Field w ≠ _) ∨
    (opcodeField w = _ ∧ (funct3Field w = _ ∨ funct3Field w = _)) ∨
    (opcodeField w = _ ∧ ¬ (funct3Field w = _ ∧ rdField w = _) ∧ ¬ (funct3Field w = _ ∧ rs1Field w = _)))
  cases hc : opcodeClass (opcodeField w) with
  | unknown =>
    have hn : ∀ opc, opcodeClass opc = .unknown →
        opc ∉ [0x03#7, 0x13#7, 0x17#7, 0x23#7, 0x33#7, 0x37#7, 0x63#7, 0x67#7, 0x6F#7, 0x73#7] := by decide
    exact iff_of_true (coreDecode_type_of_class hc) (.inl (hn _ hc))
  | branch =>
    rw [coreDecode_type_of_class hc, eq_of_opcodeClass rfl hc, builder, branchBuilder_type_iff, brFuncOf_eq_none_iff]
    simp
  | system =>
    rw [coreDecode_type_of_class hc, eq_of_opcodeClass rfl hc, builder, systemBuilder, systemType_eq_unsupported_iff]
    simp
  | _ =>
    rw [coreDecode_type_of_class hc, eq_of_opcodeClass rfl hc]
    simp [builder, opImmBuilder, opBuilder, luiBuilder, auipcBuilder, jalBuilder, jalrBuilder, loadBuilder,
      storeBuilder, neutral]

end Sys2Proof.Machine
end

section
/-! SUPPORT. The immediates as fields of the word, and the statement that their source bits come back from the
descriptor (30_encoding.md R80 to R88). -/

open Sys2Proof.Claims

namespace Sys2Proof.Machine

/-! ## The bits of a sign-extended field -/

section
variable {n : Nat} (x : BitVec n)

theorem getLsbD_signExtend_of_lt (hn : n ≤ 32) {i : Nat} (hi : i < n) : (x.signExtend 32).getLsbD i = x.getLsbD i := by
  rw [BitVec.getLsbD_signExtend, if_pos hi]
  simp only [show i < 32 by omega, decide_true, Bool.true_and]

/-- Two fields are equal when their bits are. -/
theorem extractLsb'_congr {m k : Nat} {x : BitVec m} {y : BitVec k} {lo lo' len : Nat}
    (h : ∀ i < len, x.getLsbD (lo + i) = y.getLsbD (lo' + i)) : x.extractLsb' lo len = y.extractLsb' lo' len := by
  apply BitVec.eq_of_getLsbD_eq
  intro i hi
  rw [BitVec.getLsbD_extractLsb', BitVec.getLsbD_extractLsb', h i hi]

theorem extractLsb'_signExtend (hn : n ≤ 32) {lo len : Nat} (h : lo + len ≤ n) :
    (x.signExtend 32).extractLsb' lo len = x.extractLsb' lo len :=
  extractLsb'_congr fun _ _ => getLsbD_signExtend_of_lt x hn (by omega)

/-- Every bit from the sign bit `k` up equals it. -/
theorem getLsbD_signExtend_above {k : Nat} (hn : n = k + 1) (hk : k < 32) :
    ∀ i, k ≤ i → i < 32 → (x.signExtend 32).getLsbD i = (x.signExtend 32).getLsbD k := by
  intro i hki hi
  subst hn
  rw [getLsbD_signExtend_of_lt x (by omega) (Nat.lt_succ_self k), BitVec.getLsbD_signExtend]
  simp only [hi, decide_true, Bool.true_and]
  split
  · rw [show i = k by omega]
  · exact BitVec.msb_eq_getLsbD_last x

end

/-! ## The fragments of each immediate -/

section
variable (w : Word)

theorem sextI_fragments :
    (sextI w).extractLsb' 0 12 = w.extractLsb' 20 12 ∧
      ∀ i, 11 ≤ i → i < 32 → (sextI w).getLsbD i = (sextI w).getLsbD 11 := by
  refine ⟨?_, getLsbD_signExtend_above _ rfl (by omega)⟩
  rw [sextI, extractLsb'_signExtend _ (by omega) (by omega), BitVec.extractLsb'_eq_self]

theorem sextS_fragments :
    (sextS w).extractLsb' 5 7 = w.extractLsb' 25 7 ∧ (sextS w).extractLsb' 0 5 = w.extractLsb' 7 5 ∧
      ∀ i, 11 ≤ i → i < 32 → (sextS w).getLsbD i = (sextS w).getLsbD 11 := by
  refine ⟨?_, ?_, getLsbD_signExtend_above _ rfl (by omega)⟩
  · rw [sextS, extractLsb'_signExtend _ (by omega) (by omega)]
    exact BitVec.extractLsb'_append_eq_left
  · rw [sextS, extractLsb'_signExtend _ (by omega) (by omega)]
    exact BitVec.extractLsb'_append_eq_right

/-- Which bit of the word each bit of the branch offset is (30_encoding.md R77). -/
theorem sextB_getLsbD {i : Nat} (hi : i < 13) :
    (sextB w).getLsbD i =
      if i = 0 then false else if i < 5 then w.getLsbD (7 + i) else if i < 11 then w.getLsbD (20 + i)
      else if i = 11 then w.getLsbD 7 else w.getLsbD 31 := by
  rw [sextB, getLsbD_signExtend_of_lt _ (by omega) hi]
  simp only [BitVec.getLsbD_append, BitVec.getLsbD_extractLsb']
  interval_cases i <;> rfl

/-- Which bit of the word each bit of the jump offset is (30_encoding.md R79). -/
theorem sextJ_getLsbD {i : Nat} (hi : i < 21) :
    (sextJ w).getLsbD i =
      if i = 0 then false else if i < 11 then w.getLsbD (20 + i) else if i = 11 then w.getLsbD 20
      else if i < 20 then w.getLsbD i else w.getLsbD 31 := by
  rw [sextJ, getLsbD_signExtend_of_lt _ (by omega) hi]
  simp only [BitVec.getLsbD_append, BitVec.getLsbD_extractLsb']
  interval_cases i <;> rfl

theorem sextB_fragments :
    (sextB w).getLsbD 12 = w.getLsbD 31 ∧ (sextB w).getLsbD 11 = w.getLsbD 7 ∧
      (sextB w).extractLsb' 5 6 = w.extractLsb' 25 6 ∧ (sextB w).extractLsb' 1 4 = w.extractLsb' 8 4 ∧
      (sextB w).getLsbD 0 = false ∧ ∀ i, 12 ≤ i → i < 32 → (sextB w).getLsbD i = (sextB w).getLsbD 12 := by
  refine ⟨sextB_getLsbD w (by omega), sextB_getLsbD w (by omega), extractLsb'_congr fun i hi => ?_,
    extractLsb'_congr fun i hi => ?_, sextB_getLsbD w (by omega), getLsbD_signExtend_above _ rfl (by omega)⟩
  · rw [sextB_getLsbD w (by omega), if_neg (by omega), if_neg (by omega), if_pos (by omega), ← Nat.add_assoc]
  · rw [sextB_getLsbD w (by omega), if_neg (by omega), if_pos (by omega), ← Nat.add_assoc]

theorem sextJ_fragments :
    (sextJ w).getLsbD 20 = w.getLsbD 31 ∧ (sextJ w).extractLsb' 12 8 = w.extractLsb' 12 8 ∧
      (sextJ w).getLsbD 11 = w.getLsbD 20 ∧ (sextJ w).extractLsb' 1 10 = w.extractLsb' 21 10 ∧
      (sextJ w).getLsbD 0 = false ∧ ∀ i, 20 ≤ i → i < 32 → (sextJ w).getLsbD i = (sextJ w).getLsbD 20 := by
  refine ⟨sextJ_getLsbD w (by omega), extractLsb'_congr fun i hi => ?_, sextJ_getLsbD w (by omega),
    extractLsb'_congr fun i hi => ?_, sextJ_getLsbD w (by omega), getLsbD_signExtend_above _ rfl (by omega)⟩
  · rw [sextJ_getLsbD w (by omega), if_neg (by omega), if_neg (by omega), if_neg (by omega), if_pos (by omega)]
  · rw [sextJ_getLsbD w (by omega), if_neg (by omega), if_pos (by omega), ← Nat.add_assoc]

theorem upperImm_fragments (imm20 : BitVec 20) :
    (upperImm imm20).extractLsb' 12 20 = imm20 ∧ (upperImm imm20).extractLsb' 0 12 = 0#12 :=
  ⟨BitVec.extractLsb'_append_eq_left, BitVec.extractLsb'_append_eq_right⟩

theorem setWidth_shamt_fragments (shamt : BitVec 5) :
    (shamt.setWidth 32 : Word).extractLsb' 0 5 = shamt ∧ (shamt.setWidth 32 : Word).extractLsb' 5 27 = 0#27 := by
  constructor
  · rw [field_eq_iff]
    intro i hi
    simp [show i < 32 by omega]
  · rw [field_eq_iff]
    intro i hi
    simp

end

/-! ## The statement -/

/-- Settles O24: the immediate each class puts in its descriptor, and the fragments of that immediate. -/
theorem sourceBitsAreRecoverable : Obligations.SourceBitsAreRecoverable := by
  intro w imm himm
  have hclass : ∀ {c imm'}, opcodeClass (opcodeField w) = c → (builder c w).imm = some imm' → imm' = imm :=
    fun hc h => Option.some.inj (h.symm.trans ((coreDecode_imm_of_class hc).symm.trans himm))
  refine ⟨?signI, fun ⟨hc, h3⟩ => ?shamt, fun hc => ?signS, fun hc => ?signB, ?upper, fun hc => ?signJ⟩
  case signI =>
    rintro (⟨hc, h3⟩ | hc | hc)
    · exact hclass hc (congrArg some (opImmImm_of_ne h3)) ▸ sextI_fragments w
    · exact hclass hc (congrArg some (immI_eq w)) ▸ sextI_fragments w
    · exact hclass hc (congrArg some (immI_eq w)) ▸ sextI_fragments w
  case shamt => exact hclass hc (congrArg some (opImmImm_of_rightShift h3)) ▸ setWidth_shamt_fragments _
  case signS => exact hclass hc (congrArg some (immS_eq w)) ▸ sextS_fragments w
  case signB =>
    obtain ⟨-, -, -, hb⟩ := branchBuilder_fields (brFuncOf (funct3Field w)) (rs1Field w) (rs2Field w) (immB w)
    exact hclass hc (hb.trans (congrArg some (immB_eq w))) ▸ sextB_fragments w
  case upper =>
    rintro (hc | hc) <;> exact hclass hc (congrArg some (immU_eq w)) ▸ upperImm_fragments _
  case signJ => exact hclass hc (congrArg some (immJ_eq w)) ▸ sextJ_fragments w

end Sys2Proof.Machine
end

section
/-! SUPPORT. The opcode table, the bits nobody checks, the canonical word, and the statements about them
(30_encoding.md section 5). -/

open Sys2Proof.Claims

namespace Sys2Proof.Machine

/-! ## The canonical word -/

theorem not_getLsbD_zero_append_zero {n : Nat} (x : BitVec n) : (!(x ++ 0#1).getLsbD 0) = true := by
  rw [BitVec.getLsbD_append]
  rfl

/-- The instruction a word decodes to is well formed: the offsets end in the 0 the decoder puts there, and a word with
no meaning is of its own row. -/
theorem DecodesAs.wellFormed {w : Word} {i : Instr} (h : DecodesAs w i) : i.wellFormed = true := by
  cases h with
  | jal => exact not_getLsbD_zero_append_zero _
  | beq | bne | blt | bge | bltu | bgeu => exact not_getLsbD_zero_append_zero _
  | unsupportedBranch ho h3 => exact (row_branch_iff w).mpr ⟨ho, h3⟩
  | unsupportedLoad ho h3 =>
    have hrow := (row_opcode_iff w 0x03#7).mpr ho
    have hword := mt (row_funct3_iff w 0b010#3 0x03#7).mp (fun h => h3 h.2)
    exact Bool.and_eq_true_iff.mpr ⟨hrow, by simpa using hword⟩
  | unsupportedStore ho h3 =>
    have hrow := (row_opcode_iff w 0x23#7).mpr ho
    have hword := mt (row_funct3_iff w 0b010#3 0x23#7).mp (fun h => h3 h.2)
    exact Bool.and_eq_true_iff.mpr ⟨hrow, by simpa using hword⟩
  | unsupportedSystem ho hw hr =>
    have hrow := (row_opcode_iff w 0x73#7).mpr ho
    have hwrite := mt (row_csrw_iff w).mp (fun h => hw h.2)
    have hread := mt (row_csrr_iff w).mp (fun h => hr h.2)
    exact Bool.and_eq_true_iff.mpr ⟨Bool.and_eq_true_iff.mpr ⟨hrow, by simpa using hwrite⟩, by simpa using hread⟩
  | unsupportedMiscMem ho => exact (row_opcode_iff w 0x0F#7).mpr ho
  | unsupportedAmo ho => exact (row_opcode_iff w 0x2F#7).mpr ho
  | unsupportedUnknown hc =>
    have hnot := (opcodeClass_unknown_iff w).mpr hc
    rw [Instr.wellFormed, hnot]
    rfl
  | _ => rfl

/-- Settles O29: the canonical word decodes to the same instruction, and the instruction alone fixes the descriptor. -/
theorem canonicalWordHasTheSameDescriptor : Obligations.CanonicalWordHasTheSameDescriptor := by
  intro w
  have hwf : (decodeWord w).wellFormed = true := (decodesAs_decodeWord w).wellFormed
  refine ⟨hwf, ?_⟩
  rw [coreDecode_eq_descriptorOf, Laws.RoundTrip.decodeWord_encode hwf, ← coreDecode_eq_descriptorOf]

/-! ## The bits nobody checks (30_encoding.md R98) -/

section
variable {w w' : Word}

/-- Words that agree under a mask agree in every field the mask covers. -/
theorem field_congr_of_mask {mask : Word} {lo n : Nat} (hmask : mask.extractLsb' lo n = BitVec.allOnes n)
    (h : w &&& mask = w' &&& mask) : w.extractLsb' lo n = w'.extractLsb' lo n := by
  have hfield := congrArg (BitVec.extractLsb' lo n) h
  rwa [BitVec.extractLsb'_and, BitVec.extractLsb'_and, hmask, BitVec.and_allOnes, BitVec.and_allOnes] at hfield

theorem bit_congr_of_mask {mask : Word} {k : Nat} (hmask : mask.getLsbD k = true) (h : w &&& mask = w' &&& mask) :
    w.getLsbD k = w'.getLsbD k := by
  have hbit := congrArg (BitVec.getLsbD · k) h
  simpa [BitVec.getLsbD_and, hmask] using hbit

/-- The decoded instruction fixes the descriptor. -/
theorem decode_congr (h : decodeWord w = decodeWord w') :
    decodeWord w = decodeWord w' ∧ coreDecode w = coreDecode w' :=
  ⟨h, by rw [coreDecode_eq_descriptorOf, h, ← coreDecode_eq_descriptorOf]⟩

/-- Of an Op word the decoder reads the fields below bit 25, and `aluSel` for two values of `funct3`. -/
theorem decodeWord_congr_op (hc : opcodeClass (opcodeField w) = .op) (h : w &&& 0x01FFFFFF#32 = w' &&& 0x01FFFFFF#32)
    (hsel : funct3Field w = 0b000#3 ∨ funct3Field w = 0b101#3 → aluSelBit w = aluSelBit w') :
    decodeWord w = decodeWord w' := by
  have ho : opcodeField w = 0x33#7 := eq_of_opcodeClass rfl hc
  have ho' : opcodeField w = opcodeField w' := field_congr_of_mask (by decide) h
  have h3 : funct3Field w = funct3Field w' := field_congr_of_mask (by decide) h
  have hd : rdField w = rdField w' := field_congr_of_mask (by decide) h
  have h1 : rs1Field w = rs1Field w' := field_congr_of_mask (by decide) h
  have h2 : rs2Field w = rs2Field w' := field_congr_of_mask (by decide) h
  rw [decodeWord_op ho, decodeWord_op (ho'.symm.trans ho), decodeOp, decodeOp, ← h3, ← hd, ← h1, ← h2]
  by_cases h0 : funct3Field w = 0b000#3
  · rw [hsel (.inl h0)]
  by_cases h5 : funct3Field w = 0b101#3
  · rw [hsel (.inr h5)]
  · simp only [h0, h5, if_false]

/-- Of a right shift by an immediate the decoder reads the fields below bit 25, and `aluSel`. -/
theorem decodeWord_congr_rightShift (hc : opcodeClass (opcodeField w) = .opImm) (h5 : funct3Field w = 0b101#3)
    (h : w &&& 0x41FFFFFF#32 = w' &&& 0x41FFFFFF#32) : decodeWord w = decodeWord w' := by
  have ho : opcodeField w = 0x13#7 := eq_of_opcodeClass rfl hc
  have ho' : opcodeField w = opcodeField w' := field_congr_of_mask (by decide) h
  have h3 : funct3Field w = funct3Field w' := field_congr_of_mask (by decide) h
  have hd : rdField w = rdField w' := field_congr_of_mask (by decide) h
  have h1 : rs1Field w = rs1Field w' := field_congr_of_mask (by decide) h
  have h2 : rs2Field w = rs2Field w' := field_congr_of_mask (by decide) h
  have hs : aluSelBit w = aluSelBit w' := bit_congr_of_mask (by decide) h
  rw [decodeWord_opImm ho, decodeWord_opImm (ho'.symm.trans ho)]
  cases hsel : aluSelBit w with
  | false => rw [decodeOpImm_srli h5 hsel, decodeOpImm_srli (h3 ▸ h5) (hs ▸ hsel), hd, h1, h2]
  | true => rw [decodeOpImm_srai h5 hsel, decodeOpImm_srai (h3 ▸ h5) (hs ▸ hsel), hd, h1, h2]

/-- Of a Jalr word the decoder reads all but `funct3`. -/
theorem decodeWord_congr_jalr (hc : opcodeClass (opcodeField w) = .jalr)
    (h : w &&& 0xFFFF8FFF#32 = w' &&& 0xFFFF8FFF#32) : decodeWord w = decodeWord w' := by
  have ho : opcodeField w = 0x67#7 := eq_of_opcodeClass rfl hc
  have ho' : opcodeField w = opcodeField w' := field_congr_of_mask (by decide) h
  have hd : rdField w = rdField w' := field_congr_of_mask (by decide) h
  have h1 : rs1Field w = rs1Field w' := field_congr_of_mask (by decide) h
  have hi : immIField w = immIField w' := field_congr_of_mask (by decide) h
  rw [decodeWord_jalr ho, decodeWord_jalr (ho'.symm.trans ho), hd, h1, hi]

/-- A mask may be narrowed. -/
theorem and_congr_of_mask {mask mask' : Word} (hsub : mask &&& mask' = mask') (h : w &&& mask = w' &&& mask) :
    w &&& mask' = w' &&& mask' := by
  rw [← hsub, ← BitVec.and_assoc, ← BitVec.and_assoc, h]

end

/-- The words RV32M gives other instructions are the Op words with `aluSel` clear (41_op.md R127). -/
theorem decodeWord_mulWord {funct3 : BitVec 3} {instr : RegIdx → RegIdx → RegIdx → Instr}
    (hdecode : ∀ {w}, funct3Field w = funct3 → aluSelBit w = false →
      decodeOp w = instr (rdField w) (rs1Field w) (rs2Field w)) (rd rs1 rs2 : RegIdx) :
    decodeWord (encodeR 0b0000001#7 rs2 rs1 funct3 rd 0x33#7) = instr rd rs1 rs2 := by
  rw [decodeWord_op (by simp), hdecode (by simp) (by simp)]
  simp

/-- Settles O28: the fields each decoder reads, and the RV32M words as Op words. -/
theorem uncheckedBitsAreIgnored : Obligations.UncheckedBitsAreIgnored := by
  refine ⟨fun w w' hc h => ?op, fun w w' hc h3 h => ?opOther, fun w w' hc h5 h => ?rightShift,
    fun w w' hc h => ?jalr, fun rd rs1 rs2 => ?mul⟩
  case op =>
    exact decode_congr (decodeWord_congr_op hc (and_congr_of_mask (by decide) h)
      fun _ => bit_congr_of_mask (by decide) h)
  case opOther =>
    refine decode_congr (decodeWord_congr_op hc h fun h05 => absurd ?_ h3)
    rcases h05 with h0 | h5
    · exact List.mem_cons.mpr (.inl h0)
    · exact List.mem_cons_of_mem _ (List.mem_singleton.mpr h5)
  case rightShift => exact decode_congr (decodeWord_congr_rightShift hc h5 h)
  case jalr => exact decode_congr (decodeWord_congr_jalr hc h)
  case mul =>
    exact ⟨decodeWord_mulWord decodeOp_add rd rs1 rs2,
      decodeWord_mulWord (fun h _ => decodeOp_sll h) rd rs1 rs2,
      decodeWord_mulWord (fun h _ => decodeOp_slt h) rd rs1 rs2,
      decodeWord_mulWord (fun h _ => decodeOp_sltu h) rd rs1 rs2,
      decodeWord_mulWord (fun h _ => decodeOp_xor h) rd rs1 rs2,
      decodeWord_mulWord decodeOp_srl rd rs1 rs2,
      decodeWord_mulWord (fun h _ => decodeOp_or h) rd rs1 rs2,
      decodeWord_mulWord (fun h _ => decodeOp_and h) rd rs1 rs2⟩

/-- Settles O21: the words of 95_test_vectors.md, decoded by evaluation. -/
theorem sanityWords : Obligations.SanityWords := by
  refine ⟨?_, ?_, ?_, ?_, ?_, ?_, ?_, ?_, ?_, ?_⟩ <;> decide

end Sys2Proof.Machine
end

section
/-! SUPPORT. The opcode table: the first row that matches a word is the row of the instruction it decodes to
(30_encoding.md R102). -/

namespace Sys2Proof.Machine

/-- Every row of the opcode table, in its order. -/
abbrev opcodeRows : List OpcodeRow := supportedRows ++ unsupportedRows

section
variable {w : Word} {r r' : OpcodeRow}

/-- Two rows that match one word agree on the bits both look at. -/
theorem row_patterns_agree (h : w &&& r.mask = r.pattern) (h' : w &&& r'.mask = r'.pattern) :
    r.pattern &&& r'.mask = r'.pattern &&& r.mask := by
  rw [← h, ← h', BitVec.and_assoc, BitVec.and_assoc, BitVec.and_comm r.mask]

/-- A row that matches is the first one, when the rows before it that agree with it do not match. -/
theorem firstRow_of_first (k : Nat) (hk : opcodeRows[k]? = some r) (h : rowMatches w r.mask r.pattern = true)
    (hbefore : ∀ a ∈ opcodeRows.take k, a.pattern &&& r.mask = r.pattern &&& a.mask →
      rowMatches w a.mask a.pattern ≠ true) : firstRow w = some r.mnemonic := by
  obtain ⟨hlt, rfl⟩ := List.getElem?_eq_some_iff.mp hk
  have hnone : ∀ a ∈ opcodeRows.take k, (!rowMatches w a.mask a.pattern) = true := by
    intro a ha
    rw [Bool.not_eq_true', Bool.eq_false_iff]
    exact fun hmatch => hbefore a ha (row_patterns_agree (beq_iff_eq.mp hmatch) (beq_iff_eq.mp h)) hmatch
  have hfind : opcodeRows.find? (fun r => rowMatches w r.mask r.pattern) = some opcodeRows[k] :=
    List.find?_eq_some_iff_append.mpr ⟨h, opcodeRows.take k, opcodeRows.drop (k + 1), by simp, hnone⟩
  rw [firstRow, hfind]
  rfl

theorem firstRow_of_disjoint (k : Nat) (hk : opcodeRows[k]? = some r)
    (hdisjoint : ∀ a ∈ opcodeRows.take k, a.pattern &&& r.mask ≠ r.pattern &&& a.mask)
    (h : rowMatches w r.mask r.pattern = true) : firstRow w = some r.mnemonic :=
  firstRow_of_first k hk h fun a ha hagree => absurd hagree (hdisjoint a ha)

end

/-- A row that executes agrees with no row before it on the bits both look at. The row of a whole class agrees with the
rows of the forms that execute, and those do not match here. -/
theorem DecodesAs.firstRow_eq {w : Word} {i : Instr} (h : DecodesAs w i) : firstRow w = some i.mnemonic := by
  cases h with
  | addi ho h3 => exact firstRow_of_disjoint 0 rfl (by decide) ((row_funct3_iff w 0b000#3 0x13#7).mpr ⟨ho, h3⟩)
  | slti ho h3 => exact firstRow_of_disjoint 1 rfl (by decide) ((row_funct3_iff w 0b010#3 0x13#7).mpr ⟨ho, h3⟩)
  | sltiu ho h3 => exact firstRow_of_disjoint 2 rfl (by decide) ((row_funct3_iff w 0b011#3 0x13#7).mpr ⟨ho, h3⟩)
  | xori ho h3 => exact firstRow_of_disjoint 3 rfl (by decide) ((row_funct3_iff w 0b100#3 0x13#7).mpr ⟨ho, h3⟩)
  | ori ho h3 => exact firstRow_of_disjoint 4 rfl (by decide) ((row_funct3_iff w 0b110#3 0x13#7).mpr ⟨ho, h3⟩)
  | andi ho h3 => exact firstRow_of_disjoint 5 rfl (by decide) ((row_funct3_iff w 0b111#3 0x13#7).mpr ⟨ho, h3⟩)
  | slli ho h3 => exact firstRow_of_disjoint 6 rfl (by decide) ((row_funct3_iff w 0b001#3 0x13#7).mpr ⟨ho, h3⟩)
  | srli ho h3 hs =>
    exact firstRow_of_disjoint 7 rfl (by decide) ((row_funct3_aluSel_iff w 0b101#3 false 0x13#7).mpr ⟨ho, h3, hs⟩)
  | srai ho h3 hs =>
    exact firstRow_of_disjoint 8 rfl (by decide) ((row_funct3_aluSel_iff w 0b101#3 true 0x13#7).mpr ⟨ho, h3, hs⟩)
  | add ho h3 hs =>
    exact firstRow_of_disjoint 9 rfl (by decide) ((row_funct3_aluSel_iff w 0b000#3 false 0x33#7).mpr ⟨ho, h3, hs⟩)
  | sub ho h3 hs =>
    exact firstRow_of_disjoint 10 rfl (by decide) ((row_funct3_aluSel_iff w 0b000#3 true 0x33#7).mpr ⟨ho, h3, hs⟩)
  | sll ho h3 => exact firstRow_of_disjoint 11 rfl (by decide) ((row_funct3_iff w 0b001#3 0x33#7).mpr ⟨ho, h3⟩)
  | slt ho h3 => exact firstRow_of_disjoint 12 rfl (by decide) ((row_funct3_iff w 0b010#3 0x33#7).mpr ⟨ho, h3⟩)
  | sltu ho h3 => exact firstRow_of_disjoint 13 rfl (by decide) ((row_funct3_iff w 0b011#3 0x33#7).mpr ⟨ho, h3⟩)
  | xor ho h3 => exact firstRow_of_disjoint 14 rfl (by decide) ((row_funct3_iff w 0b100#3 0x33#7).mpr ⟨ho, h3⟩)
  | srl ho h3 hs =>
    exact firstRow_of_disjoint 15 rfl (by decide) ((row_funct3_aluSel_iff w 0b101#3 false 0x33#7).mpr ⟨ho, h3, hs⟩)
  | sra ho h3 hs =>
    exact firstRow_of_disjoint 16 rfl (by decide) ((row_funct3_aluSel_iff w 0b101#3 true 0x33#7).mpr ⟨ho, h3, hs⟩)
  | or ho h3 => exact firstRow_of_disjoint 17 rfl (by decide) ((row_funct3_iff w 0b110#3 0x33#7).mpr ⟨ho, h3⟩)
  | and ho h3 => exact firstRow_of_disjoint 18 rfl (by decide) ((row_funct3_iff w 0b111#3 0x33#7).mpr ⟨ho, h3⟩)
  | lui ho => exact firstRow_of_disjoint 19 rfl (by decide) ((row_opcode_iff w 0x37#7).mpr ho)
  | auipc ho => exact firstRow_of_disjoint 20 rfl (by decide) ((row_opcode_iff w 0x17#7).mpr ho)
  | jal ho => exact firstRow_of_disjoint 21 rfl (by decide) ((row_opcode_iff w 0x6F#7).mpr ho)
  | jalr ho => exact firstRow_of_disjoint 22 rfl (by decide) ((row_opcode_iff w 0x67#7).mpr ho)
  | beq ho h3 => exact firstRow_of_disjoint 23 rfl (by decide) ((row_funct3_iff w 0b000#3 0x63#7).mpr ⟨ho, h3⟩)
  | bne ho h3 => exact firstRow_of_disjoint 24 rfl (by decide) ((row_funct3_iff w 0b001#3 0x63#7).mpr ⟨ho, h3⟩)
  | blt ho h3 => exact firstRow_of_disjoint 25 rfl (by decide) ((row_funct3_iff w 0b100#3 0x63#7).mpr ⟨ho, h3⟩)
  | bge ho h3 => exact firstRow_of_disjoint 26 rfl (by decide) ((row_funct3_iff w 0b101#3 0x63#7).mpr ⟨ho, h3⟩)
  | bltu ho h3 => exact firstRow_of_disjoint 27 rfl (by decide) ((row_funct3_iff w 0b110#3 0x63#7).mpr ⟨ho, h3⟩)
  | bgeu ho h3 => exact firstRow_of_disjoint 28 rfl (by decide) ((row_funct3_iff w 0b111#3 0x63#7).mpr ⟨ho, h3⟩)
  | lw ho h3 => exact firstRow_of_disjoint 29 rfl (by decide) ((row_funct3_iff w 0b010#3 0x03#7).mpr ⟨ho, h3⟩)
  | sw ho h3 => exact firstRow_of_disjoint 30 rfl (by decide) ((row_funct3_iff w 0b010#3 0x23#7).mpr ⟨ho, h3⟩)
  | csrw ho h => exact firstRow_of_disjoint 31 rfl (by decide) ((row_csrw_iff w).mpr ⟨ho, h⟩)
  | csrr ho h => exact firstRow_of_disjoint 32 rfl (by decide) ((row_csrr_iff w).mpr ⟨ho, h⟩)
  | unsupportedBranch ho h3 => exact firstRow_of_disjoint 33 rfl (by decide) ((row_branch_iff w).mpr ⟨ho, h3⟩)
  | unsupportedLoad ho h3 =>
    have hlw : ∀ a ∈ opcodeRows.take 34, a.pattern &&& 0x7F#32 = 0x03#32 &&& a.mask →
        a = ⟨"LW", 0x707F#32, 0x2003#32⟩ := by decide
    refine firstRow_of_first 34 rfl ((row_opcode_iff w 0x03#7).mpr ho) fun a ha hagree hmatch => ?_
    rw [hlw a ha hagree] at hmatch
    exact h3 ((row_funct3_iff w 0b010#3 0x03#7).mp hmatch).2
  | unsupportedStore ho h3 =>
    have hsw : ∀ a ∈ opcodeRows.take 35, a.pattern &&& 0x7F#32 = 0x23#32 &&& a.mask →
        a = ⟨"SW", 0x707F#32, 0x2023#32⟩ := by decide
    refine firstRow_of_first 35 rfl ((row_opcode_iff w 0x23#7).mpr ho) fun a ha hagree hmatch => ?_
    rw [hsw a ha hagree] at hmatch
    exact h3 ((row_funct3_iff w 0b010#3 0x23#7).mp hmatch).2
  | unsupportedSystem ho hw hr =>
    have hcsr : ∀ a ∈ opcodeRows.take 36, a.pattern &&& 0x7F#32 = 0x73#32 &&& a.mask →
        a = ⟨"CSRW", 0x7FFF#32, 0x1073#32⟩ ∨ a = ⟨"CSRR", 0xFF07F#32, 0x2073#32⟩ := by decide
    refine firstRow_of_first 36 rfl ((row_opcode_iff w 0x73#7).mpr ho) fun a ha hagree hmatch => ?_
    rcases hcsr a ha hagree with rfl | rfl
    · exact hw ((row_csrw_iff w).mp hmatch).2
    · exact hr ((row_csrr_iff w).mp hmatch).2
  | unsupportedMiscMem ho => exact firstRow_of_disjoint 37 rfl (by decide) ((row_opcode_iff w 0x0F#7).mpr ho)
  | unsupportedAmo ho => exact firstRow_of_disjoint 38 rfl (by decide) ((row_opcode_iff w 0x2F#7).mpr ho)
  | unsupportedUnknown hc =>
    have hcode : ∀ a ∈ opcodeRows.take 39, a.mask &&& 0x7F#32 = 0x7F#32 ∧
        opcodeClassCodes.contains (a.pattern &&& 0x7F#32) = true := by decide
    refine firstRow_of_first 39 rfl (beq_iff_eq.mpr BitVec.and_zero) fun a ha _ hmatch => ?_
    obtain ⟨hmask, hcontains⟩ := hcode a ha
    rw [← beq_iff_eq.mp hmatch, BitVec.and_assoc, hmask, (opcodeClass_unknown_iff w).mpr hc] at hcontains
    cases hcontains

theorem supportedRows_disjoint : ∀ r ∈ supportedRows, ∀ r' ∈ supportedRows,
    r.pattern &&& r'.mask = r'.pattern &&& r.mask → r = r' := by
  decide

/-- Settles O27: the row of the decoded instruction is the first that matches; two rows that execute and match one word
agree on the bits both look at, as no two different ones do. -/
theorem opcodeTableSelectsTheInstruction : Obligations.OpcodeTableSelectsTheInstruction :=
  ⟨fun w => (decodesAs_decodeWord w).firstRow_eq,
    fun _ r r' hr hr' h h' => supportedRows_disjoint r hr r' hr' (row_patterns_agree h h')⟩

end Sys2Proof.Machine
end

section
/-! SUPPORT. The ALU's shifts, and what the outputs of `execute` depend on for the descriptors `decode` produces
(48_executor.md R194 to R207). -/

open Sys2Proof.Claims

namespace Sys2Proof.Machine

/-! ## The shifts -/

/-- Settles O33: the amount is the low five bits, and each shift is that of machine words. -/
theorem aluShifts : Obligations.AluShifts := by
  intro free a b
  obtain ⟨-, -, -, hfloor⟩ := opImmShifts
  have hlt : shiftAmount b < 32 := Nat.mod_lt _ (by omega)
  rw [← shiftAmount_eq_extractLsb']
  refine ⟨?sll, ?srl, hfloor a _ hlt, fun i hi => ?sra⟩
  case sll => rw [aluOp, BitVec.toNat_shiftLeft, Nat.shiftLeft_eq]
  case srl => rw [aluOp, BitVec.toNat_ushiftRight, Nat.shiftRight_eq_div_pow]
  case sra =>
    rw [aluOp, BitVec.getLsbD_sshiftRight, BitVec.msb_eq_getLsbD_last, Nat.add_comm]
    simp only [Nat.not_le_of_lt hi, decide_false, Bool.not_false, Bool.true_and, Nat.add_one_sub_one]

/-! ## What `decode` produces for the outputs -/

/-- The fields `addr` and `data` are computed from agree with the type: what the type consumes is present, and is no
`UNSPEC32`. -/
inductive Descriptor.OutputShape (d : Descriptor) : Prop
  | unconsumed (ht : d.type = .br ∨ d.type = .unsupported)
  | link (ht : d.type = .j ∨ d.type = .jr)
  | pcRelative (imm : Word) (ht : d.type = .auipc) (hi : d.imm = some imm)
  | csrRead (ht : d.type = .csrr)
  | csrWrite (r : RegIdx) (ht : d.type = .csrw) (h1 : d.src1 = some r)
  | load (r : RegIdx) (imm : Word) (ht : d.type = .ld) (hf : d.aluFunc = .add) (h1 : d.src1 = some r)
      (hi : d.imm = some imm)
  | store (r r' : RegIdx) (imm : Word) (ht : d.type = .st) (hf : d.aluFunc = .add) (h1 : d.src1 = some r)
      (h2 : d.src2 = some r') (hi : d.imm = some imm)
  | aluImm (r : RegIdx) (imm : Word) (ht : d.type = .alu) (hf : d.aluFunc ≠ .none) (h1 : d.src1 = some r)
      (hi : d.imm = some imm)
  | aluReg (r r' : RegIdx) (ht : d.type = .alu) (hf : d.aluFunc ≠ .none) (h1 : d.src1 = some r)
      (h2 : d.src2 = some r') (hi : d.imm = none)

/-- The outputs do not read `dst`. -/
theorem Descriptor.OutputShape.normalizeDst {d : Descriptor} (h : d.OutputShape) : d.normalizeDst.OutputShape := by
  unfold Descriptor.normalizeDst
  split
  · cases h with
    | unconsumed ht => exact .unconsumed ht
    | link ht => exact .link ht
    | pcRelative imm ht hi => exact .pcRelative imm ht hi
    | csrRead ht => exact .csrRead ht
    | csrWrite r ht h1 => exact .csrWrite r ht h1
    | load r imm ht hf h1 hi => exact .load r imm ht hf h1 hi
    | store r r' imm ht hf h1 h2 hi => exact .store r r' imm ht hf h1 h2 hi
    | aluImm r imm ht hf h1 hi => exact .aluImm r imm ht hf h1 hi
    | aluReg r r' ht hf h1 h2 hi => exact .aluReg r r' ht hf h1 h2 hi
  · exact h

theorem aluFuncOf_ne_none (isOp : Bool) (f : BitVec 3) (sel : Bool) : aluFuncOf isOp f sel ≠ .none := by
  revert isOp f sel
  decide

/-- The builders, class by class: each fills what the outputs of its type are computed from. -/
theorem builder_outputShape (c : OpcodeClass) (w : Word) : (builder c w).OutputShape := by
  cases c with
  | opImm => exact .aluImm _ _ rfl (aluFuncOf_ne_none _ _ _) rfl rfl
  | op => exact .aluReg _ _ rfl (aluFuncOf_ne_none _ _ _) rfl rfl rfl
  | lui => exact .aluImm _ _ rfl nofun rfl rfl
  | auipc => exact .pcRelative _ rfl rfl
  | jal => exact .link (.inl rfl)
  | jalr => exact .link (.inr rfl)
  | branch =>
    unfold builder branchBuilder
    cases brFuncOf (funct3Field w) with
    | none => exact .unconsumed (.inr rfl)
    | some f => exact .unconsumed (.inl rfl)
  | load =>
    unfold builder loadBuilder
    cases funct3Field w == 0b010#3 with
    | false => exact .unconsumed (.inr rfl)
    | true => exact .load _ _ rfl rfl rfl rfl
  | store =>
    unfold builder storeBuilder
    cases funct3Field w == 0b010#3 with
    | false => exact .unconsumed (.inr rfl)
    | true => exact .store _ _ _ rfl rfl rfl rfl rfl
  | system =>
    unfold builder
    rcases systemType_cases w with h | h | h <;> rw [h]
    · exact .csrWrite _ rfl rfl
    · exact .csrRead rfl
    · exact .unconsumed (.inr rfl)
  | miscMem | amo | unknown => exact .unconsumed (.inr rfl)

theorem coreDecode_outputShape (w : Word) : (coreDecode w).OutputShape :=
  (builder_outputShape _ w).normalizeDst

/-! ## `addr` -/

section
variable {u : UnspecUse → Word} {d : Descriptor} {ip imm : Word} {p : Ports} {r : RegIdx}

theorem execute_addr : (execute u d ip p).addr = effectiveAddr d (aluResult u d p) := rfl

theorem execute_addr_of_access (ht : d.type = .ld ∨ d.type = .st) (hf : d.aluFunc = .add) (h1 : d.src1 = some r)
    (hi : d.imm = some imm) : (execute u d ip p).addr = some (p.src1Val + imm) := by
  have hres : aluResult u d p = p.src1Val + imm := by rw [aluResult_of_imm h1 hi, hf]; rfl
  rw [execute_addr, hres, effectiveAddr, h1]
  rcases ht with ht | ht <;> rw [ht]

theorem execute_addr_of_no_access (hld : d.type ≠ .ld) (hst : d.type ≠ .st) : (execute u d ip p).addr = none := by
  rw [execute_addr, effectiveAddr]
  split
  · next ht => exact absurd ht hld
  · next ht => exact absurd ht hst
  · rfl

/-- Either the type makes no access, and there is no address; or it is Ld or St, and the address is the sum. -/
theorem Descriptor.OutputShape.addr_cases (h : d.OutputShape) :
    (d.type ≠ .ld ∧ d.type ≠ .st) ∨
    ((d.type = .ld ∨ d.type = .st) ∧ ∃ r imm, d.aluFunc = .add ∧ d.src1 = some r ∧ d.imm = some imm) := by
  cases h with
  | load r imm ht hf h1 hi => exact .inr ⟨.inl ht, r, imm, hf, h1, hi⟩
  | store r r' imm ht hf h1 h2 hi => exact .inr ⟨.inr ht, r, imm, hf, h1, hi⟩
  | unconsumed ht | link ht => rcases ht with ht | ht <;> exact .inl (by simp [ht])
  | pcRelative _ ht | csrRead ht | csrWrite _ ht | aluImm _ _ ht | aluReg _ _ ht => exact .inl (by simp [ht])

end

/-- Settles O39: the address by whether the type makes an access. -/
theorem addrIsPresentForLoadsAndStores : Obligations.AddrIsPresentForLoadsAndStores := by
  intro u w ip p
  rcases (coreDecode_outputShape w).addr_cases with ⟨hld, hst⟩ | ⟨ht, r, imm, hf, h1, hi⟩
  · rw [execute_addr_of_no_access hld hst]
    exact ⟨iff_of_false nofun (not_or.mpr ⟨hld, hst⟩), nofun⟩
  · rw [execute_addr_of_access ht hf h1 hi]
    exact ⟨iff_of_true rfl ht, fun a ha => ⟨imm, hi, (Option.some.inj ha).symm⟩⟩

/-! ## No `UNSPEC32` is consumed (48_executor.md R207) -/

/-- Two sets of ports agree on the ports the descriptor selects. -/
structure PortsAgree (d : Descriptor) (p p' : Ports) : Prop where
  src1 : d.src1.isSome = true → p.src1Val = p'.src1Val
  src2 : d.src2.isSome = true → p.src2Val = p'.src2Val
  csr : d.type = .csrr → p.csrVal = p'.csrVal

section
variable {u u' : UnspecUse → Word} {d : Descriptor} {p p' : Ports}

theorem aluOp_free {f : AluFunc} (hf : f ≠ .none) (free free' a b : Word) : aluOp f free a b = aluOp f free' a b := by
  cases f with
  | none => exact absurd rfl hf
  | _ => rfl

theorem PortsAgree.addr_eq (hp : PortsAgree d p p') (h : d.OutputShape) (ip : Word) :
    (execute u d ip p).addr = (execute u' d ip p').addr := by
  rcases h.addr_cases with ⟨hld, hst⟩ | ⟨ht, r, imm, hf, h1, hi⟩
  · rw [execute_addr_of_no_access hld hst, execute_addr_of_no_access hld hst]
  · rw [execute_addr_of_access ht hf h1 hi, execute_addr_of_access ht hf h1 hi, hp.src1 (by rw [h1]; rfl)]

theorem PortsAgree.nextIp_eq (hp : PortsAgree d p p') (h : d.NextAddressShape) (ip : Word) :
    (execute u d ip p).nextIp = (execute u' d ip p').nextIp := by
  cases h with
  | sequential hj hbr hjr _ => rw [execute_nextIp_of_sequential hj hbr hjr, execute_nextIp_of_sequential hj hbr hjr]
  | jump imm ht hf hi =>
    rw [execute_nextIp_of_j ht hi, execute_nextIp_of_j ht hi, hf]
    rfl
  | jumpRegister r imm ht hf h1 hi =>
    rw [execute_nextIp_of_jr ht hi, execute_nextIp_of_jr ht hi, hf, hp.src1 (by rw [h1]; rfl)]
    rfl
  | branch r r' imm ht h1 h2 hi =>
    rw [execute_nextIp_of_br u ip p ht hi, execute_nextIp_of_br u' ip p' ht hi, hp.src1 (by rw [h1]; rfl),
      hp.src2 (by rw [h2]; rfl)]

theorem PortsAgree.data_eq (hp : PortsAgree d p p') (h : d.OutputShape) (ip : Word) (hbr : d.type ≠ .br)
    (hun : d.type ≠ .unsupported) : (execute u d ip p).data = (execute u' d ip p').data := by
  cases h with
  | unconsumed ht => exact absurd ht (not_or.mpr ⟨hbr, hun⟩)
  | link ht => rcases ht with ht | ht <;> simp [execute_data, resultData, ht]
  | pcRelative imm ht hi => simp [execute_data, resultData, immOrFree, ht, hi]
  | csrRead ht => simpa [execute_data, resultData, ht] using hp.csr ht
  | csrWrite r ht h1 => simpa [execute_data, resultData, ht] using hp.src1 (by rw [h1]; rfl)
  | load r imm ht hf h1 hi =>
    rw [execute_data_of_result ip (.inr (.inl ht)), execute_data_of_result ip (.inr (.inl ht)), aluResult_of_imm h1 hi,
      aluResult_of_imm h1 hi, hp.src1 (by rw [h1]; rfl), hf]
    rfl
  | store r r' imm ht hf h1 h2 hi => simpa [execute_data, resultData, ht] using hp.src2 (by rw [h2]; rfl)
  | aluImm r imm ht hf h1 hi =>
    rw [execute_data_of_result ip (.inl ht), execute_data_of_result ip (.inl ht), aluResult_of_imm h1 hi,
      aluResult_of_imm h1 hi, hp.src1 (by rw [h1]; rfl)]
    exact aluOp_free hf _ _ _ _
  | aluReg r r' ht hf h1 h2 hi =>
    rw [execute_data_of_result ip (.inl ht), execute_data_of_result ip (.inl ht), aluResult_of_src2 h1 hi h2,
      aluResult_of_src2 h1 hi h2, hp.src1 (by rw [h1]; rfl), hp.src2 (by rw [h2]; rfl)]
    exact aluOp_free hf _ _ _ _

end

/-- Settles O40: each output by the shape of what `decode` produces. -/
theorem noConsumedOutputDependsOnUnspec : Obligations.NoConsumedOutputDependsOnUnspec := by
  intro u u' w ip p p' h1 h2 hcsr
  have hp : PortsAgree (coreDecode w) p p' := ⟨h1, h2, hcsr⟩
  exact ⟨hp.addr_eq (coreDecode_outputShape w) ip, hp.nextIp_eq (coreDecode_nextAddressShape w) ip,
    hp.data_eq (coreDecode_outputShape w) ip⟩

end Sys2Proof.Machine
end

section
/-! SUPPORT. The lookup-with-default primitive, the five tables, and the statements about them (48_executor.md R190 to
R192). -/

namespace Sys2Proof.Machine

/-! ## The primitive -/

section
variable {κ η : Type} [DecidableEq κ] {r : Registry κ η} {k k' : κ} {h h' : η}

theorem Registry.dispatch_of_find {e : κ × η} (hf : (r.entries.find? fun e => e.1 = k) = some e) :
    r.dispatch k = some e.2 := by
  rw [Registry.dispatch, hf]

theorem Registry.dispatch_of_absent (ha : ∀ e ∈ r.entries, e.1 ≠ k) : r.dispatch k = r.fallback := by
  have hf : (r.entries.find? fun e => e.1 = k) = none := List.find?_eq_none.mpr fun e he => by simpa using ha e he
  rw [Registry.dispatch, hf]

theorem Registry.dispatch_register_self : (r.register k h).dispatch k = some h :=
  Registry.dispatch_of_find (e := (k, h)) (List.find?_cons_of_pos (by simp))

theorem Registry.dispatch_unregister_self : (r.unregister k).dispatch k = r.fallback :=
  Registry.dispatch_of_absent fun _ he => of_decide_eq_true (List.mem_filter.mp he).2

/-- Filtering out one key leaves the lookup of another alone. -/
theorem find?_filter_other_key (hne : k' ≠ k) (l : List (κ × η)) :
    ((l.filter fun e => e.1 ≠ k).find? fun e => e.1 = k') = l.find? fun e => e.1 = k' := by
  rw [List.find?_filter]
  congr 1
  funext e
  by_cases he : e.1 = k'
  · simp [he, hne]
  · simp [he]

theorem Registry.dispatch_unregister_other (hne : k' ≠ k) : (r.unregister k).dispatch k' = r.dispatch k' := by
  rw [Registry.dispatch, Registry.unregister, find?_filter_other_key hne]
  rfl

theorem Registry.dispatch_register_other (hne : k' ≠ k) : (r.register k h).dispatch k' = r.dispatch k' := by
  have hskip : ((r.register k h).entries.find? fun e => e.1 = k') = (r.unregister k).entries.find? fun e => e.1 = k' :=
    List.find?_cons_of_neg (by simpa using hne.symm)
  rw [Registry.dispatch, hskip, ← Registry.dispatch_unregister_other hne]
  rfl

end

/-- Settles O41: lookup after each operation, for its key and for another; the default lies apart from the entries. -/
theorem registryContract : Obligations.RegistryContract := by
  intro κ η _ r k k' h h'
  refine ⟨Registry.dispatch_register_self, Registry.dispatch_register_other, Registry.dispatch_unregister_self,
    Registry.dispatch_unregister_other, rfl, ?defaulted, ?kept, rfl⟩
  case defaulted => exact Registry.dispatch_unregister_self (r := r.setDefault h)
  case kept => exact Registry.dispatch_register_self (r := r.setDefault h)

/-! ## The five tables -/

theorem builderRegistry_keys : ∀ k ∈ builderRegistry.entries.map Prod.fst, opcodeClass k ≠ .unknown := by
  decide

/-- An opcode's entry is the builder of its class; the other opcodes get the default. -/
theorem builderRegistry_dispatch (w : Word) :
    ∃ b, builderRegistry.dispatch (opcodeField w) = some b ∧ coreDecode w = (b w).normalizeDst := by
  cases hc : opcodeClass (opcodeField w) with
  | unknown =>
    have habsent : ∀ e ∈ builderRegistry.entries, e.1 ≠ opcodeField w := by
      rintro e he heq
      exact builderRegistry_keys e.1 (List.mem_map_of_mem he) (heq ▸ hc)
    exact ⟨_, Registry.dispatch_of_absent habsent, coreDecode_of_class hc⟩
  | _ =>
    refine ⟨_, ?_, coreDecode_of_class hc⟩
    rw [eq_of_opcodeClass rfl hc]
    rfl

/-- Settles O42: each table entry by entry of its key. -/
theorem registriesAreTheCaseFunctions : Obligations.RegistriesAreTheCaseFunctions := by
  refine ⟨builderRegistry_dispatch, fun f => ?alu, fun f => ?condition, fun d => ?result, fun d u ip p res => ?address⟩
  case alu => cases f <;> exact ⟨_, rfl, fun _ _ _ => rfl⟩
  case condition => cases f <;> exact ⟨_, rfl, fun _ _ => rfl⟩
  case result => cases ht : d.type <;> exact ⟨_, rfl, fun _ _ _ _ => by rw [resultData, ht]⟩
  case address => cases ht : d.type <;> rw [addressOverride, ht] <;> rfl

end Sys2Proof.Machine
end

section
/-! SUPPORT. The launch, the register file, the CSR file and memory, and the statements about them (10_state.md Part 2
and Part 4, 20_memory.md). -/

open Sys2Proof.Claims

namespace Sys2Proof.Machine

/-! ## The launch -/

section
variable {l : Launch}

theorem readReg_launch {r : RegIdx} (h : r ≠ 0#5) : (State.launch l).readReg r = l.regsInit[r.toNat]'r.isLt := by
  have hne : 0 ≠ r.toNat := fun e => h (BitVec.eq_of_toNat_eq e.symm)
  rw [State.readReg, if_neg h]
  exact Vector.getElem_set_ne (by omega) r.isLt hne

/-- A legal launch meets the invariant: the parameters are the invariant's own clauses. -/
theorem launch_inv (h : l.legal) : (State.launch l).inv := by
  obtain ⟨hbase, hsize, hsum, hmem, hrange, hcsr⟩ := h
  exact ⟨⟨hbase, hsize, hsum⟩, hmem, hrange, hcsr, Vector.getElem_set_self (by omega), .inl rfl⟩

end

/-- Settles O2: each field is a parameter, slot 0 apart. -/
theorem launchStateValues : Obligations.LaunchStateValues :=
  fun _ => ⟨rfl, rfl, fun _ h => readReg_launch h, fun _ => rfl, fun _ => rfl, rfl, rfl, rfl⟩

theorem launch_reset_legal : Launch.reset.legal :=
  ⟨rfl, rfl, le_rfl, ⟨.nil, nofun⟩, nofun, ⟨.nil, nofun⟩⟩

/-- Settles O1: the launch of the parameters `Launch.reset`, which are legal. -/
theorem resetStateValues : Obligations.ResetStateValues := by
  refine ⟨rfl, fun r => ?reg, fun _ => rfl, fun _ => rfl, rfl, rfl, rfl, launch_inv launch_reset_legal⟩
  case reg =>
    by_cases h : r = 0#5
    · rw [h]; rfl
    · exact (readReg_launch h).trans (Vector.getElem_replicate r.isLt)

/-! ## Registers and CSRs -/

/-- Settles O4: the reads after a write. -/
theorem registerFile : Obligations.RegisterFile :=
  fun _ _ _ => ⟨rfl, State.writeReg_zero, State.readReg_writeReg_self, fun _ => State.readReg_writeReg_other⟩

/-- Settles O5: the reads after a write, in a canonical file. -/
theorem csrFileIsPlainStorage : Obligations.CsrFileIsPlainStorage :=
  fun _ _ _ h => ⟨State.readCsr_writeCsr_self h, fun _ => State.readCsr_writeCsr_other, State.writeCsr_wf h⟩

/-! ## Memory -/

/-- Settles O6: an admitted word lies below the top of memory, which is no higher than that of the address space. -/
theorem admittedAccesses : Obligations.AdmittedAccesses := by
  intro s a ⟨_, _, hsum⟩
  refine ⟨State.admitted_iff, fun ha k hk => ?_⟩
  obtain ⟨hlo, hhi⟩ := State.admitted_iff.mp ha
  rw [State.byteAddr_toNat hsum ha hk]
  exact ⟨rfl, by omega, by omega⟩

section
variable (b0 b1 b2 b3 : Byte)

/-- The bytes of a word put together from bytes (20_memory.md R52). -/
theorem extractLsb'_wordOfBytes :
    b0 = (wordOfBytes b0 b1 b2 b3).extractLsb' 0 8 ∧ b1 = (wordOfBytes b0 b1 b2 b3).extractLsb' 8 8 ∧
      b2 = (wordOfBytes b0 b1 b2 b3).extractLsb' 16 8 ∧ b3 = (wordOfBytes b0 b1 b2 b3).extractLsb' 24 8 := by
  refine ⟨?_, ?_, ?_, ?_⟩
  · exact BitVec.extractLsb'_append_eq_right.symm
  · rw [wordOfBytes, BitVec.extractLsb'_append_eq_of_le (by omega)]
    exact BitVec.extractLsb'_append_eq_right.symm
  · rw [wordOfBytes, BitVec.extractLsb'_append_eq_of_le (by omega), BitVec.extractLsb'_append_eq_of_le (by omega)]
    exact BitVec.extractLsb'_append_eq_right.symm
  · rw [wordOfBytes, BitVec.extractLsb'_append_eq_of_le (by omega), BitVec.extractLsb'_append_eq_of_le (by omega)]
    exact BitVec.extractLsb'_append_eq_left.symm

/-- Joining puts the right operand below the left one. -/
theorem toNat_append_eq_add {m n : Nat} (x : BitVec m) (y : BitVec n) :
    (x ++ y).toNat = x.toNat * 2 ^ n + y.toNat := by
  rw [BitVec.toNat_append, ← Nat.shiftLeft_add_eq_or_of_lt y.isLt, Nat.shiftLeft_eq]

theorem toNat_wordOfBytes :
    (wordOfBytes b0 b1 b2 b3).toNat = b0.toNat + 256 * b1.toNat + 65536 * b2.toNat + 16777216 * b3.toNat := by
  rw [wordOfBytes, toNat_append_eq_add, toNat_append_eq_add, toNat_append_eq_add]
  omega

end

/-- Settles O7: the word read is the word of the four bytes. -/
theorem memReadIsLittleEndian : Obligations.MemReadIsLittleEndian :=
  fun _ _ => ⟨extractLsb'_wordOfBytes .., toNat_wordOfBytes ..⟩

/-- Settles O8: the bytes of a stored word and the bytes outside it. -/
theorem memWriteIsLittleEndian : Obligations.MemWriteIsLittleEndian :=
  fun _ _ _ h => ⟨holdsWord_memWrite h, State.memRead_memWrite_self h,
    fun _ hb => State.readByte_memWrite_other (outsideWord_ne_byteAddr hb), State.memWrite_wf h⟩

theorem memRead_congr {s t : State} {a : Word} (h : ∀ k < 4, t.readByte (byteAddr a k) = s.readByte (byteAddr a k)) :
    t.memRead a = s.memRead a := by
  have h0 := h 0 (by omega)
  rw [byteAddr_zero] at h0
  rw [State.memRead, State.memRead, h0, h 1 (by omega), h 2 (by omega), h 3 (by omega)]

theorem toNat_mod_four {a : Word} (h : multipleOf4 a) : a.toNat % 4 = 0 := by
  have hnat := congrArg BitVec.toNat h
  rwa [BitVec.extractLsb'_toNat, Nat.shiftRight_zero] at hnat

/-- A byte of an aligned word is above its address with no wrap-around. -/
theorem byteAddr_toNat_of_multipleOf4 {a : Word} (h : multipleOf4 a) {k : Nat} (hk : k < 4) :
    (byteAddr a k).toNat = a.toNat + k := by
  have ha := toNat_mod_four h
  have hlt := a.isLt
  rw [byteAddr, BitVec.toNat_add, BitVec.toNat_ofNat]
  omega

/-- Settles O9: two multiples of 4 that differ are at least 4 apart. -/
theorem alignedWordsDoNotOverlap : Obligations.AlignedWordsDoNotOverlap := by
  intro s a b v ha hb hne
  refine memRead_congr fun j hj => State.readByte_memWrite_other fun k hk heq => hne ?_
  have hnat := congrArg BitVec.toNat heq
  rw [byteAddr_toNat_of_multipleOf4 hb hj, byteAddr_toNat_of_multipleOf4 ha hk] at hnat
  have ha4 := toNat_mod_four ha
  have hb4 := toNat_mod_four hb
  exact BitVec.eq_of_toNat_eq (by omega)

end Sys2Proof.Machine
end

section
/-! SUPPORT. The Lui and Auipc classes, the forms of a class that have no meaning, the long pseudo-instructions, and
the statements about them (42_upper_immediate.md, 44_branch.md to 46_system_csr.md, 30_encoding.md R104). -/

open Sys2Proof.Claims

namespace Sys2Proof.Machine

/-! ## LUI and AUIPC -/

theorem upperImm_immUField (w : Word) : upperImm (immUField w) = w &&& 0xFFFFF000#32 := (immU_eq w).symm

theorem exec_lui (rd : RegIdx) (imm20 : BitVec 20) (s : State) :
    exec (.lui rd imm20) s = .next ((s.writeReg rd (upperImm imm20)).setPc (s.pc + 4#32)) :=
  execBuilt_lui s rd (upperImm imm20)

theorem exec_auipc (rd : RegIdx) (imm20 : BitVec 20) (s : State) :
    exec (.auipc rd imm20) s = .next ((s.writeReg rd (s.pc + upperImm imm20)).setPc (s.pc + 4#32)) :=
  execBuilt_auipc s rd (upperImm imm20)

/-- Settles O49: the decoders by the opcode alone, the effects as one register write. -/
theorem upperImmediates : Obligations.UpperImmediates := by
  refine ⟨?word, ?luiRow, ?auipcRow, ?effect⟩
  case word => exact fun rd imm20 => ⟨Laws.RoundTrip.lui rd imm20 rfl, Laws.RoundTrip.auipc rd imm20 rfl⟩
  case luiRow =>
    intro w hw
    have ho : opcodeField w = 0x37#7 := opcodeField_of_opcode_row hw
    have hcore := coreDecode_lui ho
    rw [upperImm_immUField] at hcore
    refine ⟨decodeWord_lui ho, hcore, fun u ip p => ?_⟩
    rw [hcore]
    rfl
  case auipcRow =>
    intro w hw
    have ho : opcodeField w = 0x17#7 := opcodeField_of_opcode_row hw
    have hcore := coreDecode_auipc ho
    rw [upperImm_immUField] at hcore
    refine ⟨decodeWord_auipc ho, hcore, fun u ip p => ?_⟩
    rw [hcore]
    rfl
  case effect =>
    exact fun rd imm20 s => ⟨writesReg_of_exec_eq (exec_lui rd imm20 s), writesReg_of_exec_eq (exec_auipc rd imm20 s)⟩

/-! ## The forms of a class that have no meaning -/

/-- The descriptor of a Branch word that has no branch function (44_branch.md R158). -/
theorem coreDecode_branch_unsupported {w : Word} (ho : opcodeField w = 0x63#7)
    (h3 : funct3Field w = 0b010#3 ∨ funct3Field w = 0b011#3) :
    coreDecode w =
      { type := .unsupported, aluFunc := .none, brFunc := .neverTaken, dst := none, src1 := some (rs1Field w),
        src2 := some (rs2Field w), imm := some (sextB w), csr := none } := by
  have hb : builder (opcodeClass (opcodeField w)) w = branchBuilder none (rs1Field w) (rs2Field w) (sextB w) := by
    rw [ho, ← (brFuncOf_eq_none_iff (funct3Field w)).mpr h3]
    exact congrArg (branchBuilder _ (rs1Field w) (rs2Field w)) (immB_eq w)
  rw [coreDecode, hb]
  rfl

/-- Settles O55: the decoders by the class and the form, the effect as the one fault of every unsupported
instruction. -/
theorem unsupportedFormsOfAClass : Obligations.UnsupportedFormsOfAClass := by
  refine ⟨fun w hw h3 => ?load, fun w hw h3 => ?store, fun w hw hcsrw hcsrr => ?system, fun w hw => ?branch, ?effect⟩
  case load =>
    have ho : opcodeField w = 0x03#7 := opcodeField_of_opcode_row hw
    have hcore := coreDecode_load ho (beq_false_of_ne h3)
    refine ⟨(decodeWord_load ho).trans (decodeLoad_unsupported h3), hcore, fun u ip p => ?_⟩
    rw [hcore]
    rfl
  case store =>
    have ho : opcodeField w = 0x23#7 := opcodeField_of_opcode_row hw
    have hcore := coreDecode_store ho (beq_false_of_ne h3)
    refine ⟨(decodeWord_store ho).trans (decodeStore_unsupported h3), hcore, fun u ip p => ?_⟩
    rw [hcore]
    rfl
  case system =>
    have ho : opcodeField w = 0x73#7 := opcodeField_of_opcode_row hw
    have hcore := coreDecode_system ho ((systemType_eq_unsupported_iff w).mpr ⟨hcsrw, hcsrr⟩)
    refine ⟨(decodeWord_system ho).trans (decodeSystem_unsupported hcsrw hcsrr), hcore, fun u ip p => ?_⟩
    rw [hcore]
    rfl
  case branch =>
    obtain ⟨ho, h3⟩ := (row_branch_iff w).mp (beq_iff_eq.mpr hw)
    have hcore := coreDecode_branch_unsupported ho h3
    refine ⟨(decodeWord_branch ho).trans (decodeBranch_unsupported h3), hcore, fun u ip p => ?_⟩
    rw [hcore]
    rfl
  case effect =>
    exact fun w s => ⟨faults_of_exec_eq rfl, faults_of_exec_eq rfl, faults_of_exec_eq rfl, faults_of_exec_eq rfl⟩

/-! ## The long pseudo-instructions -/

/-- A word whose low twelve bits are 0 is its upper twenty bits joined with zeros. -/
theorem upperImm_extractLsb' {x : Word} (h : x.toNat % 4096 = 0) : upperImm ((x >>> 12).extractLsb' 0 20) = x := by
  apply BitVec.eq_of_toNat_eq
  have hlt := x.isLt
  rw [upperImm, toNat_append_eq_add, BitVec.extractLsb'_toNat, BitVec.toNat_ushiftRight, Nat.shiftRight_zero,
    Nat.shiftRight_eq_div_pow, BitVec.toNat_ofNat]
  omega

theorem toNat_signExtend_lo12_mod (imm : Word) : ((lo12 imm).signExtend 32).toNat % 4096 = imm.toNat % 4096 := by
  have hfield : ((lo12 imm).signExtend 32).extractLsb' 0 12 = imm.extractLsb' 0 12 := by
    rw [extractLsb'_signExtend _ (by omega) (by omega), BitVec.extractLsb'_eq_self, lo12]
  have hnat := congrArg BitVec.toNat hfield
  rwa [BitVec.extractLsb'_toNat, BitVec.extractLsb'_toNat, Nat.shiftRight_zero, Nat.shiftRight_zero] at hnat

/-- The two halves of a 32-bit value add up to it: `hi20` is taken after the sign of `lo12` (30_encoding.md R104). -/
theorem upperImm_hi20_add_lo12 (imm : Word) : upperImm (hi20 imm) + (lo12 imm).signExtend 32 = imm := by
  have hmod : (imm - (lo12 imm).signExtend 32).toNat % 4096 = 0 := by
    have hlo := toNat_signExtend_lo12_mod imm
    have hlt := ((lo12 imm).signExtend 32).isLt
    rw [BitVec.toNat_sub]
    omega
  rw [hi20, upperImm_extractLsb' hmod, BitVec.sub_add_cancel]

theorem exec_addi (rd rs1 : RegIdx) (imm : BitVec 12) (s : State) :
    exec (.addi rd rs1 imm) s = .next ((s.writeReg rd (s.readReg rs1 + imm.signExtend 32)).setPc (s.pc + 4#32)) :=
  execBuilt_opImm s rd rs1 (imm.signExtend 32) .add

theorem storageKept_trans {s m t : State} (h : storageKept s m) (h' : storageKept m t) : storageKept s t := by
  obtain ⟨hcsr, hbyte, hbase, hsize, hmark⟩ := h
  obtain ⟨hcsr', hbyte', hbase', hsize', hmark'⟩ := h'
  exact ⟨fun c => (hcsr' c).trans (hcsr c), fun a => (hbyte' a).trans (hbyte a), hbase'.trans hbase,
    hsize'.trans hsize, hmark'.trans hmark⟩

/-- Two instructions, the first leaving a value in a register for the second: both complete, and no register but their
two destinations changes. -/
theorem runs_pair_of_writesReg {s : State} {i j : Instr} {r rd : RegIdx} {v v' next : Word} (hr : r ≠ 0#5)
    (hi : writesReg i s r v (s.pc + 4#32))
    (hj : ∀ m : State, m.pc = s.pc + 4#32 → m.readReg r = v → writesReg j m rd v' next) :
    ∃ t, runs [i, j] s t ∧ t.pc = next ∧ (rd ≠ 0#5 → t.readReg rd = v') ∧
      (∀ q, q ≠ r → q ≠ rd ∨ q = 0#5 → t.readReg q = s.readReg q) ∧ storageKept s t := by
  obtain ⟨m, hm, hpc, hv, hframe, hkept⟩ := hi
  obtain ⟨t, ht, hpc', hv', hframe', hkept'⟩ := hj m hpc (hv hr)
  exact ⟨t, ⟨m, hm, t, ht, rfl⟩, hpc', hv', fun q hq hq' => (hframe' q hq').trans (hframe q (.inl hq)),
    storageKept_trans hkept hkept'⟩

theorem pc_add_four_add_four (pc : Word) : pc + 4#32 + 4#32 = pc + 8#32 := BitVec.add_assoc pc 4#32 4#32

/-- `auipc r, hi20(off)` and `jalr rd, r, lo12(off)` jump by `off`; the link is the address after the pair. -/
theorem runs_auipc_jalr (s : State) {r : RegIdx} (hr : r ≠ 0#5) (rd : RegIdx) (off : Word) :
    ∃ t, runs [.auipc r (hi20 off), .jalr rd r (lo12 off)] s t ∧ t.pc = s.pc + off ∧
      (rd ≠ 0#5 → t.readReg rd = s.pc + 8#32) ∧
      (∀ q, q ≠ r → q ≠ rd ∨ q = 0#5 → t.readReg q = s.readReg q) ∧ storageKept s t := by
  refine runs_pair_of_writesReg hr (writesReg_of_exec_eq (exec_auipc r (hi20 off) s)) fun m hpc hv => ?_
  have h := writesReg_jalr rd r (lo12 off) m
  rwa [hpc, hv, pc_add_four_add_four, BitVec.add_assoc, upperImm_hi20_add_lo12] at h

/-- Settles O57: each pair is an upper immediate and the instruction that adds the lower half to it. -/
theorem longPseudoInstructions : Obligations.LongPseudoInstructions := by
  refine ⟨fun s rd imm hrd => ?li, fun s off => ?call, fun s off => ?tail⟩
  case li =>
    have haddi : ∀ m : State, m.pc = s.pc + 4#32 → m.readReg rd = upperImm (hi20 imm) →
        writesReg (.addi rd rd (lo12 imm)) m rd imm (s.pc + 8#32) := by
      intro m hpc hv
      have h := writesReg_of_exec_eq (exec_addi rd rd (lo12 imm) m)
      rwa [hpc, hv, pc_add_four_add_four, upperImm_hi20_add_lo12] at h
    obtain ⟨t, ht, hpc, hv, hframe, hkept⟩ :=
      runs_pair_of_writesReg hrd (writesReg_of_exec_eq (exec_lui rd (hi20 imm) s)) haddi
    exact ⟨t, ht, hv hrd, hpc, fun q hq => hframe q hq (.inl hq), hkept⟩
  case call =>
    obtain ⟨t, ht, hpc, hv, hframe, hkept⟩ := runs_auipc_jalr s (r := 1#5) (by decide) 1#5 off
    exact ⟨t, ht, hpc, hv (by decide), fun q hq => hframe q hq (.inl hq), hkept⟩
  case tail =>
    obtain ⟨t, ht, hpc, -, hframe, hkept⟩ := runs_auipc_jalr s (r := 6#5) (by decide) 0#5 off
    exact ⟨t, ht, hpc, fun q hq => hframe q hq (Decidable.ne_or_eq q 0#5), hkept⟩

end Sys2Proof.Machine
end

section
/-! SUPPORT. The step: the fetch and its faults, the fault that is due, what a completed instruction leaves, and the
invariant (10_state.md R42, 60_exceptions.md R232 to R236). -/

open Sys2Proof.Claims

namespace Sys2Proof.Machine

/-! ## The fetch -/

section
variable {s : State}

theorem step_of_faultMark {f : Fault} (h : s.faultMark = some f) : step s = .fault f := by
  rw [step, h]

theorem step_of_pc_not_in_memory (hf : s.faultMark = none) (hpc : multipleOf4 s.pc) (hm : ¬ inMemory s s.pc) :
    step s = .next (s.raise (.fetchAccess s.pc)) := by
  have ha : aligned s.pc = true := aligned_iff.mpr hpc
  have hm' : s.admitted s.pc 4 = false := Bool.eq_false_iff.mpr (mt State.admitted_iff.mp hm)
  simpa [hf, ha, hm'] using step_cases s

/-- A running state whose `pc` is good runs the word there. -/
theorem step_of_fetch (hf : s.faultMark = none) (hpc : multipleOf4 s.pc) (hm : inMemory s s.pc) :
    step s = exec (decodeWord (s.memRead s.pc)) s := by
  have ha : aligned s.pc = true := aligned_iff.mpr hpc
  have hm' : s.admitted s.pc 4 = true := State.admitted_iff.mpr hm
  simpa [hf, ha, hm'] using step_cases s

end

/-- Settles O14: the two checks before the fetch, in their order. -/
theorem fetchFaults : Obligations.FetchFaults :=
  fun _ hf => ⟨step_of_misaligned_pc hf, step_of_pc_not_in_memory hf⟩

/-- Settles O10: the bytes at `pc` are those of the word the step fetches. -/
theorem stepRunsDecodedInstruction : Obligations.StepRunsDecodedInstruction := by
  intro s i rest hf hpc hm _ hbytes
  have hword : decodeWord (s.memRead s.pc) = i := congrArg Prod.fst (Except.ok.inj hbytes)
  rw [step_of_fetch hf hpc hm, hword]

/-- Settles O3: the launch state meets the invariant, and its first step is decided by its `pc`. -/
theorem legalLaunchBootsOrFaults : Obligations.LegalLaunchBootsOrFaults := by
  refine fun l hl => ⟨launch_inv hl, fun hpc hm => step_of_fetch (s := State.launch l) rfl hpc hm, fun hbad => ?_⟩
  by_cases hpc : multipleOf4 l.resetPc
  · exact .inr (step_of_pc_not_in_memory (s := State.launch l) rfl hpc fun hm => hbad ⟨hpc, hm⟩)
  · exact .inl (step_of_misaligned_pc (s := State.launch l) rfl hpc)

/-! ## The meaning of a word, and CORE's type of it -/

/-- A word either decodes to an instruction that executes, and has a type that does; or the instruction carries it, and
its type is `Unsupported` (30_encoding.md R100). -/
theorem decodeWord_meaning (w : Word) :
    (unsupportedWord (decodeWord w) = none ∧ (coreDecode w).type ≠ .unsupported) ∨
    (unsupportedWord (decodeWord w) = some w ∧ (coreDecode w).type = .unsupported) := by
  have h := decodesAs_decodeWord w
  generalize decodeWord w = i at h ⊢
  have hcore := h.coreDecode_eq
  cases h with
  | unsupportedBranch ho h3 => exact .inr ⟨rfl, by rw [coreDecode_branch_unsupported ho h3]⟩
  | unsupportedLoad ho h3 => exact .inr ⟨rfl, by rw [coreDecode_load ho (beq_false_of_ne h3)]; rfl⟩
  | unsupportedStore ho h3 => exact .inr ⟨rfl, by rw [coreDecode_store ho (beq_false_of_ne h3)]; rfl⟩
  | unsupportedSystem ho hw hr =>
    exact .inr ⟨rfl, by rw [coreDecode_system ho ((systemType_eq_unsupported_iff w).mpr ⟨hw, hr⟩)]⟩
  | unsupportedMiscMem ho => exact .inr ⟨rfl, coreDecode_type_of_class (c := .miscMem) (by rw [ho]; rfl)⟩
  | unsupportedAmo ho => exact .inr ⟨rfl, coreDecode_type_of_class (c := .amo) (by rw [ho]; rfl)⟩
  | unsupportedUnknown hc => exact .inr ⟨rfl, coreDecode_type_of_class hc⟩
  | _ =>
    refine .inl ⟨rfl, ?_⟩
    rw [hcore, normalizeDst_type]
    exact descriptorOf_type_ne rfl

theorem exec_of_unsupportedWord {i : Instr} {w : Word} (h : unsupportedWord i = some w) (s : State) :
    exec i s = execUnsupported w s := by
  cases i with
  | unsupportedBranch | unsupportedLoad | unsupportedStore | unsupportedSystem | unsupportedMiscMem
  | unsupportedAmo | unsupportedUnknown => cases h; rfl
  | _ => cases h

/-! ## The cycle over CORE's `decode` and `execute` -/

theorem dataFault_congr {e e' : Executed} (h : e.addr = e'.addr) (s : State) : dataFault e s = dataFault e' s := by
  rw [dataFault, dataFault, h]

/-- A branch writes back nothing, so its `data` does not count (44_branch.md R151). -/
theorem retire_of_branch {d : Descriptor} (ht : d.type = .br) (hd : d.dst = none) (e : Executed) (s : State) :
    retire d e s = s.setPc e.nextIp := by
  simp [retire, dstStep, csrStep, storeStep, ht, hd]

/-- Of the instructions that execute, a branch has no destination, and the CSR read has its index. -/
theorem descriptorOf_br_csrr {i : Instr} (h : unsupportedWord i = none) :
    ((descriptorOf i).type = .br → (descriptorOf i).dst = none) ∧
      ((descriptorOf i).type = .csrr → (descriptorOf i).csr.isSome = true) := by
  cases i with
  | unsupportedBranch | unsupportedLoad | unsupportedStore | unsupportedSystem | unsupportedMiscMem
  | unsupportedAmo | unsupportedUnknown => cases h
  | beq | bne | blt | bge | bltu | bgeu => exact ⟨fun _ => rfl, nofun⟩
  | csrr => exact ⟨nofun, fun _ => rfl⟩
  | _ => exact ⟨nofun, nofun⟩

theorem coreDecode_br_csrr {w : Word} (hw : unsupportedWord (decodeWord w) = none) :
    ((coreDecode w).type = .br → (coreDecode w).dst = none) ∧
      ((coreDecode w).type = .csrr → (coreDecode w).csr.isSome = true) := by
  obtain ⟨hdst, hcsr⟩ := descriptorOf_br_csrr hw
  rw [coreDecode_eq_descriptorOf, normalizeDst_type, normalizeDst_csr]
  exact ⟨fun ht => normalizeDst_dst_of_none (hdst ht), hcsr⟩

/-- The ports ENV fills for two choices of the `UNSPEC32` words differ only where the selector is absent. -/
theorem readPorts_agree (u u' : UnspecUse → Word) {d : Descriptor} (hcsr : d.type = .csrr → d.csr.isSome = true)
    (s : State) : PortsAgree d (readPorts u d s) (readPorts u' d s) := by
  refine ⟨fun h => ?_, fun h => ?_, fun ht => ?_⟩
  · obtain ⟨r, hr⟩ := Option.isSome_iff_exists.mp h
    simp [readPorts, readSource, hr]
  · obtain ⟨r, hr⟩ := Option.isSome_iff_exists.mp h
    simp [readPorts, readSource, hr]
  · obtain ⟨c, hc⟩ := Option.isSome_iff_exists.mp (hcsr ht)
    simp [readPorts, readCsrPort, ht, hc]

theorem executed_eq {e e' : Executed} (haddr : e.addr = e'.addr) (hdata : e.data = e'.data)
    (hnext : e.nextIp = e'.nextIp) : e = e' := by
  cases e
  cases e'
  cases haddr
  cases hdata
  cases hnext
  rfl

/-- Steps 6 to 13 are the same whatever words stand for `UNSPEC32`: no output that depends on one is consumed. -/
theorem runDescriptor_coreDecode_free {w : Word} (hw : unsupportedWord (decodeWord w) = none)
    (htype : (coreDecode w).type ≠ .unsupported) (u u' : UnspecUse → Word) (s : State) :
    runDescriptor u (coreDecode w) s = runDescriptor u' (coreDecode w) s := by
  obtain ⟨hdst, hcsr⟩ := coreDecode_br_csrr hw
  have hp := readPorts_agree u u' hcsr s
  have haddr := hp.addr_eq (u := u) (u' := u') (coreDecode_outputShape w) s.pc
  have hnext := hp.nextIp_eq (u := u) (u' := u') (coreDecode_nextAddressShape w) s.pc
  have hretire : retire (coreDecode w) (execute u (coreDecode w) s.pc (readPorts u (coreDecode w) s)) s =
      retire (coreDecode w) (execute u' (coreDecode w) s.pc (readPorts u' (coreDecode w) s)) s := by
    by_cases hbr : (coreDecode w).type = .br
    · rw [retire_of_branch hbr (hdst hbr), retire_of_branch hbr (hdst hbr), hnext]
    · have hdata := hp.data_eq (u := u) (u' := u') (coreDecode_outputShape w) s.pc hbr htype
      exact congrArg (retire _ · s) (executed_eq haddr hdata hnext)
  rw [runDescriptor, runDescriptor, dataFault_congr haddr, hretire]

/-- The meaning of a decoded word is steps 5 to 13 of the cycle over CORE's `decode`. -/
theorem exec_decodeWord (u : UnspecUse → Word) (w : Word) (s : State) :
    exec (decodeWord w) s =
      if (coreDecode w).type = .unsupported then .next (s.raise (.unsupportedInstruction s.pc w))
      else runDescriptor u (coreDecode w) s := by
  rcases decodeWord_meaning w with ⟨hw, ht⟩ | ⟨hw, ht⟩
  · rw [if_neg ht, exec_eq_execBuilt hw, execBuilt, ← coreDecode_eq_descriptorOf]
    exact runDescriptor_coreDecode_free hw ht _ _ s
  · rw [if_pos ht, exec_of_unsupportedWord hw]
    rfl

/-- Settles O11: a mark and the two checks before the fetch stop both alike, and a fetched word does the same in both. -/
theorem stepIsTheInstructionCycle : Obligations.StepIsTheInstructionCycle := by
  intro u s
  rcases step_cases s with ⟨f, hf, h⟩ | ⟨hf, ha, h⟩ | ⟨hf, ha, hm, h⟩ | ⟨hf, ha, hm, h⟩
  · rw [h, instructionCycle, hf]
  · simp only [h, instructionCycle, hf, ha, Bool.not_false, if_true]
  · simp only [h, instructionCycle, hf, ha, hm, Bool.not_true, Bool.not_false, Bool.false_eq_true, if_true, if_false]
  · simp only [h, exec_decodeWord u, instructionCycle, hf, ha, hm, Bool.not_true, Bool.false_eq_true, if_false]

/-! ## The fault that is due, and what a completed instruction leaves -/

/-- What an instruction that completes can leave: a register written and `pc` moved, or a word stored where the access
is good, or a CSR written. -/
inductive Completed (s : State) : Instr → State → Prop
  | register (i : Instr) (rd : RegIdx) (v next : Word) : Completed s i ((s.writeReg rd v).setPc next)
  | store (rs1 rs2 : RegIdx) (imm : BitVec 12) (hm : s.admitted (s.readReg rs1 + imm.signExtend 32) 4 = true) :
      Completed s (.sw rs1 rs2 imm)
        ((s.memWrite (s.readReg rs1 + imm.signExtend 32) (s.readReg rs2)).setPc (s.pc + 4#32))
  | csr (c : CsrIdx) (rs1 : RegIdx) :
      Completed s (.csrw c rs1) ((s.writeCsr c (s.readReg rs1)).setPc (s.pc + 4#32))

section
variable {s t : State}

/-- A step of a running state raises the fault that is due, or none is due and the instruction completes. -/
theorem step_running_cases (hf : s.faultMark = none) :
    (∃ f, s.dueFault = some f ∧ step s = .next (s.raise f)) ∨
    (s.dueFault = none ∧ ∃ t, step s = .next t ∧ Completed s (decodeWord (s.memRead s.pc)) t) := by
  rcases step_cases s with ⟨f, hf', _⟩ | ⟨_, ha, h⟩ | ⟨_, ha, hm, h⟩ | ⟨_, ha, hm, h⟩
  · cases hf.symm.trans hf'
  · exact .inl ⟨_, by simp [State.dueFault, ha], h⟩
  · exact .inl ⟨_, by simp [State.dueFault, ha, hm], h⟩
  rw [h]
  rcases exec_effect s (decodeWord (s.memRead s.pc)) with
    ⟨w, hw, he⟩ | ⟨hw, a, hd, ⟨hda, he⟩ | ⟨hda, hdm, he⟩⟩ | ⟨hw, hd, he⟩
  · rcases decodeWord_meaning (s.memRead s.pc) with ⟨hw', -⟩ | ⟨hw', ht⟩
    · cases hw.symm.trans hw'
    · cases hw.symm.trans hw'
      exact .inl ⟨_, by simp [State.dueFault, ha, hm, ht], he⟩
  all_goals
    have ht : (coreDecode (s.memRead s.pc)).type ≠ .unsupported := by
      rcases decodeWord_meaning (s.memRead s.pc) with ⟨-, ht⟩ | ⟨hw', -⟩
      · exact ht
      · cases hw.symm.trans hw'
  · exact .inl ⟨_, by simp [State.dueFault, ha, hm, ht, hd, hda], he⟩
  · exact .inl ⟨_, by simp [State.dueFault, ha, hm, ht, hd, hda, hdm], he⟩
  · have hnone : s.dueFault = none := by
      cases hda : s.dataAddr (decodeWord (s.memRead s.pc)) with
      | none => simp [State.dueFault, ha, hm, ht, hda]
      | some a =>
        obtain ⟨hal, hadm⟩ := hd a hda
        simp [State.dueFault, ha, hm, ht, hda, hal, hadm]
    rcases he with ⟨rd, v, next, he⟩ | ⟨rs1, rs2, imm, hi, he⟩ | ⟨c, rs1, hi, he⟩
    · exact .inr ⟨hnone, _, he, .register _ rd v next⟩
    · obtain ⟨-, hadm⟩ := hd (s.readReg rs1 + imm.signExtend 32) (by rw [hi]; rfl)
      exact .inr ⟨hnone, _, he, hi ▸ .store rs1 rs2 imm hadm⟩
    · exact .inr ⟨hnone, _, he, hi ▸ .csr c rs1⟩

theorem Completed.faultMark_eq {i : Instr} (h : Completed s i t) : t.faultMark = s.faultMark := by
  cases h <;> simp

end

/-- Settles O15: a due fault is raised precisely; with none due the instruction completes, which leaves the mark
absent. -/
theorem stepRaisesTheDueFault : Obligations.StepRaisesTheDueFault := by
  intro s hf
  rcases step_running_cases hf with ⟨f, hdue, h⟩ | ⟨hdue, t, h, hc⟩
  · exact ⟨_, h, hdue.symm, fun f' hf' => by rw [Option.some.inj (hdue.symm.trans hf')]; rfl⟩
  · exact ⟨t, h, by rw [hc.faultMark_eq, hf, hdue], fun f hf' => by cases hdue.symm.trans hf'⟩

/-- Settles O13: every way an instruction ends is a next state; a mark stops the first step of a run. -/
theorem runningStepsAndFaultedIsTerminal : Obligations.RunningStepsAndFaultedIsTerminal := by
  refine ⟨fun i s => ?exec, fun s hf => ?running, fun s f k hf => core_run_fault k (step_of_faultMark hf)⟩
  case exec =>
    rcases exec_effect s i with ⟨_, _, h⟩ | ⟨_, _, _, ⟨_, h⟩ | ⟨_, _, h⟩⟩ |
      ⟨_, _, ⟨_, _, _, h⟩ | ⟨_, _, _, _, h⟩ | ⟨_, _, _, h⟩⟩ <;> exact ⟨_, h⟩
  case running =>
    obtain ⟨t, h, -⟩ := stepRaisesTheDueFault s hf
    exact ⟨t, h⟩

/-! ## The invariant -/

section
variable {s t : State}

theorem inv_raise {f : Fault} (h : s.inv) (hdue : s.dueFault = some f) : (s.raise f).inv := by
  obtain ⟨hparams, hmem, hrange, hcsr, hslot, -⟩ := h
  exact ⟨hparams, hmem, hrange, hcsr, hslot, .inr hdue.symm⟩

/-- A stored word lists bytes of admitted addresses only (20_memory.md R51). -/
theorem memInRange_memWrite {a v : Word} (hsum : s.memBase + s.memSize ≤ 2 ^ 32) (hm : s.admitted a 4 = true)
    (hrange : s.memInRange) : (s.memWrite a v).memInRange := by
  intro c hc
  rcases State.mem_memWrite hc with hc | ⟨k, hk, hck⟩
  · exact hrange c hc
  · obtain ⟨hlo, hhi⟩ := State.admitted_iff.mp hm
    rw [hck, State.byteAddr_toNat hsum hm hk, State.memWrite_memBase, State.memWrite_memSize]
    exact ⟨by omega, by omega⟩

theorem Completed.inv {i : Instr} (hc : Completed s i t) (hf : s.faultMark = none) (h : s.inv) : t.inv := by
  have hmark := hc.faultMark_eq.trans hf
  obtain ⟨hparams, hmem, hrange, hcsr, hslot, -⟩ := h
  cases hc with
  | register rd v next =>
    refine ⟨?_, ?_, ?_, ?_, State.writeReg_slotZero.trans hslot, .inl hmark⟩
    · simpa [State.legalParams] using hparams
    · simpa using hmem
    · simpa [State.memInRange] using hrange
    · simpa using hcsr
  | store rs1 rs2 imm hm =>
    obtain ⟨hbase, hsize, hsum⟩ := hparams
    exact ⟨⟨hbase, hsize, hsum⟩, State.memWrite_wf hmem, memInRange_memWrite hsum hm hrange, hcsr, hslot, .inl hmark⟩
  | csr c rs1 => exact ⟨hparams, hmem, hrange, State.writeCsr_wf hcsr, hslot, .inl hmark⟩

end

/-- Settles O12: a step raises the fault that is due, which the mark then is; or completes an instruction, each of
whose effects keeps the clauses. -/
theorem everyStepKeepsTheInvariant : Obligations.EveryStepKeepsTheInvariant := by
  intro s t hinv hstep
  cases hf : s.faultMark with
  | some f => cases (step_of_faultMark hf).symm.trans hstep
  | none =>
    rcases step_running_cases hf with ⟨f, hdue, h⟩ | ⟨-, t', h, hc⟩
    · cases h.symm.trans hstep
      exact inv_raise hinv hdue
    · cases h.symm.trans hstep
      exact hc.inv hf hinv

end Sys2Proof.Machine
end

section
/-! SUPPORT. What a step may change, and the statements about two steps or more: the parked program, a stored word
fetched or loaded, a CSR read back, and a bad target (10_state.md R42, 20_memory.md sections 2 and 3,
70_reset_and_hazards.md sections 3 and 4). -/

open Sys2Proof.Claims

namespace Sys2Proof.Machine

/-! ## What a step may change -/

section
variable {s t : State} {d : Descriptor} {e : Executed} {r : RegIdx}

theorem readReg_storeStep : (storeStep d e s).readReg r = s.readReg r := by
  unfold storeStep; split <;> rfl

theorem readReg_csrStep : (csrStep d e s).readReg r = s.readReg r := by
  unfold csrStep; split <;> rfl

theorem readReg_dstStep {v : Word} (h : d.dst ≠ some r) : (dstStep d v s).readReg r = s.readReg r := by
  unfold dstStep
  split
  · next rd hd => exact State.readReg_writeReg_other fun he => h (by rw [hd, he])
  · rfl

/-- Of steps 9 to 13 only the write-back changes a register, and only the destination (10_state.md R31). -/
theorem readReg_retire (h : d.dst ≠ some r) : (retire d e s).readReg r = s.readReg r := by
  rw [retire, State.readReg_setPc, readReg_dstStep h, readReg_csrStep, readReg_storeStep]

theorem readReg_of_runDescriptor {u : UnspecUse → Word} (h : runDescriptor u d s = .next t) (hd : d.dst ≠ some r) :
    t.readReg r = s.readReg r := by
  rcases runDescriptor_cases s u d with ⟨f, -, hr⟩ | ⟨-, hr⟩
  · cases hr.symm.trans h
    rfl
  · cases hr.symm.trans h
    exact readReg_retire hd

/-- Read off the cycle over CORE's `decode`, where the destination is. -/
theorem readReg_of_step (h : step s = .next t) (hd : (coreDecode (s.memRead s.pc)).dst ≠ some r) :
    t.readReg r = s.readReg r := by
  rcases step_cases s with ⟨f, _, hs⟩ | ⟨_, _, hs⟩ | ⟨_, _, _, hs⟩ | ⟨_, _, _, hs⟩
  · cases hs.symm.trans h
  · cases hs.symm.trans h
    rfl
  · cases hs.symm.trans h
    rfl
  · rw [hs, exec_decodeWord fun _ => 0#32] at h
    split at h
    · cases h
      rfl
    · exact readReg_of_runDescriptor h hd

/-- A step from any state that answers a next state: only the mark differs, or an instruction completed. -/
theorem step_next_cases (h : step s = .next t) :
    (∃ f, t = s.raise f) ∨ Completed s (decodeWord (s.memRead s.pc)) t := by
  cases hf : s.faultMark with
  | some f => cases (step_of_faultMark hf).symm.trans h
  | none =>
    rcases step_running_cases hf with ⟨f, -, hs⟩ | ⟨-, t', hs, hc⟩
    · cases hs.symm.trans h
      exact .inl ⟨f, rfl⟩
    · cases hs.symm.trans h
      exact .inr hc

section
variable {i : Instr} (h : Completed s i t)
include h

theorem Completed.readCsr_of_ne {c : CsrIdx} (hc : t.readCsr c ≠ s.readCsr c) : ∃ rs1, i = .csrw c rs1 := by
  cases h with
  | register => exact absurd State.readCsr_writeReg hc
  | store => exact absurd rfl hc
  | csr c' rs1 =>
    by_cases he : c = c'
    · exact ⟨rs1, by rw [he]⟩
    · exact absurd (State.readCsr_writeCsr_other he) hc

theorem Completed.readByte_of_ne {a : Word} (ha : t.readByte a ≠ s.readByte a) :
    ∃ rs1 rs2 imm, i = .sw rs1 rs2 imm ∧ ¬ outsideWord (s.readReg rs1 + imm.signExtend 32) a := by
  cases h with
  | register => exact absurd State.readByte_writeReg ha
  | store rs1 rs2 imm =>
    exact ⟨rs1, rs2, imm, rfl, fun ho => ha (State.readByte_memWrite_other (outsideWord_ne_byteAddr ho))⟩
  | csr => exact absurd rfl ha

theorem Completed.memParams_eq : t.memBase = s.memBase ∧ t.memSize = s.memSize := by
  cases h <;> simp

end

end

/-- Settles O16: registers by the write-back of the cycle, the rest by what a completed instruction leaves. -/
theorem whatAStepMayChange : Obligations.WhatAStepMayChange := by
  intro s t h
  refine ⟨fun r hr => by_contra fun hd => hr (readReg_of_step h hd), ?_⟩
  rcases step_next_cases h with ⟨f, rfl⟩ | hc
  · exact ⟨fun c hne => absurd rfl hne, fun a hne => absurd rfl hne, rfl, rfl⟩
  · exact ⟨fun c => hc.readCsr_of_ne, fun a => hc.readByte_of_ne, hc.memParams_eq⟩

/-! ## The parked program (70_reset_and_hazards.md R258) -/

theorem step_of_selfJump {s : State} (hf : s.faultMark = none) (hpc : multipleOf4 s.pc) (hm : inMemory s s.pc)
    (hw : s.memRead s.pc = 0x0000006F#32) : step s = .next s := by
  have hdecode : decodeWord 0x0000006F#32 = .jal 0#5 0#21 := by decide
  have hexec : exec (.jal 0#5 0#21) s = .next ((s.writeReg 0#5 (s.pc + 4#32)).setPc (s.pc + 0#32)) :=
    execBuilt_jal s 0#5 0#32
  rw [step_of_fetch hf hpc hm, hw, hdecode, hexec, State.writeReg_zero, BitVec.add_zero]
  rfl

/-- Settles O17: a step from the parked state is to itself, and so is a run. -/
theorem selfJumpIsAFixedPoint : Obligations.SelfJumpIsAFixedPoint := by
  intro s k hf hpc hm hw
  induction k with
  | zero => exact core_run_zero s
  | succ k ih => rw [core_run_next k (step_of_selfJump hf hpc hm hw), ih]

/-! ## Two instructions in a row -/

/-- Settles O18: the store completes, and the next fetch reads the word it stored. -/
theorem storedWordIsFetchedNext : Obligations.StoredWordIsFetchedNext := by
  intro s rs1 rs2 imm hwf hf haddr hpc hm
  have hexec := exec_sw rs1 rs2 imm s
  rw [haddr] at hexec
  refine ⟨_, exec_access_completes hexec hpc hm, ?_⟩
  have hstep :=
    step_of_fetch (s := (s.memWrite (s.pc + 4#32) (s.readReg rs2)).setPc (s.pc + 4#32)) hf hpc hm
  rwa [State.memRead_setPc, State.setPc_pc, State.memRead_memWrite_self hwf] at hstep

/-- Settles O19: the second instruction reads the state the first one leaves. -/
theorem nextInstructionReadsWhatWasWritten : Obligations.NextInstructionReadsWhatWasWritten := by
  refine ⟨fun s rs1 rs2 rd rs1' imm imm' hwf ha hm hsame => ?word, fun s c rs1 rd hwf => ?csr⟩
  case word =>
    refine ⟨_, exec_access_completes (exec_sw rs1 rs2 imm s) ha hm, ?_⟩
    obtain ⟨-, -, hload⟩ := loadWord
    obtain ⟨hcompletes, -⟩ := hload rd rs1' imm'
      ((s.memWrite (s.readReg rs1 + imm.signExtend 32) (s.readReg rs2)).setPc (s.pc + 4#32))
    rw [State.readReg_setPc, State.readReg_memWrite, hsame, State.memRead_setPc, State.memRead_memWrite_self hwf,
      State.setPc_pc, pc_add_four_add_four] at hcompletes
    exact hcompletes ha hm
  case csr =>
    refine ⟨_, exec_csrw c rs1 s, ?_⟩
    have h := writesReg_of_exec_eq (exec_csrr rd c ((s.writeCsr c (s.readReg rs1)).setPc (s.pc + 4#32)))
    rwa [State.readCsr_setPc, State.readCsr_writeCsr_self hwf, State.setPc_pc, pc_add_four_add_four] at h

/-! ## A bad target (20_memory.md R56) -/

/-- A branch that completes in a running state leaves a bad target to the next fetch. -/
theorem targetFaults_of_movesPc {i : Instr} {s : State} {target : Word} (hf : s.faultMark = none)
    (h : movesPc i s target) : targetFaults i s 0#5 target := by
  intro hbad
  obtain ⟨t, hexec, rfl, -, -, -, -, -, hmark⟩ := h
  exact ⟨t, hexec, fun h0 => absurd rfl h0, step_of_misaligned_pc (hmark.trans hf) hbad⟩

/-- A taken branch moves `pc` to its target. -/
theorem targetFaults_of_branchRule {pattern : Word} {funct3 : BitVec 3} {f : BrFunc} {cond : Word → Word → Bool}
    {instr : RegIdx → RegIdx → BitVec 13 → Instr} (hrule : branchRule pattern funct3 f cond instr) {s : State}
    (hf : s.faultMark = none) {rs1 rs2 : RegIdx} {off : BitVec 13}
    (htaken : cond (s.readReg rs1) (s.readReg rs2) = true) :
    targetFaults (instr rs1 rs2 off) s 0#5 (s.pc + off.signExtend 32) := by
  obtain ⟨-, -, heffect⟩ := hrule
  have h := heffect rs1 rs2 off s
  rw [if_pos htaken] at h
  exact targetFaults_of_movesPc hf h

/-- Settles O20: jumps by the register write that completes them, branches by their rules with the condition met. -/
theorem badTargetFaultsAtTheNextFetch : Obligations.BadTargetFaultsAtTheNextFetch := by
  intro s hf
  obtain ⟨hbeq, hbne, hblt, hbge, hbltu, hbgeu⟩ := branches
  exact ⟨fun rd off => targetFaults_of_writesReg hf (writesReg_jal rd off s),
    fun rd rs1 imm => targetFaults_of_writesReg hf (writesReg_jalr rd rs1 imm s),
    fun _ _ _ h => targetFaults_of_branchRule hbeq hf (decide_eq_true h),
    fun _ _ _ h => targetFaults_of_branchRule hbne hf (decide_eq_true h),
    fun _ _ _ h => targetFaults_of_branchRule hblt hf (decide_eq_true h),
    fun _ _ _ h => targetFaults_of_branchRule hbge hf (decide_eq_true h),
    fun _ _ _ h => targetFaults_of_branchRule hbltu hf (decide_eq_true h),
    fun _ _ _ h => targetFaults_of_branchRule hbgeu hf (decide_eq_true h)⟩

end Sys2Proof.Machine
end
